-- ==== Sys2Proof/Word.lean ====
section
/-! DEFINITION. The word types of the block (spec/00_scope.md R10, R11): bytes, `u32` and `u64` are unsigned
integers modulo 2^8, 2^32 and 2^64, bit 0 the least significant. Their `+` and `*` are the spec's `+32`, `*32`,
`+64`, `*64`, which wrap silently (R166, R197). -/

namespace Sys2Proof

/-- A byte, the smallest addressable unit of the block's memories (R60). -/
abbrev Byte := BitVec 8

/-- The spec's `u32`. -/
abbrev U32 := BitVec 32

/-- The spec's `u64`. -/
abbrev U64 := BitVec 64

/-- The spec's `zext_64` (R12). -/
abbrev zext64 {n : Nat} (x : BitVec n) : U64 := x.setWidth 64

/-- The low 32 bits of a host write to a 32-bit register (R25). -/
abbrev low32 (x : U64) : U32 := x.setWidth 32

end Sys2Proof
end

