-- ==== Sys2Proof/Syntax.lean ====
section
/-! DEFINITION. The instructions (the spec's "commands", spec/00_scope.md R13): one constructor for each row of
spec/opcode_table.json (spec/30_encoding.md R93). No command carries an immediate; the only operand field of a command
word is SRC, which PUT alone has (R94). -/

namespace Sys2Proof

/-- The SRC field of PUT (R91): where the 64-bit hash comes from. -/
inductive HashSource where
  /-- SRC = 0: the hash is A0. -/
  | a0
  /-- SRC = 1: the hash is RES0. -/
  | res0
  deriving DecidableEq, Repr

/-- The sixteen commands of R93, in the table's order. -/
inductive Instr where
  | config
  | rget
  | rset
  | rclr
  | rawrd
  | rawwr
  | rmax
  | h32
  | h128
  | h32w1
  | h32w2
  | h64w1
  | h64w2
  | put (src : HashSource)
  | est
  | relerr
  deriving DecidableEq, Repr

end Sys2Proof
end

