-- ==== Sys2Proof/WellFormed.lean ====
section
/-! DEFINITION. What is well-formed: a command word (spec/30_encoding.md R91, R92, R96) and an instruction. -/

namespace Sys2Proof

/-- OPC, bits 7:0 of a command word (R91). -/
def CommandWord.opcode (c : U32) : BitVec 8 := c.extractLsb' 0 8

/-- SRC, bit 8 of a command word (R91). -/
def CommandWord.src (c : U32) : Bool := c.getLsbD 8

/-- Bits 31:9 of a command word, reserved (R91). -/
def CommandWord.reserved (c : U32) : BitVec 23 := c.extractLsb' 9 23

/-- The assigned OPC values (R93, R96). -/
def CommandWord.assignedOpcodes : List (BitVec 8) :=
  [0x10, 0x11, 0x12, 0x13, 0x14, 0x15, 0x16,
   0x20, 0x21, 0x22, 0x23, 0x24, 0x25,
   0x30, 0x31, 0x32]

/-- The first check of R92: the reserved bits are zero. -/
def CommandWord.reservedOk (c : U32) : Bool := decide (CommandWord.reserved c = 0)

/-- The second check of R92: the opcode is in the table of R93. -/
def CommandWord.opcodeOk (c : U32) : Bool := decide (CommandWord.opcode c ∈ CommandWord.assignedOpcodes)

/-- The third check of R92: SRC is 1 for PUT only. -/
def CommandWord.srcOk (c : U32) : Bool := decide (CommandWord.src c = true → CommandWord.opcode c = 0x30)

/-- A legal command word: R92 does not decode it as ILLEGAL. -/
def CommandWord.legal (c : U32) : Bool :=
  CommandWord.reservedOk c && CommandWord.opcodeOk c && CommandWord.srcOk c

/-- Every term of Instr is well-formed: PUT's SRC has the two values that Syntax gives it, and no other command has an
operand field (R94). -/
def Instr.wellFormed : Instr → Bool
  | .config => true
  | .rget => true
  | .rset => true
  | .rclr => true
  | .rawrd => true
  | .rawwr => true
  | .rmax => true
  | .h32 => true
  | .h128 => true
  | .h32w1 => true
  | .h32w2 => true
  | .h64w1 => true
  | .h64w2 => true
  | .put .a0 => true
  | .put .res0 => true
  | .est => true
  | .relerr => true

end Sys2Proof
end

