-- ==== Sys2Proof/Decode.lean ====
section
/-! DEFINITION. The decoder, total on all 2^32 command words (spec/30_encoding.md R92), and the encoder (R91, R93). -/

namespace Sys2Proof

/-- Why a command word is ILLEGAL (R92), by name. The machine gives all three the same effect (R97). -/
inductive DecodeReject where
  /-- A bit of 31:9 is not zero. -/
  | reservedBits
  /-- The opcode is not in the table of R93. -/
  | unassignedOpcode
  /-- Bit 8 is 1 and the command is not PUT. -/
  | srcNotAllowed
  deriving DecidableEq, Repr

/-- The SRC bit as PUT reads it (R91). -/
def HashSource.ofBit (b : Bool) : HashSource := if b then .res0 else .a0

/-- The SRC bit of a source (R91). -/
def HashSource.toBit : HashSource → BitVec 1
  | .a0 => 0
  | .res0 => 1

/-- The opcode map of R93; `src` is what PUT takes as its SRC. -/
def decodeOpcode (opc : BitVec 8) (src : HashSource) : Option Instr :=
  if opc = 0x10 then some .config
  else if opc = 0x11 then some .rget
  else if opc = 0x12 then some .rset
  else if opc = 0x13 then some .rclr
  else if opc = 0x14 then some .rawrd
  else if opc = 0x15 then some .rawwr
  else if opc = 0x16 then some .rmax
  else if opc = 0x20 then some .h32
  else if opc = 0x21 then some .h128
  else if opc = 0x22 then some .h32w1
  else if opc = 0x23 then some .h32w2
  else if opc = 0x24 then some .h64w1
  else if opc = 0x25 then some .h64w2
  else if opc = 0x30 then some (.put src)
  else if opc = 0x31 then some .est
  else if opc = 0x32 then some .relerr
  else none

/-- R92. -/
def decode (c : U32) : Except DecodeReject Instr :=
  if CommandWord.reserved c ≠ 0 then .error .reservedBits
  else
    match decodeOpcode (CommandWord.opcode c) (HashSource.ofBit (CommandWord.src c)) with
    | none => .error .unassignedOpcode
    | some i =>
      if CommandWord.src c = true ∧ CommandWord.opcode c ≠ 0x30 then .error .srcNotAllowed
      else .ok i

/-- A word of format CMD32 (R91): reserved bits zero, SRC, OPC. -/
def cmd32 (src : BitVec 1) (opc : BitVec 8) : U32 := 0#23 ++ src ++ opc

/-- The command word of an instruction (R91, R93). -/
def encode : Instr → U32
  | .config => cmd32 0 0x10
  | .rget => cmd32 0 0x11
  | .rset => cmd32 0 0x12
  | .rclr => cmd32 0 0x13
  | .rawrd => cmd32 0 0x14
  | .rawwr => cmd32 0 0x15
  | .rmax => cmd32 0 0x16
  | .h32 => cmd32 0 0x20
  | .h128 => cmd32 0 0x21
  | .h32w1 => cmd32 0 0x22
  | .h32w2 => cmd32 0 0x23
  | .h64w1 => cmd32 0 0x24
  | .h64w2 => cmd32 0 0x25
  | .put src => cmd32 src.toBit 0x30
  | .est => cmd32 0 0x31
  | .relerr => cmd32 0 0x32

/-- What the decoder reads from an instruction of `nbits` bits whose bits are `w`, bit 0 the least significant of the first
word. A command is one 32-bit word that the host writes whole, so it has no byte order (R63, R90). -/
def decodeTableWord (nbits w : Nat) : Option Instr :=
  match decode (BitVec.ofNat 32 (w % 2 ^ nbits)) with
  | .ok i => some i
  | .error _ => none

end Sys2Proof
end

