-- ==== Sys2Proof/Config.lean ====
section
/-! DEFINITION. What an implementation of the block fixes (spec/00_scope.md R9) and the model's free values
(spec/93_implementation_defined.md U1, U6). -/

namespace Sys2Proof.Config

/-- The parameters of R9 that one block has for its whole life (R20). `P_MAX` and `MSG_SIZE` are what the constant
register CAP shows (R32). They are plain data in State and no step changes them, so a statement about every state is a
statement about every value of them. `NUM_LN` is not here: the model takes the true natural logarithm
(`Machine/Logarithm.lean`, assumption 9). -/
structure Params where
  /-- `P_MAX`, the largest configurable `p`. -/
  pMax : Nat
  /-- `MSG_SIZE`, the bytes of the message buffer. -/
  msgSize : Nat
  /-- `ALPHA64`, the estimator's constant at `m = 64` (R251). -/
  alpha64 : Rat
  /-- `BASE`, where the platform maps the block; no rule depends on it. -/
  base : Nat
  deriving DecidableEq, Repr

/-- The ranges R9 gives the parameters. That `ALPHA64` is positive is DESIGN CHOICE (assumption 11): R9 says only
"rational". -/
def Params.wf (c : Params) : Bool :=
  decide (4 ≤ c.pMax) && decide (c.pMax ≤ 31) &&
  decide (1 ≤ c.msgSize) && decide (c.msgSize ≤ 2 ^ 31 - 1) && decide (0 < c.alpha64)

/-- The block that State.reset shows: ALPHA64 is the source's literal (R251, U9), the rest is DESIGN CHOICE (assumption 3,
unsafe): the values the spec ran its own programs with (spec/95_test_vectors.md section 1), and `BASE = 0`. -/
def Params.default : Params where
  pMax := 16
  msgSize := 4096
  alpha64 := 679 / 1000
  base := 0

/-- FREE VALUE (assumption 1; U1, D39): `msgFree n a` is what MSG byte `a` holds after the `n`-th reset until the host writes
it. Nothing is known of it. -/
opaque msgFree : Nat → Nat → Byte

/-- FREE VALUE (assumption 9; U6): `lnRoundsUp c x` says which of the two neighbouring integers `c * ln x` rounds to, where
the model's enclosure of `ln x` does not decide it. Nothing is known of it. -/
opaque lnRoundsUp : Nat → Rat → Bool

/-- FREE VALUE (assumption 20; R248, R256): what EST leaves in RES0 where `floor(F + 1/2)` does not fit 64 bits, which an ALPHA64
with a denominator of astronomic size can bring about at `m = 64`. Nothing is known of it. -/
opaque estimateBeyond : Nat → U64

end Sys2Proof.Config
end

