-- ==== Sys2Proof/Machine/State.lean ====
section
/-! DEFINITION. The state of the block as plain data (spec/10_state.md R20 to R40), the reasons a step could stop, and
the state after reset. -/

namespace Sys2Proof.Machine

/-- The code of a command's outcome other than OK (spec/60_exceptions.md R281). An error is no stop of the machine: it is a
next state in which STATUS records it (R284). -/
inductive ErrorCode where
  /-- 1: CONFIG with `p` or `w` out of range. -/
  | invalidArgument
  /-- 2: RSET or RMAX with `A1 >= 2^w`, RAWWR with `A1 >= 256`. -/
  | valueOverflow
  /-- 3: reserved for the host's serialization layer; the block never raises it. -/
  | corruptData
  /-- 4: RGET, RSET or RMAX with `A0 >= m`. -/
  | indexOutOfRange
  /-- 5: an illegal command word. -/
  | illegalCommand
  /-- 6: an array or HyperLogLog command while the block is not configured. -/
  | notConfigured
  /-- 7: a hash or raw access outside its memory. -/
  | addressRange
  /-- 8: EST reaching the large range with `E >= 2^32`. -/
  | estRange
  deriving DecidableEq, Repr

/-- STATUS (R29): its two fields. Bits 7:4 and 63:9 read 0 and are not held. -/
structure Status where
  /-- ERR, bits 3:0. -/
  err : BitVec 4
  /-- ESTICKY, bit 8. -/
  esticky : Bool
  deriving DecidableEq, Repr

/-- CFG (R30): its three fields. The reserved bits read 0 and are not held. -/
structure Cfg where
  /-- P, bits 12:8. -/
  p : BitVec 5
  /-- W, bits 3:0. -/
  w : BitVec 4
  /-- VALID, bit 31. -/
  valid : Bool
  deriving DecidableEq, Repr

/-- The five host actions (spec/00_scope.md R14). -/
inductive HostAction where
  /-- `HostWriteReg(n, v)`. -/
  | writeReg (n : Nat) (v : U64)
  /-- `HostReadReg(n)`. -/
  | readReg (n : Nat)
  /-- `HostWriteMsg(a, b)`. -/
  | writeMsg (a : Nat) (b : Byte)
  /-- `HostReadMsg(a)`. -/
  | readMsg (a : Nat)
  /-- `Reset`. -/
  | reset
  deriving DecidableEq, Repr

/-- What a read action returned to the host (R14). -/
inductive Reply where
  /-- The value `HostReadReg(n)` returned. -/
  | reg (n : Nat) (v : U64)
  /-- The value `HostReadMsg(a)` returned. -/
  | msg (a : Nat) (b : Byte)
  deriving DecidableEq, Repr

/-- The state: the block's registers and memories (R20) and its parameters (R9), then three fields of the model's own.
CMD holds nothing (R28) and CAP is computed from `params` (R32), so neither has a field. -/
structure State where
  /-- A0, operand register (R21). -/
  a0 : U64
  /-- A1, operand register (R21). -/
  a1 : U64
  /-- RES0, result register (R22). -/
  res0 : U64
  /-- RES1, result register (R22). -/
  res1 : U64
  /-- STATUS (R29). -/
  status : Status
  /-- CFG (R30). -/
  cfg : Cfg
  /-- SEED (R31). -/
  seed : U32
  /-- MSG (R35): the bytes the host has written since the last reset; every other byte is unspecified (U1). -/
  msg : List Host.Cell
  /-- RAW (R36): the live bytes that are not zero. -/
  raw : List Host.Cell
  /-- The block's constants, CAP among them (R9, R32). -/
  params : Config.Params
  /-- MODEL'S OWN (assumption 2): the number of `Reset` actions taken, which selects the free content of MSG. -/
  epoch : Nat
  /-- MODEL'S OWN (assumption 4): the host's actions that are still to be taken, the next one first. -/
  pending : List HostAction
  /-- MODEL'S OWN (assumption 5): what the host's reads have returned, the oldest first. -/
  replies : List Reply
  deriving DecidableEq, Repr

/-- The reasons a step can stop with a fault: NONE. Every error of the block is recorded in STATUS and the block goes on (R284,
R287), so no step faults. -/
inductive Fault where
  deriving DecidableEq, Repr

/-- The reasons a step can be refused. -/
inductive Refusal where
  /-- Raised by an arm of exec whose instruction has no meaning yet (safe: the machine stops where the block goes on). No arm
  raises it now. -/
  | notModelled (mnemonic : String)
  deriving DecidableEq, Repr

/-- A block with parameters `c` right after reset (R40, R310). -/
def State.resetWith (c : Config.Params) : State where
  a0 := 0
  a1 := 0
  res0 := 0
  res1 := 0
  status := { err := 0, esticky := false }
  cfg := { p := 0, w := 0, valid := false }
  seed := 0
  msg := []
  raw := []
  params := c
  epoch := 0
  pending := []
  replies := []

/-- The machine right after reset, for the parameters of assumption 3. -/
def State.reset : State := State.resetWith Config.Params.default

end Sys2Proof.Machine
end

