-- ==== Sys2Proof/Machine/Memory.lean ====
section
/-! DEFINITION. A byte memory as a list of (address, byte) cells in one canonical form (spec/20_memory.md R60). `blank` is what
an address that no cell lists holds: `none` for MSG (unspecified, U1), `some 0` for RAW (CONFIG zero-fills it, R121). -/

namespace Sys2Proof.Machine.Memory

/-- What MSG holds at an address that no cell lists: no value of the model's (R35, R40, U1; assumption 1). -/
def msgBlank : Option Byte := none

/-- What RAW holds at a live address that no cell lists: zero (R121, R122). -/
def rawBlank : Option Byte := some 0

/-- The byte a memory lists at an address. -/
def get? : List Host.Cell → Nat → Option Byte
  | [], _ => none
  | (k, b) :: rest, a => if a = k then some b else get? rest a

/-- List `b` at `a`, in the place that keeps the addresses rising. -/
def insert (a : Nat) (b : Byte) : List Host.Cell → List Host.Cell
  | [] => [(a, b)]
  | (k, c) :: rest =>
    if a < k then (a, b) :: (k, c) :: rest
    else if a = k then (a, b) :: rest
    else (k, c) :: insert a b rest

/-- List nothing at `a`. -/
def erase (a : Nat) : List Host.Cell → List Host.Cell
  | [] => []
  | (k, c) :: rest => if a = k then erase a rest else (k, c) :: erase a rest

/-- Write one byte. Writing what an unlisted address holds lists nothing. -/
def write (blank : Option Byte) (a : Nat) (b : Byte) (m : List Host.Cell) : List Host.Cell :=
  if some b = blank then erase a m else insert a b m

/-- The canonical form: addresses strictly rise and no cell lists the blank value. -/
def wf (blank : Option Byte) (m : List Host.Cell) : Bool :=
  decide (m.Pairwise (fun c d => c.1 < d.1)) && m.all (fun c => decide (some c.2 ≠ blank))

/-- Every listed address is below `n`. -/
def below (n : Nat) (m : List Host.Cell) : Bool := m.all (fun c => decide (c.1 < n))

/-- The byte RAW holds at an address (R12, R36). -/
def rawRead (m : List Host.Cell) (a : Nat) : Byte := (get? m a).getD 0

/-- Write a byte of RAW (R12, R36). -/
def rawWrite (m : List Host.Cell) (a : Nat) (b : Byte) : List Host.Cell := write rawBlank a b m

/-- The byte MSG holds at an address after reset number `epoch` (R12, R35): a byte the host has written, else a free value (U1). -/
def msgRead (epoch : Nat) (m : List Host.Cell) (a : Nat) : Byte := (get? m a).getD (Config.msgFree epoch a)

/-- Write a byte of MSG (R35). -/
def msgWrite (m : List Host.Cell) (a : Nat) (b : Byte) : List Host.Cell := write msgBlank a b m

end Sys2Proof.Machine.Memory
end

