-- ==== Sys2Proof/Machine/Bits.lean ====
section
/-! DEFINITION. The pseudocode primitives over bits and bytes (spec/00_scope.md R12) and the little-endian byte order
(spec/20_memory.md R61, R62). -/

namespace Sys2Proof.Machine

/-- `rotl32(x, r)`, for `0 < r < 32` (R12). -/
def rotl32 (x : U32) (r : Nat) : U32 := (x <<< r) ||| (x >>> (32 - r))

/-- `rotl64(x, r)`, for `0 < r < 64` (R12). -/
def rotl64 (x : U64) (r : Nat) : U64 := (x <<< r) ||| (x >>> (64 - r))

/-- `x ^ (x >> r)`, the xor-shift of the two avalanches (R165, R196). -/
def xorShift {n : Nat} (x : BitVec n) (r : Nat) : BitVec n := x ^^^ (x >>> r)

/-- `clz64(x)`: 64 if `x = 0`, else `63 - floor(log2 x)` (R12). -/
def clz64 (x : U64) : Nat := if x = 0 then 64 else 63 - Nat.log2 x.toNat

/-- `MemRead(S, a, n)`: the `n` bytes at `a`, little-endian, the lowest address least significant (R12, R61). -/
def memRead (rd : Nat → Byte) (a : Nat) : Nat → Nat
  | 0 => 0
  | n + 1 => memRead rd a n + (rd (a + n)).toNat * 2 ^ (8 * n)

/-- Byte `j` of a 64-bit value, byte 0 being bits 7:0 (R63). -/
def byteOf (x : U64) (j : Nat) : Byte := x.extractLsb' (8 * j) 8

/-- `bytes_le(x)` as a byte sequence from address 0 (R220). -/
def bytesLe (x : U64) : Nat → Byte := byteOf x

/-- `bytes_le(x1)` followed by `bytes_le(x2)` (R62, R220). -/
def bytesLe2 (x1 x2 : U64) (a : Nat) : Byte := if a < 8 then byteOf x1 a else byteOf x2 (a - 8)

end Sys2Proof.Machine
end

