-- ==== Sys2Proof/Machine/Flags.lean ====
section
/-! DEFINITION. The block's flag-like state (spec/10_state.md R27): how STATUS changes (R29) and the words the host reads of
STATUS, CFG and CAP (R29, R30, R32). There are no carry, zero, sign or overflow flags. -/

namespace Sys2Proof.Machine

/-- The numeric codes of R281. -/
def ErrorCode.code : ErrorCode → BitVec 4
  | .invalidArgument => 1
  | .valueOverflow => 2
  | .corruptData => 3
  | .indexOutOfRange => 4
  | .illegalCommand => 5
  | .notConfigured => 6
  | .addressRange => 7
  | .estRange => 8

/-- A command that succeeds: `ERR <- 0`, ESTICKY kept (R29, R285). -/
def Status.succeed (st : Status) : Status := { st with err := 0 }

/-- A command that fails: `ERR <- code`, `ESTICKY <- 1` (R29, R284). -/
def Status.raise (e : ErrorCode) (_st : Status) : Status := { err := e.code, esticky := true }

/-- A host write of `v` to STATUS: ESTICKY is cleared if `v[8] = 1`, nothing else happens (R29). -/
def Status.hostWrite (v : U64) (st : Status) : Status :=
  if v.getLsbD 8 then { st with esticky := false } else st

/-- STATUS as the host reads it (R29). -/
def Status.word (st : Status) : U64 := zext64 st.err ||| (zext64 (BitVec.ofBool st.esticky) <<< 8)

/-- CFG as the host reads it (R30). -/
def Cfg.word (c : Cfg) : U64 :=
  zext64 c.w ||| (zext64 c.p <<< 8) ||| (zext64 (BitVec.ofBool c.valid) <<< 31)

end Sys2Proof.Machine

namespace Sys2Proof.Config

/-- CAP as the host reads it: `CAP[4:0] = P_MAX`, `CAP[63:32] = MSG_SIZE`, the rest 0 (R32). -/
def Params.capWord (c : Params) : U64 :=
  zext64 (BitVec.ofNat 5 c.pMax) ||| (zext64 (BitVec.ofNat 32 c.msgSize) <<< 32)

end Sys2Proof.Config
end

