-- ==== Sys2Proof/Machine/Operands.lean ====
section
/-! DEFINITION. The operands of the commands (spec/30_encoding.md R94): what a command reads of the state, and how a register
index becomes bits of RAW (spec/20_memory.md R64 to R66). Operands are unsigned 64-bit values, compared whole. -/

namespace Sys2Proof.Machine

/-- `p = CFG.P` (R120). -/
def State.p (s : State) : Nat := s.cfg.p.toNat

/-- `w = CFG.W` (R120). -/
def State.w (s : State) : Nat := s.cfg.w.toNat

/-- `m = 2^CFG.P`, the register count (R12). -/
def State.m (s : State) : Nat := 2 ^ s.p

/-- `NBYTES = 2^(CFG.P - 3) * CFG.W`, the live bytes of RAW (R12, R36). -/
def State.nbytes (s : State) : Nat := 2 ^ (s.p - 3) * s.w

/-- The hash operand of PUT (R241). -/
def State.hashOperand (s : State) : HashSource → U64
  | .a0 => s.a0
  | .res0 => s.res0

/-- `MSG[a]` (R12). -/
def State.msgByte (s : State) (a : Nat) : Byte := Memory.msgRead s.epoch s.msg a

/-- `RAW[a]` (R12). -/
def State.rawByte (s : State) (a : Nat) : Byte := Memory.rawRead s.raw a

/-- `byteIndex` of register `i` of width `w` (R64). -/
def fieldByteIndex (w i : Nat) : Nat := i * w / 8

/-- `bitOffset`, counted from the most significant bit of the byte (R64). -/
def fieldBitOffset (w i : Nat) : Nat := i * w % 8

/-- `distance = 8 - w - bitOffset`; negative when the field spans two bytes (R64). -/
def fieldDistance (w i : Nat) : Int := 8 - (w : Int) - (fieldBitOffset w i : Int)

/-- The field lies inside one byte (R65). -/
def fieldFits (w i : Nat) : Bool := decide (0 ≤ fieldDistance w i)

/-- `n2`, the bits a two-byte field takes from its second byte (R65). -/
def fieldN2 (w i : Nat) : Nat := (-fieldDistance w i).toNat

/-- `n1`, the bits a two-byte field takes from its first byte (R65). -/
def fieldN1 (w i : Nat) : Nat := w - fieldN2 w i

/-- The bytes of RAW that hold register `i` (R65, R66). -/
def fieldOwns (w i a : Nat) : Bool :=
  decide (a = fieldByteIndex w i) || (!fieldFits w i && decide (a = fieldByteIndex w i + 1))

/-- The low `n` bits of a byte, `2^n - 1`. -/
def lowMask (n : Nat) : Byte := BitVec.ofNat 8 (2 ^ n - 1)

/-- `field_get(RAW, w, i)` (R65). -/
def fieldGet (rd : Nat → Byte) (w i : Nat) : Byte :=
  let b := fieldByteIndex w i
  if fieldFits w i then
    (rd b >>> (fieldDistance w i).toNat) &&& lowMask w
  else
    let n2 := fieldN2 w i
    let hi := rd b &&& lowMask (fieldN1 w i)
    let lo := rd (b + 1) >>> (8 - n2)
    (hi <<< n2) ||| lo

/-- `field_set(RAW, w, i, v)` for `v < 2^w` (R66). -/
def fieldSet (raw : List Host.Cell) (w i : Nat) (v : Byte) : List Host.Cell :=
  let b := fieldByteIndex w i
  if fieldFits w i then
    let d := (fieldDistance w i).toNat
    let fmask := lowMask w <<< d
    Memory.rawWrite raw b ((Memory.rawRead raw b &&& ~~~fmask) ||| (v <<< d))
  else
    let n2 := fieldN2 w i
    let m1 := lowMask (fieldN1 w i)
    let raw1 := Memory.rawWrite raw b ((Memory.rawRead raw b &&& ~~~m1) ||| (v >>> n2))
    let m2 := lowMask n2 <<< (8 - n2)
    Memory.rawWrite raw1 (b + 1)
      ((Memory.rawRead raw1 (b + 1) &&& ~~~m2) ||| ((v &&& lowMask n2) <<< (8 - n2)))

/-- `get(i)`, the value of register `i` (R240). -/
def State.get (s : State) (i : Nat) : Nat := (fieldGet s.rawByte s.w i).toNat

end Sys2Proof.Machine
end

