-- ==== Sys2Proof/Machine/Ops.lean ====
section
/-! DEFINITION. The operations the commands share: how a command ends (spec/60_exceptions.md R284, R285) and what it writes
(spec/10_state.md R22, R23). -/

namespace Sys2Proof.Machine

/-- `raise Error(code)`, the error entry (R284): STATUS records it, nothing else changes. There is no vector, no mode, no saved
state and no return (R287), because the block has no program counter (R26). -/
def State.raiseError (e : ErrorCode) (s : State) : State := { s with status := s.status.raise e }

/-- The end of a command that succeeds (R285). -/
def State.succeed (s : State) : State := { s with status := s.status.succeed }

/-- A command that fails: the next state is the error entry's. -/
def fail (e : ErrorCode) (s : State) : Host.Outcome State Fault Refusal := .next (s.raiseError e)

/-- A command that succeeds with the effect already in `s`. -/
def done (s : State) : Host.Outcome State Fault Refusal := .next s.succeed

/-- `RES0 <- v` (R22). -/
def State.setRes0 (s : State) (v : U64) : State := { s with res0 := v }

/-- `RES0 <- v0`, `RES1 <- v1` in one step (R191). -/
def State.setRes (s : State) (v0 v1 : U64) : State := { s with res0 := v0, res1 := v1 }

/-- `RAW[a] <- b` (R141). -/
def State.setRawByte (s : State) (a : Nat) (b : Byte) : State := { s with raw := Memory.rawWrite s.raw a b }

/-- `field_set(RAW, w, i, v)` on the configured array (R66). -/
def State.setField (s : State) (i : Nat) (v : Byte) : State := { s with raw := fieldSet s.raw s.w i v }

/-- Store if greater (R146, R241): the comparison is strict and unsigned. -/
def State.maxField (s : State) (i : Nat) (v : Byte) : State := if s.get i < v.toNat then s.setField i v else s

/-- `RAW[a] <- 0` for every live byte (R121, R135): no live byte is listed any more. -/
def State.zeroFill (s : State) : State := { s with raw := [] }

/-- `CFG.P <- p`, `CFG.W <- w`, `CFG.VALID <- 1` (R121). -/
def State.setCfg (s : State) (p w : U64) : State :=
  { s with cfg := { p := p.setWidth 5, w := w.setWidth 4, valid := true } }

end Sys2Proof.Machine
end

