-- ==== Sys2Proof/Machine/Hash128.lean ====
section
/-! DEFINITION. The 128-bit hash engine, MurmurHash3 `x64_128` (spec/42_hash128.md), over any byte sequence `rd`, and H128. -/

namespace Sys2Proof.Machine.Hash128

/-- The two lanes: lane0 is `h1`, lane1 is `h2` (R190). -/
structure Lanes where
  h1 : U64
  h2 : U64
  deriving DecidableEq, Repr

/-- `C1` (R192). -/
def c1 : U64 := 0x87c37b91114253d5

/-- `C2` (R192). -/
def c2 : U64 := 0x4cf5ad432745937f

/-- `N1` (R192). -/
def n1 : U64 := 0x52dce729

/-- `N2` (R192). -/
def n2 : U64 := 0x38495ab5

/-- Both lanes start from the seed zero-extended (R192). -/
def init (seed : U32) : Lanes := { h1 := zext64 seed, h2 := zext64 seed }

/-- What body and tail do to `k1` (R193, R194). -/
def mix1 (k : U64) : U64 := rotl64 (k * c1) 31 * c2

/-- What body and tail do to `k2` (R193, R194). -/
def mix2 (k : U64) : U64 := rotl64 (k * c2) 33 * c1

/-- One 16-byte block of the body (R193): the second lane uses the `h1` just updated. -/
def block (l : Lanes) (k1 k2 : U64) : Lanes :=
  let h1 := (rotl64 (l.h1 ^^^ mix1 k1) 27 + l.h2) * 5 + n1
  let h2 := (rotl64 (l.h2 ^^^ mix2 k2) 31 + h1) * 5 + n2
  { h1 := h1, h2 := h2 }

/-- The body over the first `nblocks` 16-byte blocks from `off` (R193). -/
def body (rd : Nat → Byte) (off : Nat) (seed : U32) : Nat → Lanes
  | 0 => init seed
  | i + 1 =>
    block (body rd off seed i) (BitVec.ofNat 64 (memRead rd (off + 16 * i) 8))
      (BitVec.ofNat 64 (memRead rd (off + 16 * i + 8) 8))

/-- Tail bytes `t`, `t + 1`, ... folded in at bits 7:0, 15:8, ..., zero-extended (R194). -/
def tailWord (rd : Nat → Byte) (t : Nat) : Nat → U64
  | 0 => 0
  | j + 1 => tailWord rd t j ^^^ (zext64 (rd (t + j)) <<< (8 * j))

/-- The tail of `r` bytes at `t` (R194): bytes 8 to 14 into `k2`, bytes 0 to 7 into `k1`. -/
def tail (rd : Nat → Byte) (t r : Nat) (l : Lanes) : Lanes :=
  let h2 := if 8 < r then l.h2 ^^^ mix2 (tailWord rd (t + 8) (r - 8)) else l.h2
  let h1 := if 0 < r then l.h1 ^^^ mix1 (tailWord rd t (min r 8)) else l.h1
  { h1 := h1, h2 := h2 }

/-- `fmix64` (R196). -/
def fmix (k : U64) : U64 := xorShift (xorShift (xorShift k 33 * 0xff51afd7ed558ccd) 33 * 0xc4ceb9fe1a85ec53) 33

/-- `h1 <- h1 + h2`, then `h2 <- h2 + h1` (R195). -/
def crossAdd (l : Lanes) : Lanes := { h1 := l.h1 + l.h2, h2 := l.h2 + (l.h1 + l.h2) }

/-- The finalization (R195): the length into both lanes, cross-add, avalanche, cross-add. -/
def finish (len : Nat) (l : Lanes) : Lanes :=
  let l := crossAdd { h1 := l.h1 ^^^ BitVec.ofNat 64 len, h2 := l.h2 ^^^ BitVec.ofNat 64 len }
  crossAdd { h1 := fmix l.h1, h2 := fmix l.h2 }

/-- `murmur3_x64_128(rd, off, len, seed)` (R192 to R195). -/
def hash (rd : Nat → Byte) (off len : Nat) (seed : U32) : Lanes :=
  finish len (tail rd (off + 16 * (len / 16)) (len % 16) (body rd off seed (len / 16)))

end Sys2Proof.Machine.Hash128

namespace Sys2Proof.Machine

/-- H128 (R191): both result registers are written in the same step. -/
def execH128 (s : State) : Host.Outcome State Fault Refusal :=
  if s.params.msgSize < s.a0.toNat + s.a1.toNat then fail .addressRange s
  else
    let l := Hash128.hash s.msgByte s.a0.toNat s.a1.toNat s.seed
    done (s.setRes l.h1 l.h2)

end Sys2Proof.Machine
end

