-- ==== Sys2Proof/Machine/Hash32.lean ====
section
/-! DEFINITION. The 32-bit hash engine, MurmurHash3 `x86_32` (spec/41_hash32.md), over any byte sequence `rd`, and H32. -/

namespace Sys2Proof.Machine.Hash32

/-- `C1` (R162). -/
def c1 : U32 := 0xcc9e2d51

/-- `C2` (R162). -/
def c2 : U32 := 0x1b873593

/-- `N` (R162). -/
def n : U32 := 0xe6546b64

/-- What body and tail do to a block: multiply by C1, rotate 15, multiply by C2 (R162, R163). -/
def mix (k : U32) : U32 := rotl32 (k * c1) 15 * c2

/-- One block of the body (R162). -/
def block (h k : U32) : U32 := rotl32 (h ^^^ mix k) 13 * 5 + n

/-- The body over the first `nblocks` 4-byte blocks from `off` (R162). -/
def body (rd : Nat → Byte) (off : Nat) (seed : U32) : Nat → U32
  | 0 => seed
  | i + 1 => block (body rd off seed i) (BitVec.ofNat 32 (memRead rd (off + 4 * i) 4))

/-- The tail of `r` bytes at `t` (R163). Tail bytes are zero-extended. -/
def tail (rd : Nat → Byte) (t r : Nat) (h : U32) : U32 :=
  let k3 : U32 := if r = 3 then (rd (t + 2)).setWidth 32 <<< 16 else 0
  let k2 : U32 := if 2 ≤ r then k3 ^^^ ((rd (t + 1)).setWidth 32 <<< 8) else k3
  if 1 ≤ r then h ^^^ mix (k2 ^^^ (rd t).setWidth 32) else h

/-- `fmix32` (R165). -/
def fmix (h : U32) : U32 := xorShift (xorShift (xorShift h 16 * 0x85ebca6b) 13 * 0xc2b2ae35) 16

/-- `murmur3_x86_32(rd, off, len, seed)` (R162 to R164): the length is folded in before the avalanche. -/
def hash (rd : Nat → Byte) (off len : Nat) (seed : U32) : U32 :=
  let h := body rd off seed (len / 4)
  let h := tail rd (off + 4 * (len / 4)) (len % 4) h
  fmix (h ^^^ BitVec.ofNat 32 len)

end Sys2Proof.Machine.Hash32

namespace Sys2Proof.Machine

/-- H32 (R161). The block need not be configured (R160). -/
def execH32 (s : State) : Host.Outcome State Fault Refusal :=
  if s.params.msgSize < s.a0.toNat + s.a1.toNat then fail .addressRange s
  else done (s.setRes0 (zext64 (Hash32.hash s.msgByte s.a0.toNat s.a1.toNat s.seed)))

end Sys2Proof.Machine
end

