-- ==== Sys2Proof/Machine/HashWords.lean ====
section
/-! DEFINITION. The integer word hash shortcuts (spec/43_hash_words.md), by their normative definitions: the hash of the
little-endian bytes of A0, or of A0 and then A1. They raise no error and write RES0 only (R220). -/

namespace Sys2Proof.Machine

/-- H32W1 (R221). -/
def execH32w1 (s : State) : Host.Outcome State Fault Refusal :=
  done (s.setRes0 (zext64 (Hash32.hash (bytesLe s.a0) 0 8 s.seed)))

/-- H32W2 (R223). -/
def execH32w2 (s : State) : Host.Outcome State Fault Refusal :=
  done (s.setRes0 (zext64 (Hash32.hash (bytesLe2 s.a0 s.a1) 0 16 s.seed)))

/-- H64W1 (R225). -/
def execH64w1 (s : State) : Host.Outcome State Fault Refusal :=
  done (s.setRes0 (Hash128.hash (bytesLe s.a0) 0 8 s.seed).h1)

/-- H64W2 (R227). -/
def execH64w2 (s : State) : Host.Outcome State Fault Refusal :=
  done (s.setRes0 (Hash128.hash (bytesLe2 s.a0 s.a1) 0 16 s.seed).h1)

end Sys2Proof.Machine
end

