-- ==== Sys2Proof/Machine/Logarithm.lean ====
section
/-! DEFINITION. The natural logarithm of the estimator (spec/44_hll.md R254; spec/93_implementation_defined.md U6): rational
bounds below and above the true `ln x` for rational `x >= 1`, and the rounding of `c * ln x` to the nearest integer. The
bounds come from `ln ((1+t)/(1-t)) = 2 * (t + t^3/3 + t^5/5 + ...)`, cut after 64 terms or more (assumption 9). -/

namespace Sys2Proof.Machine.Logarithm

/-- `t + t^3/3 + ...`, `n` terms: below `1/2 * ln ((1+t)/(1-t))` for `0 <= t < 1`. -/
def series (t : Rat) : Nat → Rat
  | 0 => 0
  | n + 1 => series t n + t ^ (2 * n + 1) / ((2 * n + 1 : Nat) : Rat)

/-- At least what the series misses after `n` terms. -/
def rest (t : Rat) (n : Nat) : Rat := t ^ (2 * n + 1) / (1 - t ^ 2)

/-- The number of terms taken for an `x` with exponent `k`: enough that the bounds are within 2^-200 of each other for every `x`. -/
def terms (k : Nat) : Nat := 64 + Nat.log2 (k + 1)

/-- The `k` with `2^k <= x < 2^(k+1)`, for `x >= 1`. -/
def exponent (x : Rat) : Nat := Nat.log2 x.floor.toNat

/-- `(z - 1)/(z + 1)` for `z = x / 2^k` in `[1, 2)`, so that `z = (1+t)/(1-t)` with `0 <= t < 1/3`. -/
def argument (x : Rat) : Rat :=
  let z := x / 2 ^ exponent x
  (z - 1) / (z + 1)

/-- A rational at most `ln x`, for `x >= 1`: `k * ln 2 + ln z`, with `2 = (1 + 1/3)/(1 - 1/3)`. -/
def lower (x : Rat) : Rat :=
  let n := terms (exponent x)
  2 * ((exponent x : Rat) * series (1 / 3) n + series (argument x) n)

/-- A rational at least `ln x`, for `x >= 1`. -/
def upper (x : Rat) : Rat :=
  let n := terms (exponent x)
  2 * ((exponent x : Rat) * (series (1 / 3) n + rest (1 / 3) n) + (series (argument x) n + rest (argument x) n))

/-- `floor(F + 1/2)`, a tie going up (R253), for `F >= 0`. -/
def nearest (f : Rat) : Nat := (f + 1 / 2).floor.toNat

/-- `floor(c * ln x + 1/2)` (R253). Where the bounds of `ln x` leave two integers, the result is one of the two and which one is
free (U6). -/
def nearestLn (c : Nat) (x : Rat) : Nat :=
  let lo := nearest (c * lower x)
  let hi := nearest (c * upper x)
  if lo = hi then lo else if Config.lnRoundsUp c x then hi else lo

end Sys2Proof.Machine.Logarithm
end

