-- ==== Sys2Proof/Machine/Hll.lean ====
section
/-! DEFINITION. The HyperLogLog datapath (spec/44_hll.md): PUT, EST and RELERR. -/

namespace Sys2Proof.Machine.Hll

/-- `idx`, the top `p` bits of the hash (R241). -/
def index (p : Nat) (x : U64) : Nat := (x >>> (64 - p)).toNat

/-- `rho` of the remaining bits (R241, R243). -/
def rho (p : Nat) (x : U64) : Nat := clz64 (x <<< p) + 1

/-- `v = rho & (2^w - 1)`: the mask wraps, it does not saturate (R244). -/
def rank (p w : Nat) (x : U64) : Nat := rho p x &&& (2 ^ w - 1)

/-- The sum of `f` over the `2^k` indices from `base`, by halves. -/
def sumOver (f : Nat → Nat) : Nat → Nat → Nat
  | 0, base => f base
  | k + 1, base => sumOver f k base + sumOver f k (base + 2 ^ k)

/-- `2^255 * Z`, an exact integer since a register holds at most 255 (R249). -/
def zScaled (s : State) : Nat := sumOver (fun i => 2 ^ (255 - s.get i)) s.p 0

/-- `Z`, the sum of `2^(-get(i))` over all registers (R249). -/
def z (s : State) : Rat := (zScaled s : Rat) / 2 ^ 255

/-- `V`, the number of registers equal to 0 (R249). -/
def v (s : State) : Nat := sumOver (fun i => if s.get i = 0 then 1 else 0) s.p 0

/-- `alpha(m)` (R251); `alpha64` is the parameter ALPHA64. -/
def alpha (alpha64 : Rat) (m : Nat) : Rat :=
  if m = 16 then 673 / 1000
  else if m = 32 then 697 / 1000
  else if m = 64 then alpha64
  else 7213 * m / (10000 * m + 10790)

/-- `E = alpha(m) * m^2 / Z` (R250). -/
def rawEstimate (s : State) : Rat := alpha s.params.alpha64 s.m * (s.m : Rat) ^ 2 / z s

/-- The three ranges and the rounding (R252, R253) on `m`, `V` and `E`; `none` is EST_RANGE (R255). In the large range
`- 2^32 * ln(1 - E/2^32)` is taken as `2^32 * ln(1 / (1 - E/2^32))` (assumption 10). -/
def estimate (m v : Nat) (e : Rat) : Option Nat :=
  if e ≤ 5 / 2 * (m : Rat) then
    if 0 < v then some (Logarithm.nearestLn m ((m : Rat) / (v : Rat)))
    else some (Logarithm.nearest e)
  else if e ≤ 2 ^ 32 / 30 then some (Logarithm.nearest e)
  else if 2 ^ 32 ≤ e then none
  else some (Logarithm.nearestLn (2 ^ 32) (1 / (1 - e / 2 ^ 32)))

/-- The estimate as RES0 holds it (R248). R256 bounds it for the spec's constants; where another ALPHA64 takes it beyond 64 bits the
spec states no value (assumption 20). -/
def estimateWord (n : Nat) : U64 := if n < 2 ^ 64 then BitVec.ofNat 64 n else Config.estimateBeyond n

/-- `RELERR_TABLE` for `p = 4, 5, ..., 31` (R259): binary64 bit patterns. -/
def relErrTable : List U64 :=
  [0x3FD0A3D70A3D70A4, 0x3FC78852D0FF33F3, 0x3FC0A3D70A3D70A4, 0x3FB78852D0FF33F3,
   0x3FB0A3D70A3D70A4, 0x3FA78852D0FF33F3, 0x3FA0A3D70A3D70A4, 0x3F978852D0FF33F3,
   0x3F90A3D70A3D70A4, 0x3F878852D0FF33F3, 0x3F80A3D70A3D70A4, 0x3F778852D0FF33F3,
   0x3F70A3D70A3D70A4, 0x3F678852D0FF33F3, 0x3F60A3D70A3D70A4, 0x3F578852D0FF33F3,
   0x3F50A3D70A3D70A4, 0x3F478852D0FF33F3, 0x3F40A3D70A3D70A4, 0x3F378852D0FF33F3,
   0x3F30A3D70A3D70A4, 0x3F278852D0FF33F3, 0x3F20A3D70A3D70A4, 0x3F178852D0FF33F3,
   0x3F10A3D70A3D70A4, 0x3F078852D0FF33F3, 0x3F00A3D70A3D70A4, 0x3EF78852D0FF33F3]

/-- `RELERR_TABLE[p]` (R258). -/
def relErr (p : Nat) : U64 := relErrTable.getD (p - 4) 0

end Sys2Proof.Machine.Hll

namespace Sys2Proof.Machine

/-- PUT (R241): register one 64-bit hash, store if greater. -/
def execPut (src : HashSource) (s : State) : Host.Outcome State Fault Refusal :=
  if s.cfg.valid = false then fail .notConfigured s
  else
    let x := s.hashOperand src
    done (s.maxField (Hll.index s.p x) (BitVec.ofNat 8 (Hll.rank s.p s.w x)))

/-- EST (R248). -/
def execEst (s : State) : Host.Outcome State Fault Refusal :=
  if s.cfg.valid = false then fail .notConfigured s
  else
    match Hll.estimate s.m (Hll.v s) (Hll.rawEstimate s) with
    | none => fail .estRange s
    | some n => done (s.setRes0 (Hll.estimateWord n))

/-- RELERR (R258). -/
def execRelerr (s : State) : Host.Outcome State Fault Refusal :=
  if s.cfg.valid = false then fail .notConfigured s
  else done (s.setRes0 (Hll.relErr s.p))

end Sys2Proof.Machine
end

