-- ==== Sys2Proof/Machine/PackedArray.lean ====
section
/-! DEFINITION. The packed register array commands (spec/40_packed_array.md). The checks stand in the order of
spec/60_exceptions.md R286. -/

namespace Sys2Proof.Machine

/-- CONFIG (R121 to R123). -/
def execConfig (s : State) : Host.Outcome State Fault Refusal :=
  if s.a0.toNat < 4 ∨ 31 < s.a0.toNat ∨ s.params.pMax < s.a0.toNat then fail .invalidArgument s
  else if s.a1.toNat < 1 ∨ 8 < s.a1.toNat then fail .invalidArgument s
  else done (s.setCfg s.a0 s.a1).zeroFill

/-- RGET (R126). -/
def execRget (s : State) : Host.Outcome State Fault Refusal :=
  if s.cfg.valid = false then fail .notConfigured s
  else if s.m ≤ s.a0.toNat then fail .indexOutOfRange s
  else done (s.setRes0 (zext64 (fieldGet s.rawByte s.w s.a0.toNat)))

/-- RSET (R130). -/
def execRset (s : State) : Host.Outcome State Fault Refusal :=
  if s.cfg.valid = false then fail .notConfigured s
  else if s.m ≤ s.a0.toNat then fail .indexOutOfRange s
  else if 2 ^ s.w ≤ s.a1.toNat then fail .valueOverflow s
  else done (s.setField s.a0.toNat (s.a1.setWidth 8))

/-- RCLR (R135). -/
def execRclr (s : State) : Host.Outcome State Fault Refusal :=
  if s.cfg.valid = false then fail .notConfigured s
  else done s.zeroFill

/-- RAWRD (R138). -/
def execRawrd (s : State) : Host.Outcome State Fault Refusal :=
  if s.cfg.valid = false then fail .notConfigured s
  else if s.nbytes ≤ s.a0.toNat then fail .addressRange s
  else done (s.setRes0 (zext64 (s.rawByte s.a0.toNat)))

/-- RAWWR (R141). -/
def execRawwr (s : State) : Host.Outcome State Fault Refusal :=
  if s.cfg.valid = false then fail .notConfigured s
  else if s.nbytes ≤ s.a0.toNat then fail .addressRange s
  else if 256 ≤ s.a1.toNat then fail .valueOverflow s
  else done (s.setRawByte s.a0.toNat (s.a1.setWidth 8))

/-- RMAX (R146). -/
def execRmax (s : State) : Host.Outcome State Fault Refusal :=
  if s.cfg.valid = false then fail .notConfigured s
  else if s.m ≤ s.a0.toNat then fail .indexOutOfRange s
  else if 2 ^ s.w ≤ s.a1.toNat then fail .valueOverflow s
  else done (s.maxField s.a0.toNat (s.a1.setWidth 8))

end Sys2Proof.Machine
end

