-- ==== Sys2Proof/Machine/Dispatch.lean ====
section
/-! DEFINITION. What each instruction does: one arm per constructor of Instr, in the order of spec/opcode_table.json. -/

namespace Sys2Proof.Machine

def exec (i : Instr) (s : State) : Host.Outcome State Fault Refusal :=
  match i with
  | .config => Sys2Proof.Machine.execConfig s
  | .rget => Sys2Proof.Machine.execRget s
  | .rset => Sys2Proof.Machine.execRset s
  | .rclr => Sys2Proof.Machine.execRclr s
  | .rawrd => Sys2Proof.Machine.execRawrd s
  | .rawwr => Sys2Proof.Machine.execRawwr s
  | .rmax => Sys2Proof.Machine.execRmax s
  | .h32 => Sys2Proof.Machine.execH32 s
  | .h128 => Sys2Proof.Machine.execH128 s
  | .h32w1 => Sys2Proof.Machine.execH32w1 s
  | .h32w2 => Sys2Proof.Machine.execH32w2 s
  | .h64w1 => Sys2Proof.Machine.execH64w1 s
  | .h64w2 => Sys2Proof.Machine.execH64w2 s
  | .put src => Sys2Proof.Machine.execPut src s
  | .est => Sys2Proof.Machine.execEst s
  | .relerr => Sys2Proof.Machine.execRelerr s

end Sys2Proof.Machine
end

