-- ==== Sys2Proof/Machine/HostInterface.lean ====
section
/-! DEFINITION. The host actions (spec/00_scope.md R14): the register map (spec/10_state.md R25 to R34), the message buffer
(R35), commands (R28) and reset (spec/70_reset_and_hazards.md R310). -/

namespace Sys2Proof.Machine

/-- `HostReadReg(n)`: the register zero-extended to 64 bits; CMD and every number above 8 read 0 (R25, R28, R33, R34). -/
def State.readReg (s : State) (n : Nat) : U64 :=
  match n with
  | 0 => 0
  | 1 => s.status.word
  | 2 => s.cfg.word
  | 3 => zext64 s.seed
  | 4 => s.a0
  | 5 => s.a1
  | 6 => s.res0
  | 7 => s.res1
  | 8 => s.params.capWord
  | _ => 0

/-- `HostWriteReg(n, v)` for a register other than CMD: CFG, RES0, RES1, CAP and every number above 8 ignore it (R25, R33, R34). -/
def State.storeReg (s : State) (n : Nat) (v : U64) : State :=
  match n with
  | 1 => { s with status := s.status.hostWrite v }
  | 3 => { s with seed := low32 v }
  | 4 => { s with a0 := v }
  | 5 => { s with a1 := v }
  | _ => s

/-- Execute a command word (R28): a legal word's command, or the error of an illegal one (R97). -/
def runCommand (c : U32) (s : State) : Host.Outcome State Fault Refusal :=
  match decode c with
  | .ok i => exec i s
  | .error _ => fail .illegalCommand s

/-- `HostReadMsg(a)`: 0 at and above `MSG_SIZE` (R35). -/
def State.readMsg (s : State) (a : Nat) : Byte := if a < s.params.msgSize then s.msgByte a else 0

/-- `HostWriteMsg(a, b)`: ignored at and above `MSG_SIZE` (R35). -/
def State.writeMsg (s : State) (a : Nat) (b : Byte) : State :=
  if a < s.params.msgSize then { s with msg := Memory.msgWrite s.msg a b } else s

/-- `Reset` (R40, R310): the state after reset, MSG unspecified anew; the parameters and the host's side stay. -/
def State.hostReset (s : State) : State :=
  { State.resetWith s.params with
    epoch := s.epoch + 1
    pending := s.pending
    replies := s.replies }

/-- Record what a read returned to the host (assumption 5); the block does not change (R71). -/
def State.reply (s : State) (r : Reply) : State := { s with replies := s.replies ++ [r] }

/-- One host action (R14). -/
def act (h : HostAction) (s : State) : Host.Outcome State Fault Refusal :=
  match h with
  | .writeReg 0 v => runCommand (low32 v) s
  | .writeReg n v => .next (s.storeReg n v)
  | .readReg n => .next (s.reply (.reg n (s.readReg n)))
  | .writeMsg a b => .next (s.writeMsg a b)
  | .readMsg a => .next (s.reply (.msg a (s.readMsg a)))
  | .reset => .next s.hostReset

/-- One step: the host's next action, or nothing when there is none (R13, R26, R315). -/
def runNext (s : State) : Host.Outcome State Fault Refusal :=
  match s.pending with
  | [] => .next s
  | h :: rest => act h { s with pending := rest }

end Sys2Proof.Machine
end

