-- ==== Sys2Proof/Machine/Step.lean ====
section
/-! DEFINITION. One step of the machine, and where it takes its next instruction from. -/

namespace Sys2Proof.Machine

/-- One step: the host's next action, a command among them (R13, R14). -/
def step (s : State) : Host.Outcome State Fault Refusal := runNext s

/-- `s` with a write of the command word `w` (its low `nbits` bits) to CMD as the host's next action. The block has no program
counter and no fetch (R26): a command is what the host writes to CMD (R28; assumption 4). -/
def State.withFetchWord (s : State) (nbits w : Nat) : State :=
  { s with pending := .writeReg 0 (BitVec.ofNat 64 (w % 2 ^ nbits)) :: s.pending }

end Sys2Proof.Machine
end

