-- ==== Sys2Proof/Machine/Actions.lean ====
section
/-! DEFINITION. The spec's notation for host action lists (spec/30_encoding.md R98), its pseudo-commands (R99) and the host's
union procedure (spec/44_hll.md R262), as lists of host actions; runs of such lists, and when a run has gone wrong
(spec/70_reset_and_hazards.md R315). -/

namespace Sys2Proof.Machine.Actions

/-- `cmd MNEMONIC`: the command word of `i` written to CMD (R98). -/
def cmd (i : Instr) : HostAction := .writeReg 0 (zext64 (encode i))

/-- `cmd 0xNNNNNNNN`: a raw command word (R98). -/
def rawCmd (c : U32) : HostAction := .writeReg 0 (zext64 c)

/-- `wr SEED, v` (R98). -/
def wrSeed (v : U64) : HostAction := .writeReg 3 v

/-- `wr A0, v` (R98). -/
def wrA0 (v : U64) : HostAction := .writeReg 4 v

/-- `wr A1, v` (R98). -/
def wrA1 (v : U64) : HostAction := .writeReg 5 v

/-- `wr STATUS, v` (R98). -/
def wrStatus (v : U64) : HostAction := .writeReg 1 v

/-- `rd RES0` (R98). -/
def rdRes0 : HostAction := .readReg 6

/-- `msg addr, b0 b1 ...` (R98). -/
def msg (a : Nat) : List Byte → List HostAction
  | [] => []
  | b :: rest => .writeMsg a b :: msg (a + 1) rest

/-- `config p, w` (R99). -/
def config (p w : U64) : List HostAction := [wrA0 p, wrA1 w, cmd .config]

/-- `rget i` (R99). -/
def rget (i : U64) : List HostAction := [wrA0 i, cmd .rget, rdRes0]

/-- `rset i, v` (R99). -/
def rset (i v : U64) : List HostAction := [wrA0 i, wrA1 v, cmd .rset]

/-- `rmax i, v` (R99). -/
def rmax (i v : U64) : List HostAction := [wrA0 i, wrA1 v, cmd .rmax]

/-- `sketch_reset` (R99, R261). -/
def sketchReset : List HostAction := [cmd .rclr]

/-- `hash32 off, len` (R99). -/
def hash32 (off len : U64) : List HostAction := [wrA0 off, wrA1 len, cmd .h32, rdRes0]

/-- `hash64 off, len` (R99). -/
def hash64 (off len : U64) : List HostAction := [wrA0 off, wrA1 len, cmd .h128, rdRes0]

/-- `put_bytes off, len` (R99). -/
def putBytes (off len : U64) : List HostAction := [wrA0 off, wrA1 len, cmd .h128, cmd (.put .res0)]

/-- `put_hash x` (R99). -/
def putHash (x : U64) : List HostAction := [wrA0 x, cmd (.put .a0)]

/-- `rawrd a` (R99). -/
def rawrd (a : U64) : List HostAction := [wrA0 a, cmd .rawrd, rdRes0]

/-- `rawwr a, b` (R99). -/
def rawwr (a b : U64) : List HostAction := [wrA0 a, wrA1 b, cmd .rawwr]

/-- `rmax i, b` for the values `b` of a list, from index `i` on: the union of R262 where `w_B <= w_A`. -/
def rmaxAll (i : Nat) : List U64 → List HostAction
  | [] => []
  | b :: rest => rmax (BitVec.ofNat 64 i) b ++ rmaxAll (i + 1) rest

/-- `rget i` for `n` indices from `i` on: what the union of R262 reads first where `w_B > w_A`. -/
def rgetAll (i : Nat) : Nat → List HostAction
  | 0 => []
  | n + 1 => rget (BitVec.ofNat 64 i) ++ rgetAll (i + 1) n

/-- The union of R262 where `w_B > w_A`, once A's registers `as` have been read: a new array of width `w_B`, then both sketches. -/
def widenedUnion (p wB : U64) (as bs : List U64) : List HostAction :=
  config p wB ++ (rmaxAll 0 as ++ rmaxAll 0 bs)

/-- A run of a list of host actions from `s`, whatever `s` still had pending (spec/70_reset_and_hazards.md R315). -/
def run (l : List HostAction) (s : State) : Host.Outcome State Fault Refusal :=
  match l with
  | [] => .next s
  | h :: rest =>
    match act h s with
    | .next t => run rest t
    | .fault f => .fault f
    | .refused r => .refused r

/-- The premise of a claim about a run: ESTICKY is 0 at its start (R315). -/
def startsClear (s : State) : Bool := !s.status.esticky

/-- A host clear of ESTICKY: a write of 1 to STATUS bit 8 (R29). Reset is not counted as one (assumption 19). -/
def clearsEsticky (h : HostAction) : Bool :=
  match h with
  | .writeReg n v => n == 1 && v.getLsbD 8
  | .readReg _ => false
  | .writeMsg _ _ => false
  | .readMsg _ => false
  | .reset => false

/-- The run of `l` that ended in `t` has gone wrong: ESTICKY is 1 at its end and the list holds no host clear of it (R315). -/
def goneWrong (l : List HostAction) (t : State) : Bool := t.status.esticky && !l.any clearsEsticky

end Sys2Proof.Machine.Actions
end

