-- ==== Sys2Proof/Machine/Bus.lean ====
section
/-! DEFINITION. The bus addresses of the block (spec/20_memory.md R63, R72; spec/10_state.md R33, R35) and the host actions that a
bus access stands for. What a narrow write to a register does is left out (assumption 14; U3). -/

namespace Sys2Proof.Machine.Bus

/-- What one byte address of the platform's bus is. -/
inductive Target where
  /-- Byte `k` of register `n`, offset `8n + k` (R33). -/
  | reg (n k : Nat)
  /-- Offsets 0x48 to 0xFFF: reads return 0, writes are ignored (R72). -/
  | reserved
  /-- MSG byte `a`, offset `0x1000 + a` (R35). -/
  | msg (a : Nat)
  /-- Not the block's: left to the platform (R72). -/
  | outside
  deriving DecidableEq, Repr

/-- The address map of R72. -/
def target (c : Config.Params) (addr : Nat) : Target :=
  if addr < c.base then .outside
  else
    let off := addr - c.base
    if off < 0x48 then .reg (off / 8) (off % 8)
    else if off < 0x1000 then .reserved
    else if off < 0x1000 + c.msgSize then .msg (off - 0x1000)
    else .outside

/-- One byte of a bus read (R63): `none` where the address is not the block's. -/
def readByte (s : State) (addr : Nat) : Option Byte :=
  match target s.params addr with
  | .reg n k => some (byteOf (s.readReg n) k)
  | .reserved => some 0
  | .msg a => some (s.readMsg a)
  | .outside => none

/-- A bus read of `n` bytes, little-endian (R63). -/
def read (s : State) (addr : Nat) : Nat → Option Nat
  | 0 => some 0
  | n + 1 =>
    match read s addr n, readByte s (addr + n) with
    | some v, some b => some (v + b.toNat * 2 ^ (8 * n))
    | _, _ => none

/-- The host actions of a byte-by-byte write of `n` bytes of `v` outside the register window (R63, R72). -/
def writeBytes (c : Config.Params) (addr : Nat) (v : Nat) : Nat → Option (List HostAction)
  | 0 => some []
  | n + 1 =>
    match writeBytes c addr v n, target c (addr + n) with
    | some l, .msg a => some (l ++ [.writeMsg a (BitVec.ofNat 8 (v / 2 ^ (8 * n)))])
    | some l, .reserved => some l
    | _, _ => none

/-- The host actions of a bus write of `n` bytes of `v`: a whole register, or bytes of MSG and of the reserved range; `none` where
the spec does not say (a narrow or unaligned register write) or the address is not the block's. -/
def write (c : Config.Params) (addr n : Nat) (v : Nat) : Option (List HostAction) :=
  match target c addr with
  | .reg r k => if k = 0 ∧ n = 8 then some [.writeReg r (BitVec.ofNat 64 v)] else none
  | _ => writeBytes c addr v n

end Sys2Proof.Machine.Bus
end

