-- ==== Sys2Proof/Safety.lean ====
section
/-! DEFINITION. The invariant of the state (spec/10_state.md R39 and the canonical form of the memories) and what counts as a safe
run (spec/70_reset_and_hazards.md R312, R315). No step faults, so safety is about STATUS. -/

namespace Sys2Proof.Machine

/-- The codes a command can leave in STATUS.ERR (R281): 3 and 9 to 15 are never written. -/
def errCodes : List (BitVec 4) := [0, 1, 2, 4, 5, 6, 7, 8]

/-- The invariant that every step keeps. It rules out states that no run reaches. -/
structure State.Inv (s : State) : Prop where
  /-- The parameters are in the ranges of R9. -/
  params : s.params.wf = true
  /-- R39, configured. -/
  configured : s.cfg.valid = true → 4 ≤ s.p ∧ s.p ≤ s.params.pMax ∧ 1 ≤ s.w ∧ s.w ≤ 8
  /-- R39, not configured. -/
  unconfigured : s.cfg.valid = false → s.cfg.p = 0 ∧ s.cfg.w = 0
  /-- R39: ERR is one of the codes of R281. -/
  err : s.status.err ∈ errCodes
  /-- MSG is in canonical form. -/
  msgForm : Memory.wf Memory.msgBlank s.msg = true
  /-- MSG lists only bytes that exist (R35). -/
  msgSize : Memory.below s.params.msgSize s.msg = true
  /-- RAW is in canonical form. -/
  rawForm : Memory.wf Memory.rawBlank s.raw = true
  /-- RAW lists only live bytes (R36). -/
  rawSize : Memory.below s.nbytes s.raw = true

/-- The block is configured and in a state of the invariant. -/
def State.Ready (s : State) : Prop := s.Inv ∧ s.cfg.valid = true

/-- The host is idle: its list of actions is exhausted (R315). -/
def State.idle (s : State) : Bool := decide (s.pending = [])

/-- A run of `l` from `s` as a claim about a run takes it (R315): ESTICKY is clear at its start, it ends, and it has not gone
wrong. -/
def Actions.SafeRun (l : List HostAction) (s : State) : Prop :=
  startsClear s = true ∧ ∃ t, run l s = .next t ∧ goneWrong l t = false

/-- The host has written every byte of the range that H32 or H128 would hash (R312 item 2): the hash is then determined. -/
def State.hashInputWritten (s : State) : Prop :=
  ∀ a, s.a0.toNat ≤ a → a < s.a0.toNat + s.a1.toNat → Memory.get? s.msg a ≠ none

end Sys2Proof.Machine
end

