-- ==== Sys2Proof/Certificates/Slice0/Obligations.lean ====
section
/-! DEFINITION. The statements for the provers, and the words they are written in: the algorithms of the spec in plain
arithmetic on natural numbers and lists, apart from the model's own definitions. -/

namespace Sys2Proof.Spec

open Sys2Proof.Machine

/-- STATUS after a command that succeeds (R285). -/
abbrev okStatus (s : State) : Status := { err := 0, esticky := s.status.esticky }

/-- The command fails with this code: STATUS records it and nothing else changes (R284). -/
abbrev Fails (i : Instr) (s : State) (code : BitVec 4) : Prop :=
  exec i s = .next { s with status := { err := code, esticky := true } }

/-! ### Encoding (30_encoding.md) -/

/-- OPC (R93). -/
def opcodeOf : Instr → Nat
  | .config => 0x10
  | .rget => 0x11
  | .rset => 0x12
  | .rclr => 0x13
  | .rawrd => 0x14
  | .rawwr => 0x15
  | .rmax => 0x16
  | .h32 => 0x20
  | .h128 => 0x21
  | .h32w1 => 0x22
  | .h32w2 => 0x23
  | .h64w1 => 0x24
  | .h64w2 => 0x25
  | .put _ => 0x30
  | .est => 0x31
  | .relerr => 0x32

/-- SRC (R91). -/
def srcOf : Instr → Nat
  | .put .res0 => 1
  | _ => 0

/-- The mask of an instruction's row of R93. -/
def maskOf : Instr → U32
  | .put _ => 0xFFFFFEFF
  | _ => 0xFFFFFFFF

/-- R92's three conditions for ILLEGAL, on the number the word is. -/
def illegalWord (c : Nat) : Prop :=
  c / 512 ≠ 0 ∨
  c % 256 ∉ [0x10, 0x11, 0x12, 0x13, 0x14, 0x15, 0x16, 0x20, 0x21, 0x22, 0x23, 0x24, 0x25, 0x30, 0x31, 0x32] ∨
  (c / 256 % 2 = 1 ∧ c % 256 ≠ 0x30)

/-! ### The packed array as a bit string (20_memory.md R67) -/

/-- Bit `q` of RAW read as one bit string, byte 0 first, each byte from bit 7 down. -/
def bit (s : State) (q : Nat) : Bool := (s.rawByte (q / 8)).getLsbD (7 - q % 8)

/-- The number that `n` bits from position `q` spell, the first the most significant. -/
def bitsValue (s : State) (q : Nat) : Nat → Nat
  | 0 => 0
  | n + 1 => 2 * bitsValue s q n + (bit s (q + n)).toNat

/-- Nothing but register `i` of the array differs, down to the bit, and only bytes that hold bits of it can differ. -/
def OnlyRegisterChanges (s t : State) (i : Nat) : Prop :=
  (∀ j, j < s.m → j ≠ i → t.get j = s.get j) ∧
  (∀ q, (q < i * s.w ∨ i * s.w + s.w ≤ q) → bit t q = bit s q) ∧
  (∀ a, fieldOwns s.w i a = false → t.rawByte a = s.rawByte a)

/-! ### The hashes (41_hash32.md, 42_hash128.md), on lists of byte values -/

/-- The little-endian value of a list of bytes (R12, R61). -/
def leValue : List Nat → Nat
  | [] => 0
  | b :: rest => b + 256 * leValue rest

/-- The bytes of the message range of H32 and H128. -/
def messageBytes (s : State) : List Nat :=
  (List.range s.a1.toNat).map (fun j => (s.msgByte (s.a0.toNat + j)).toNat)

/-- `bytes_le(x)` (R220). -/
def wordBytes (x : U64) : List Nat := (List.range 8).map (fun j => x.toNat / 2 ^ (8 * j) % 256)

/-- `rotl` in `n` bits (R12). -/
@[irreducible] def rotl (n x r : Nat) : Nat := x * 2 ^ r % 2 ^ n + x / 2 ^ (n - r)

/-- Multiply by C1, rotate 15, multiply by C2 (R162). -/
@[irreducible] def mix32 (k : Nat) : Nat := rotl 32 (k * 0xcc9e2d51 % 2 ^ 32) 15 * 0x1b873593 % 2 ^ 32

/-- One block of the 32-bit body (R162). -/
@[irreducible] def round32 (h k : Nat) : Nat := (rotl 32 (h ^^^ mix32 k) 13 * 5 + 0xe6546b64) % 2 ^ 32

/-- Body and tail over a list with `n` blocks left (R162, R163). -/
def absorb32 (h : Nat) (l : List Nat) : Nat → Nat
  | 0 => if l = [] then h else h ^^^ mix32 (leValue l)
  | n + 1 => absorb32 (round32 h (leValue (l.take 4))) (l.drop 4) n

/-- `x ^ (x >> r)` (R165, R196). -/
def xorShift (x r : Nat) : Nat := x ^^^ x / 2 ^ r

/-- `fmix32` (R165). -/
@[irreducible] def fmix32 (h : Nat) : Nat :=
  xorShift (xorShift (xorShift h 16 * 0x85ebca6b % 2 ^ 32) 13 * 0xc2b2ae35 % 2 ^ 32) 16

/-- MurmurHash3 `x86_32` of a list of bytes (R162 to R165). -/
def murmur32 (l : List Nat) (seed : Nat) : Nat := fmix32 (absorb32 seed l (l.length / 4) ^^^ l.length)

/-- What the 128-bit body and tail do to `k1` (R193, R194). -/
@[irreducible] def mix64a (k : Nat) : Nat := rotl 64 (k * 0x87c37b91114253d5 % 2 ^ 64) 31 * 0x4cf5ad432745937f % 2 ^ 64

/-- What the 128-bit body and tail do to `k2` (R193, R194). -/
@[irreducible] def mix64b (k : Nat) : Nat := rotl 64 (k * 0x4cf5ad432745937f % 2 ^ 64) 33 * 0x87c37b91114253d5 % 2 ^ 64

/-- One block of the 128-bit body (R193). -/
@[irreducible] def round128 (h : Nat × Nat) (k1 k2 : Nat) : Nat × Nat :=
  let h1 := ((rotl 64 (h.1 ^^^ mix64a k1) 27 + h.2) % 2 ^ 64 * 5 + 0x52dce729) % 2 ^ 64
  let h2 := ((rotl 64 (h.2 ^^^ mix64b k2) 31 + h1) % 2 ^ 64 * 5 + 0x38495ab5) % 2 ^ 64
  (h1, h2)

/-- Body and tail over a list with `n` blocks left (R193, R194). -/
def absorb128 (h : Nat × Nat) (l : List Nat) : Nat → Nat × Nat
  | 0 =>
    (if l = [] then h.1 else h.1 ^^^ mix64a (leValue (l.take 8)),
     if l.length ≤ 8 then h.2 else h.2 ^^^ mix64b (leValue (l.drop 8)))
  | n + 1 => absorb128 (round128 h (leValue (l.take 8)) (leValue ((l.drop 8).take 8))) (l.drop 16) n

/-- `fmix64` (R196). -/
@[irreducible] def fmix64 (k : Nat) : Nat :=
  xorShift (xorShift (xorShift k 33 * 0xff51afd7ed558ccd % 2 ^ 64) 33 * 0xc4ceb9fe1a85ec53 % 2 ^ 64) 33

/-- The cross-mix (R195). -/
@[irreducible] def cross (h : Nat × Nat) : Nat × Nat :=
  ((h.1 + h.2) % 2 ^ 64, (h.2 + (h.1 + h.2) % 2 ^ 64) % 2 ^ 64)

/-- The finalization (R195). -/
@[irreducible] def finish128 (h : Nat × Nat) (len : Nat) : Nat × Nat :=
  let g := cross (h.1 ^^^ len, h.2 ^^^ len)
  cross (fmix64 g.1, fmix64 g.2)

/-- MurmurHash3 `x64_128` of a list of bytes (R192 to R196). -/
def murmur128 (l : List Nat) (seed : Nat) : Nat × Nat :=
  finish128 (absorb128 (seed, seed) l (l.length / 16)) l.length

/-! ### HyperLogLog (44_hll.md) -/

/-- `clz64` (R12). -/
def clz (y : Nat) : Nat := if y = 0 then 64 else 63 - Nat.log2 y

/-- `v` of PUT (R241). -/
def rank (p w x : Nat) : Nat := (clz (x * 2 ^ p % 2 ^ 64) + 1) % 2 ^ w

/-- `rho` (R243): 65 if the low `64 - p` bits are zero, else the place of their leftmost set bit, counted from 1. -/
def rho (p x : Nat) : Nat :=
  if x % 2 ^ (64 - p) = 0 then 65 else 64 - p - Nat.log2 (x % 2 ^ (64 - p))

/-- `Z` (R249). -/
def zSum (s : State) : ℚ := ∑ i ∈ Finset.range s.m, (1 / 2 : ℚ) ^ s.get i

/-- `V` (R249). -/
def zeros (s : State) : Nat := ((Finset.range s.m).filter (fun i => s.get i = 0)).card

/-- `alpha(m)` (R251). -/
def alphaOf (s : State) : ℚ :=
  if s.p = 4 then 673 / 1000
  else if s.p = 5 then 697 / 1000
  else if s.p = 6 then s.params.alpha64
  else (7213 / 10000) / (1 + (1079 / 1000) / s.m)

/-- `E` (R250). -/
def estimateE (s : State) : ℚ := alphaOf s * s.m ^ 2 / zSum s

/-- `F` is the real number that R252 gives the array. -/
def IsEstimate (s : State) (f : ℝ) : Prop :=
  (estimateE s ≤ 5 / 2 * s.m ∧ 0 < zeros s ∧ f = s.m * Real.log (s.m / zeros s)) ∨
  (estimateE s ≤ 5 / 2 * s.m ∧ zeros s = 0 ∧ f = (estimateE s : ℝ)) ∨
  (5 / 2 * (s.m : ℚ) < estimateE s ∧ estimateE s ≤ 2 ^ 32 / 30 ∧ f = (estimateE s : ℝ)) ∨
  (5 / 2 * (s.m : ℚ) < estimateE s ∧ 2 ^ 32 / 30 < estimateE s ∧ estimateE s < 2 ^ 32 ∧
    f = -2 ^ 32 * Real.log (1 - (estimateE s : ℝ) / 2 ^ 32))

/-- `n` is `floor(f + 1/2)` (R253), or, where `f` is within 2^-100 of a half-integer, one of the two neighbours (U6). -/
def IsRounded (n : Nat) (f : ℝ) : Prop :=
  |(n : ℝ) - f| ≤ 1 / 2 + 1 / 2 ^ 100 ∧
  ((∀ k : ℤ, 1 / 2 ^ 100 < |f - (k + 1 / 2)|) → (n : ℝ) ≤ f + 1 / 2 ∧ f + 1 / 2 < n + 1)

/-- The two branches of R252 in which `F = E` and no logarithm is taken. -/
def NoLogarithm (s : State) : Prop :=
  (estimateE s ≤ 5 / 2 * s.m ∧ zeros s = 0) ∨ (5 / 2 * (s.m : ℚ) < estimateE s ∧ estimateE s ≤ 2 ^ 32 / 30)

/-- Where ALPHA64 is used (R251), its denominator is at most 2^64: the source's 679/1000 is such a value, and so is 709/1000. -/
def SmallAlpha (s : State) : Prop := s.p = 6 → s.params.alpha64.den ≤ 2 ^ 64

/-- Where ALPHA64 is used (R251), it is at most 5/2, so that an empty array is in the small range (R252). -/
def LinearAlpha (s : State) : Prop := s.p = 6 → s.params.alpha64 ≤ 5 / 2

/-- A sequence of PUTs, each with its source and the hash that stands in that source when it is issued. -/
def putSequence (l : List (HashSource × U64)) (s : State) : Host.Outcome State Fault Refusal :=
  match l with
  | [] => .next s
  | (src, x) :: rest =>
    let u := match src with
      | .a0 => { s with a0 := x }
      | .res0 => { s with res0 := x }
    match exec (.put src) u with
    | .next t => putSequence rest t
    | .fault f => .fault f
    | .refused r => .refused r

/-- Somewhere in a run of `l` from `s` a write to CMD executes a command that fails. -/
def CommandFails (l : List HostAction) (s : State) : Prop :=
  ∃ (before after : List HostAction) (v : U64) (u t : State), l = before ++ .writeReg 0 v :: after ∧
    Actions.run before s = .next u ∧ act (.writeReg 0 v) u = .next t ∧ t.status.err ≠ 0

/-- One insertion by the host (30_encoding.md R99): a hash of its own, the bytes of a range of MSG, or what RES0 holds. -/
inductive Insertion where
  | hash (x : U64)
  | bytes (off len : U64)
  | res0
  deriving DecidableEq, Repr

/-- The host actions of an insertion (R98, R99). -/
def Insertion.actions : Insertion → List HostAction
  | .hash x => Actions.putHash x
  | .bytes off len => Actions.putBytes off len
  | .res0 => [Actions.cmd (.put .res0)]

/-! ### Errors (60_exceptions.md) -/

/-- The matrix of R282. -/
def raisable : Instr → List ErrorCode
  | .config => [.invalidArgument]
  | .rget => [.indexOutOfRange, .notConfigured]
  | .rset => [.valueOverflow, .indexOutOfRange, .notConfigured]
  | .rclr => [.notConfigured]
  | .rawrd => [.notConfigured, .addressRange]
  | .rawwr => [.valueOverflow, .notConfigured, .addressRange]
  | .rmax => [.valueOverflow, .indexOutOfRange, .notConfigured]
  | .h32 => [.addressRange]
  | .h128 => [.addressRange]
  | .h32w1 => []
  | .h32w2 => []
  | .h64w1 => []
  | .h64w2 => []
  | .put _ => [.notConfigured]
  | .est => [.notConfigured, .estRange]
  | .relerr => [.notConfigured]

/-- The numbers of R281. -/
def errorNumber : ErrorCode → BitVec 4
  | .invalidArgument => 1
  | .valueOverflow => 2
  | .corruptData => 3
  | .indexOutOfRange => 4
  | .illegalCommand => 5
  | .notConfigured => 6
  | .addressRange => 7
  | .estRange => 8

/-- Commands that need a configured array (R120, R240). -/
def needsArray : Instr → Bool
  | .rget | .rset | .rclr | .rawrd | .rawwr | .rmax | .put _ | .est | .relerr => true
  | _ => false

end Sys2Proof.Spec

open Sys2Proof Sys2Proof.Machine Sys2Proof.Spec

/-! ## Encoding and execution of command words -/

/-- R91 to R93: a word decodes to an instruction exactly when it is that instruction's encoding. -/
def Obligations.DecodeInvertsEncodeBothWays : Prop :=
  ∀ (c : U32) (i : Instr), decode c = .ok i ↔ c = encode i

/-- R93: a word is a command exactly when `c & mask = match`, the match being OPC with SRC = 0. -/
def Obligations.CommandIsItsMatchUnderItsMask : Prop :=
  ∀ (c : U32) (i : Instr),
    (∃ j, decode c = .ok j ∧ opcodeOf j = opcodeOf i) ↔ c &&& maskOf i = BitVec.ofNat 32 (opcodeOf i)

/-- R92, R97: the host's write of a word to CMD is an error exactly for the words R92 calls ILLEGAL, and otherwise runs the
command that OPC and SRC name. -/
def Obligations.CommandWordsRunAsDecodedOrFailAsIllegal : Prop :=
  ∀ (s : State) (v : U64) (rest : List HostAction), s.pending = .writeReg 0 v :: rest →
    (illegalWord (v.toNat % 2 ^ 32) →
      step s = .next { s with pending := rest, status := { err := 5, esticky := true } }) ∧
    (¬ illegalWord (v.toNat % 2 ^ 32) →
      ∃ i, opcodeOf i = v.toNat % 256 ∧ srcOf i = v.toNat / 256 % 2 ∧ step s = exec i { s with pending := rest })

/-- Words written out from R91 and R93 decode to the instructions they stand for. -/
def Obligations.WordsWrittenOutFromTheTableDecode : Prop :=
  decode 0b00000000000000000000000_0_00010000 = .ok .config ∧
  decode 0b00000000000000000000000_0_00010101 = .ok .rawwr ∧
  decode 0b00000000000000000000000_0_00100000 = .ok .h32 ∧
  decode 0b00000000000000000000000_0_00100001 = .ok .h128 ∧
  decode 0b00000000000000000000000_0_00100101 = .ok .h64w2 ∧
  decode 0b00000000000000000000000_0_00110000 = .ok (.put .a0) ∧
  decode 0b00000000000000000000000_1_00110000 = .ok (.put .res0) ∧
  decode 0b00000000000000000000000_0_00110001 = .ok .est

/-- R28: a host write of `v` to CMD executes the command that `v[31:0]` encodes as one step, an illegal word included, and CMD
reads 0. -/
def Obligations.StepRunsTheDecodedCommand : Prop :=
  ∀ (s : State) (rest : List HostAction),
    (∀ (v : U64) (i : Instr), s.pending = .writeReg 0 v :: rest → decode (v.setWidth 32) = .ok i →
      step s = exec i { s with pending := rest }) ∧
    (∀ (v : U64) (r : DecodeReject), s.pending = .writeReg 0 v :: rest → decode (v.setWidth 32) = .error r →
      step s = .next { s with pending := rest, status := { err := 5, esticky := true } }) ∧
    (s.pending = .readReg 0 :: rest →
      step s = .next { s with pending := rest, replies := s.replies ++ [.reg 0 0] })

/-- R26, R315: with no action left the block is idle. The empty list of actions is the model's own (assumptions 4, 6). -/
def Obligations.IdleHostLeavesTheBlockAsItIs : Prop :=
  ∀ s : State, s.pending = [] → step s = .next s

/-- R74, R315: a run takes the host's actions one at a time in the order listed. That the list stands in State is the model's
own (assumption 4). -/
def Obligations.RunTakesTheListedActionsInOrder : Prop :=
  ∀ (l rest : List HostAction) (s : State), s.pending = l ++ rest →
    Host.Core.run core l.length s = Actions.run l { s with pending := rest }

/-- R315: a run has gone wrong exactly when ESTICKY is 1 at its end and its list holds no write of 1 to STATUS bit 8. A run that
starts with ESTICKY = 0 and has gone wrong holds a command that failed; without a host clear and without Reset, one that holds a
failing command has gone wrong. That Reset is no host clear is the model's reading (assumption 19). -/
def Obligations.RunHasGoneWrongWhenACommandFailed : Prop :=
  (∀ (l : List HostAction) (t : State), Actions.goneWrong l t = true ↔
    t.status.esticky = true ∧ ∀ v : U64, .writeReg 1 v ∈ l → v.toNat / 2 ^ 8 % 2 = 0) ∧
  ∀ (l : List HostAction) (s t : State), Actions.startsClear s = true → Actions.run l s = .next t →
    (Actions.goneWrong l t = true → CommandFails l s) ∧
    (CommandFails l s → .reset ∉ l → (∀ v : U64, .writeReg 1 v ∈ l → v.toNat / 2 ^ 8 % 2 = 0) →
      Actions.goneWrong l t = true)

/-! ## Host actions and registers -/

/-- R25, R29, R30, R32, R33, R34, R71: what a host read of each register number returns, and that the block does not change. -/
def Obligations.HostReadsReturnTheRegisterMap : Prop :=
  ∀ (s : State) (n : Nat) (rest : List HostAction), s.params.wf = true → s.pending = .readReg n :: rest →
    ∃ v : U64, step s = .next { s with pending := rest, replies := s.replies ++ [.reg n v] } ∧
      (n = 0 → v = 0) ∧
      (n = 1 → v.toNat = s.status.err.toNat + 2 ^ 8 * s.status.esticky.toNat) ∧
      (n = 2 → v.toNat = s.cfg.w.toNat + 2 ^ 8 * s.cfg.p.toNat + 2 ^ 31 * s.cfg.valid.toNat) ∧
      (n = 3 → v.toNat = s.seed.toNat) ∧
      (n = 4 → v = s.a0) ∧
      (n = 5 → v = s.a1) ∧
      (n = 6 → v = s.res0) ∧
      (n = 7 → v = s.res1) ∧
      (n = 8 → v.toNat = s.params.pMax + 2 ^ 32 * s.params.msgSize) ∧
      (8 < n → v = 0)

/-- R25, R29, R31, R33: what a host write to each writable register other than CMD changes, and that nothing else changes. -/
def Obligations.HostWritesStoreInTheRegisterMap : Prop :=
  ∀ (s : State) (n : Nat) (v : U64) (rest : List HostAction), s.pending = .writeReg n v :: rest →
    (n = 3 → ∃ x : U32, x.toNat = v.toNat % 2 ^ 32 ∧ step s = .next { s with pending := rest, seed := x }) ∧
    (n = 4 → step s = .next { s with pending := rest, a0 := v }) ∧
    (n = 5 → step s = .next { s with pending := rest, a1 := v }) ∧
    (n = 1 → v.toNat / 2 ^ 8 % 2 = 1 →
      step s = .next { s with pending := rest, status := { err := s.status.err, esticky := false } }) ∧
    (n = 1 → v.toNat / 2 ^ 8 % 2 = 0 → step s = .next { s with pending := rest })

/-- R34: writes to read-only registers and to numbers above 8 change nothing, and reads above 8 return 0; STATUS is not touched. -/
def Obligations.ReadOnlyAndAbsentRegistersIgnoreTheHost : Prop :=
  ∀ (s : State) (n : Nat) (rest : List HostAction),
    (∀ v : U64, (n = 2 ∨ n = 6 ∨ n = 7 ∨ n = 8 ∨ 8 < n) → s.pending = .writeReg n v :: rest →
      step s = .next { s with pending := rest }) ∧
    (8 < n → s.pending = .readReg n :: rest →
      step s = .next { s with pending := rest, replies := s.replies ++ [.reg n 0] })

/-- R35: the host's accesses to MSG. -/
def Obligations.HostReachesEveryByteOfMsg : Prop :=
  ∀ (s : State) (a : Nat) (b : Byte) (rest : List HostAction),
    (s.pending = .writeMsg a b :: rest → a < s.params.msgSize →
      ∃ t, step s = .next t ∧ t = { s with pending := rest, msg := t.msg } ∧ t.msgByte a = b ∧
        ∀ x, x ≠ a → t.msgByte x = s.msgByte x) ∧
    (s.pending = .writeMsg a b :: rest → s.params.msgSize ≤ a → step s = .next { s with pending := rest }) ∧
    (s.pending = .readMsg a :: rest → a < s.params.msgSize →
      step s = .next { s with pending := rest, replies := s.replies ++ [.msg a (s.msgByte a)] }) ∧
    (s.pending = .readMsg a :: rest → s.params.msgSize ≤ a →
      step s = .next { s with pending := rest, replies := s.replies ++ [.msg a 0] })

/-- R40, R310: the state after the host's Reset. That the host's side stays and that MSG takes free values of the next reset is the
model's own (assumptions 1, 2, 17). -/
def Obligations.ResetPutsTheBlockInTheResetState : Prop :=
  ∀ (s : State) (rest : List HostAction), s.pending = .reset :: rest →
    ∃ t, step s = .next t ∧ t.a0 = 0 ∧ t.a1 = 0 ∧ t.res0 = 0 ∧ t.res1 = 0 ∧
      t.status = { err := 0, esticky := false } ∧ t.cfg = { p := 0, w := 0, valid := false } ∧ t.seed = 0 ∧
      t.params = s.params ∧ t.pending = rest ∧ t.replies = s.replies ∧
      ∀ a, t.msgByte a = Config.msgFree (s.epoch + 1) a

/-- R310: Reset is the only way CFG.VALID returns to 0. -/
def Obligations.OnlyResetUnconfiguresTheBlock : Prop :=
  ∀ s t : State, step s = .next t → s.cfg.valid = true → t.cfg.valid = false →
    ∃ rest, s.pending = .reset :: rest

/-- R29, R287, R310: ESTICKY is cleared only by a host write of 1 to STATUS bit 8 or by Reset. -/
def Obligations.OnlyTheHostClearsEsticky : Prop :=
  ∀ s t : State, step s = .next t → s.status.esticky = true → t.status.esticky = false →
    (∃ rest, s.pending = .reset :: rest) ∨
    (∃ v rest, s.pending = .writeReg 1 v :: rest ∧ v.toNat / 2 ^ 8 % 2 = 1)

/-- R32: CAP is a read-only constant, Reset included; CAP[4:0] is P_MAX, CAP[31:5] is 0 and CAP[63:32] is MSG_SIZE. -/
def Obligations.CapIsAConstantThatShowsTheSizes : Prop :=
  ∀ s t : State, s.params.wf = true → step s = .next t →
    t.readReg 8 = s.readReg 8 ∧ t.params = s.params ∧
    (s.readReg 8).toNat % 2 ^ 5 = s.params.pMax ∧
    (s.readReg 8).toNat / 2 ^ 5 % 2 ^ 27 = 0 ∧
    (s.readReg 8).toNat / 2 ^ 32 = s.params.msgSize

/-- R33, R35, R63, R72: what bus reads of the register window, the reserved range and the MSG window return, and which host actions
bus writes stand for. -/
def Obligations.BusWindowsAreThoseOfTheMap : Prop :=
  ∀ s : State,
    (∀ n, n ≤ 8 → Bus.read s (s.params.base + 8 * n) 8 = some (s.readReg n).toNat) ∧
    (∀ n v, n ≤ 8 → Bus.write s.params (s.params.base + 8 * n) 8 v = some [.writeReg n (BitVec.ofNat 64 v)]) ∧
    (∀ off, 0x48 ≤ off → off < 0x1000 →
      Bus.read s (s.params.base + off) 1 = some 0 ∧ ∀ v, Bus.write s.params (s.params.base + off) 1 v = some []) ∧
    (∀ a, a < s.params.msgSize →
      Bus.read s (s.params.base + 0x1000 + a) 1 = some (s.msgByte a).toNat ∧
      ∀ v, Bus.write s.params (s.params.base + 0x1000 + a) 1 v = some [.writeMsg a (BitVec.ofNat 8 v)]) ∧
    (∀ a, a + 1 < s.params.msgSize →
      Bus.read s (s.params.base + 0x1000 + a) 2 = some ((s.msgByte a).toNat + 256 * (s.msgByte (a + 1)).toNat)) ∧
    (∀ addr, addr < s.params.base ∨ s.params.base + 0x1000 + s.params.msgSize ≤ addr → Bus.read s addr 1 = none)

/-! ## Rules over all commands -/

/-- R13, R280, R287, R313: every command completes, from every state, and so does every host action. -/
def Obligations.EveryCommandAndEveryActionCompletes : Prop :=
  (∀ (i : Instr) (s : State), ∃ t, exec i s = .next t) ∧ ∀ s : State, ∃ t, step s = .next t

/-- R284: a failing command writes its code to STATUS.ERR, sets ESTICKY and changes nothing else. -/
def Obligations.FailingCommandChangesStatusOnly : Prop :=
  (∀ (i : Instr) (s t : State), exec i s = .next t → t.status.err ≠ 0 →
    ∃ e ∈ raisable i, t = { s with status := { err := errorNumber e, esticky := true } }) ∧
  ∀ (c : U32) (r : DecodeReject) (s : State), decode c = .error r →
    runCommand c s = .next { s with status := { err := errorNumber .illegalCommand, esticky := true } }

/-- R285: a successful command clears ERR and keeps ESTICKY; a failing one sets ESTICKY, so ERR is that of the last command. -/
def Obligations.StatusReportsTheLastCommand : Prop :=
  ∀ (i : Instr) (s t : State), exec i s = .next t →
    t.status = okStatus s ∨ ∃ e ∈ raisable i, t.status = { err := errorNumber e, esticky := true }

/-- R282: which command can raise which code, both ways; an illegal word raises code 5 only. -/
def Obligations.RaisableErrorsAreThoseOfTheMatrix : Prop :=
  (∀ (i : Instr) (e : ErrorCode),
    e ∈ raisable i ↔ ∃ s t : State, s.Inv ∧ exec i s = .next t ∧ t.status = { err := errorNumber e, esticky := true }) ∧
  ∀ (c : U32) (r : DecodeReject) (s : State), decode c = .error r →
    runCommand c s = .next { s with status := { err := 5, esticky := true } }

/-- R286: the first error in the order ILLEGAL_COMMAND, NOT_CONFIGURED, address, index or CONFIG's checks, VALUE_OVERFLOW, EST_RANGE
is the one reported. -/
def Obligations.ErrorsAreCheckedInTheOrderOfThePriorities : Prop :=
  ∀ s : State, s.Inv →
    (∀ (c : U32) (r : DecodeReject), decode c = .error r →
      runCommand c s = .next { s with status := { err := 5, esticky := true } }) ∧
    (∀ i, needsArray i = true → s.cfg.valid = false → Fails i s 6) ∧
    (∀ i ∈ [Instr.rget, .rset, .rmax], s.cfg.valid = true → 2 ^ s.p ≤ s.a0.toNat → Fails i s 4) ∧
    (∀ i ∈ [Instr.rawrd, .rawwr], s.cfg.valid = true → 2 ^ s.p * s.w / 8 ≤ s.a0.toNat → Fails i s 7) ∧
    (∀ i ∈ [Instr.rset, .rmax], s.cfg.valid = true → s.a0.toNat < 2 ^ s.p → 2 ^ s.w ≤ s.a1.toNat → Fails i s 2) ∧
    (s.cfg.valid = true → s.a0.toNat < 2 ^ s.p * s.w / 8 → 256 ≤ s.a1.toNat → Fails .rawwr s 2) ∧
    (∀ i ∈ [Instr.h32, .h128], s.params.msgSize < s.a0.toNat + s.a1.toNat → Fails i s 7) ∧
    (s.a0.toNat < 4 ∨ 31 < s.a0.toNat ∨ s.params.pMax < s.a0.toNat ∨ s.a1.toNat < 1 ∨ 8 < s.a1.toNat →
      Fails .config s 1) ∧
    (s.cfg.valid = true → 5 / 2 * (s.m : ℚ) < estimateE s → 2 ^ 32 ≤ estimateE s → Fails .est s 8)

/-- R21, R31, R32, R35: no command writes A0, A1, SEED, CAP or MSG, nor (the model's own) the host's side. -/
def Obligations.NoCommandWritesOperandsSeedOrMessage : Prop :=
  ∀ (i : Instr) (s t : State), exec i s = .next t →
    t.a0 = s.a0 ∧ t.a1 = s.a1 ∧ t.seed = s.seed ∧ t.params = s.params ∧ t.msg = s.msg ∧ t.epoch = s.epoch ∧
    t.pending = s.pending ∧ t.replies = s.replies

/-- R22, R23: RES1 is written by H128 only, and RES0 by the commands with a result only. -/
def Obligations.ResultRegistersAreWrittenByTheirCommandsOnly : Prop :=
  ∀ (i : Instr) (s t : State), exec i s = .next t →
    (i ≠ .h128 → t.res1 = s.res1) ∧
    (i ∉ [Instr.rget, .rawrd, .h32, .h128, .h32w1, .h32w2, .h64w1, .h64w2, .est, .relerr] → t.res0 = s.res0)

/-- R23, R30, R36: CFG is written by CONFIG only, and RAW by its writers only. -/
def Obligations.ConfigurationAndArrayAreWrittenByTheirCommandsOnly : Prop :=
  ∀ (i : Instr) (s t : State), exec i s = .next t →
    (i ≠ .config → t.cfg = s.cfg) ∧
    (i ∉ [Instr.config, .rset, .rclr, .rawwr, .rmax, .put .a0, .put .res0] →
      t.raw = s.raw ∧ ∀ a, t.rawByte a = s.rawByte a)

/-- R27: no command's result depends on STATUS. -/
def Obligations.NoCommandDependsOnStatus : Prop :=
  ∀ (i : Instr) (s t : State) (st : Status), exec i s = .next t →
    exec i { s with status := st } =
      .next { t with status := { err := t.status.err, esticky := if t.status.err = 0 then st.esticky else true } }

/-- R39 and the canonical form of the memories hold after every step from a state where they hold. -/
def Obligations.EveryStepKeepsTheInvariant : Prop :=
  ∀ s t : State, s.Inv → step s = .next t → t.Inv

/-- The invariant holds after reset, for every choice of the parameters in their ranges. -/
def Obligations.TheInvariantHoldsAfterReset : Prop :=
  ∀ c : Config.Params, c.wf = true → (State.resetWith c).Inv

/-! ## Packed register array -/

/-- R67, R39: register `i` is the `w` bits from string position `i * w`, the first the most significant, so it is below `2^w`; fields
are contiguous and end with the live bytes. -/
def Obligations.RegisterIsItsBitsOfTheBitString : Prop :=
  ∀ (s : State) (i : Nat), s.Ready → i < s.m →
    s.get i = bitsValue s (i * s.w) s.w ∧ s.get i < 2 ^ s.w ∧ i * s.w + s.w ≤ 8 * s.nbytes ∧
    8 * s.nbytes = s.m * s.w

/-- R121, R122: CONFIG. -/
def Obligations.ConfigConstructsAZeroedArray : Prop :=
  decode 0x00000010 = .ok .config ∧
  ∀ s : State,
    (4 ≤ s.a0.toNat ∧ s.a0.toNat ≤ 31 ∧ s.a0.toNat ≤ s.params.pMax ∧ 1 ≤ s.a1.toNat ∧ s.a1.toNat ≤ 8 →
      ∃ t, exec .config s = .next t ∧ t = { s with cfg := t.cfg, raw := t.raw, status := okStatus s } ∧
        t.cfg.valid = true ∧ t.cfg.p.toNat = s.a0.toNat ∧ t.cfg.w.toNat = s.a1.toNat ∧
        ∀ a, a < 2 ^ (s.a0.toNat - 3) * s.a1.toNat → t.rawByte a = 0) ∧
    (¬ (4 ≤ s.a0.toNat ∧ s.a0.toNat ≤ 31 ∧ s.a0.toNat ≤ s.params.pMax ∧ 1 ≤ s.a1.toNat ∧ s.a1.toNat ≤ 8) →
      Fails .config s 1)

/-- R126: RGET. -/
def Obligations.RgetReturnsTheRegister : Prop :=
  decode 0x00000011 = .ok .rget ∧
  ∀ s : State, s.Inv →
    (s.cfg.valid = false → Fails .rget s 6) ∧
    (s.cfg.valid = true → s.m ≤ s.a0.toNat → Fails .rget s 4) ∧
    (s.cfg.valid = true → s.a0.toNat < s.m →
      exec .rget s =
        .next { s with res0 := BitVec.ofNat 64 (bitsValue s (s.a0.toNat * s.w) s.w), status := okStatus s })

/-- R130, R66: RSET. -/
def Obligations.RsetStoresExactlyOneRegister : Prop :=
  decode 0x00000012 = .ok .rset ∧
  ∀ s : State, s.Inv →
    (s.cfg.valid = false → Fails .rset s 6) ∧
    (s.cfg.valid = true → s.m ≤ s.a0.toNat → Fails .rset s 4) ∧
    (s.cfg.valid = true → s.a0.toNat < s.m → 2 ^ s.w ≤ s.a1.toNat → Fails .rset s 2) ∧
    (s.cfg.valid = true → s.a0.toNat < s.m → s.a1.toNat < 2 ^ s.w →
      ∃ t, exec .rset s = .next t ∧ t = { s with raw := t.raw, status := okStatus s } ∧
        t.get s.a0.toNat = s.a1.toNat ∧ OnlyRegisterChanges s t s.a0.toNat)

/-- R150: RSET and then RGET returns the value, and RGET of every other register what it returned before. -/
def Obligations.RsetThenRgetReturnsTheValueAndKeepsTheOthers : Prop :=
  ∀ (s : State) (i j v : U64), s.Ready → i.toNat < s.m → j.toNat < s.m → v.toNat < 2 ^ s.w →
    ∃ t u r r', exec .rset { s with a0 := i, a1 := v } = .next t ∧ exec .rget t = .next u ∧ u.res0 = v ∧
      exec .rget { t with a0 := j } = .next r ∧ exec .rget { s with a0 := j } = .next r' ∧
      (j ≠ i → r.res0 = r'.res0)

/-- R135: RCLR. -/
def Obligations.RclrZeroesTheArray : Prop :=
  decode 0x00000013 = .ok .rclr ∧
  ∀ s : State, s.Inv →
    (s.cfg.valid = false → Fails .rclr s 6) ∧
    (s.cfg.valid = true →
      ∃ t, exec .rclr s = .next t ∧ t = { s with raw := t.raw, status := okStatus s } ∧
        ∀ a, a < 2 ^ s.p * s.w / 8 → t.rawByte a = 0)

/-- R138: RAWRD. -/
def Obligations.RawrdReadsOneByte : Prop :=
  decode 0x00000014 = .ok .rawrd ∧
  ∀ s : State, s.Inv →
    (s.cfg.valid = false → Fails .rawrd s 6) ∧
    (s.cfg.valid = true → 2 ^ s.p * s.w / 8 ≤ s.a0.toNat → Fails .rawrd s 7) ∧
    (s.cfg.valid = true → s.a0.toNat < 2 ^ s.p * s.w / 8 →
      exec .rawrd s =
        .next { s with res0 := BitVec.ofNat 64 (s.rawByte s.a0.toNat).toNat, status := okStatus s })

/-- R141: RAWWR. -/
def Obligations.RawwrWritesOneByte : Prop :=
  decode 0x00000015 = .ok .rawwr ∧
  ∀ s : State, s.Inv →
    (s.cfg.valid = false → Fails .rawwr s 6) ∧
    (s.cfg.valid = true → 2 ^ s.p * s.w / 8 ≤ s.a0.toNat → Fails .rawwr s 7) ∧
    (s.cfg.valid = true → s.a0.toNat < 2 ^ s.p * s.w / 8 → 256 ≤ s.a1.toNat → Fails .rawwr s 2) ∧
    (s.cfg.valid = true → s.a0.toNat < 2 ^ s.p * s.w / 8 → s.a1.toNat < 256 →
      ∃ t, exec .rawwr s = .next t ∧ t = { s with raw := t.raw, status := okStatus s } ∧
        (t.rawByte s.a0.toNat).toNat = s.a1.toNat ∧ ∀ a, a ≠ s.a0.toNat → t.rawByte a = s.rawByte a)

/-- R146: RMAX. -/
def Obligations.RmaxStoresTheMaximum : Prop :=
  decode 0x00000016 = .ok .rmax ∧
  ∀ s : State, s.Inv →
    (s.cfg.valid = false → Fails .rmax s 6) ∧
    (s.cfg.valid = true → s.m ≤ s.a0.toNat → Fails .rmax s 4) ∧
    (s.cfg.valid = true → s.a0.toNat < s.m → 2 ^ s.w ≤ s.a1.toNat → Fails .rmax s 2) ∧
    (s.cfg.valid = true → s.a0.toNat < s.m → s.a1.toNat < 2 ^ s.w →
      ∃ t, exec .rmax s = .next t ∧ t = { s with raw := t.raw, status := okStatus s } ∧
        t.get s.a0.toNat = max (s.get s.a0.toNat) s.a1.toNat ∧ OnlyRegisterChanges s t s.a0.toNat ∧
        (s.a1.toNat ≤ s.get s.a0.toNat → t.raw = s.raw))

/-- R146: the same RMAX twice is the same as once, and two RMAX on one index give the same array in either order. -/
def Obligations.RmaxIsIdempotentAndCommutative : Prop :=
  (∀ s t : State, s.Inv → exec .rmax s = .next t → exec .rmax t = .next t) ∧
  ∀ (s : State) (x y : U64), s.Ready → s.a0.toNat < s.m → x.toNat < 2 ^ s.w → y.toNat < 2 ^ s.w →
    ∃ t1 t2 u1 u2, exec .rmax { s with a1 := x } = .next t1 ∧ exec .rmax { t1 with a1 := y } = .next t2 ∧
      exec .rmax { s with a1 := y } = .next u1 ∧ exec .rmax { u1 with a1 := x } = .next u2 ∧ t2.raw = u2.raw

/-! ## Hash engines -/

/-- R161 to R165: H32 is MurmurHash3 `x86_32` of the bytes of its range, written here on lists of natural numbers. Parts of the
algorithm the spec itself marks as general knowledge (G1; assumption 12). -/
def Obligations.H32IsMurmurOfTheMessageRange : Prop :=
  decode 0x00000020 = .ok .h32 ∧
  ∀ s : State, s.params.wf = true →
    (s.a0.toNat + s.a1.toNat ≤ s.params.msgSize →
      exec .h32 s =
        .next { s with res0 := BitVec.ofNat 64 (murmur32 (messageBytes s) s.seed.toNat), status := okStatus s } ∧
      murmur32 (messageBytes s) s.seed.toNat < 2 ^ 32) ∧
    (s.params.msgSize < s.a0.toNat + s.a1.toNat → Fails .h32 s 7)

/-- R191 to R196: H128 is MurmurHash3 `x64_128` of the bytes of its range, written here on lists of natural numbers. Parts of the
algorithm the spec itself marks as general knowledge (G2; assumption 12). -/
def Obligations.H128IsMurmurOfTheMessageRange : Prop :=
  decode 0x00000021 = .ok .h128 ∧
  ∀ s : State, s.params.wf = true →
    (s.a0.toNat + s.a1.toNat ≤ s.params.msgSize →
      exec .h128 s =
        .next { s with
          res0 := BitVec.ofNat 64 (murmur128 (messageBytes s) s.seed.toNat).1
          res1 := BitVec.ofNat 64 (murmur128 (messageBytes s) s.seed.toNat).2
          status := okStatus s }) ∧
    (s.params.msgSize < s.a0.toNat + s.a1.toNat → Fails .h128 s 7)

/-- R220, R221, R223: H32W1 and H32W2, by definition and in the closed forms that the spec derives itself. Parts of the algorithm
the spec itself marks as general knowledge (G1; assumption 12). -/
def Obligations.WordHashes32AreMurmurOfTheirLittleEndianBytes : Prop :=
  decode 0x00000022 = .ok .h32w1 ∧ decode 0x00000023 = .ok .h32w2 ∧
  ∀ s : State,
    (exec .h32w1 s =
      .next { s with res0 := BitVec.ofNat 64 (murmur32 (wordBytes s.a0) s.seed.toNat), status := okStatus s }) ∧
    (exec .h32w2 s =
      .next { s with res0 := BitVec.ofNat 64 (murmur32 (wordBytes s.a0 ++ wordBytes s.a1) s.seed.toNat),
                     status := okStatus s }) ∧
    (let r1 := round32 (round32 s.seed.toNat (s.a0.toNat % 2 ^ 32)) (s.a0.toNat / 2 ^ 32)
     let r2 := round32 (round32 r1 (s.a1.toNat % 2 ^ 32)) (s.a1.toNat / 2 ^ 32)
     murmur32 (wordBytes s.a0) s.seed.toNat = fmix32 (r1 ^^^ 8) ∧
     murmur32 (wordBytes s.a0 ++ wordBytes s.a1) s.seed.toNat = fmix32 (r2 ^^^ 16))

/-- R220, R225, R227: H64W1 and H64W2, by definition and in the closed forms that the spec derives itself. Parts of the algorithm
the spec itself marks as general knowledge (G2; assumption 12). -/
def Obligations.WordHashes64AreMurmurOfTheirLittleEndianBytes : Prop :=
  decode 0x00000024 = .ok .h64w1 ∧ decode 0x00000025 = .ok .h64w2 ∧
  ∀ s : State,
    (exec .h64w1 s =
      .next { s with res0 := BitVec.ofNat 64 (murmur128 (wordBytes s.a0) s.seed.toNat).1, status := okStatus s }) ∧
    (exec .h64w2 s =
      .next { s with res0 := BitVec.ofNat 64 (murmur128 (wordBytes s.a0 ++ wordBytes s.a1) s.seed.toNat).1,
                     status := okStatus s }) ∧
    (murmur128 (wordBytes s.a0) s.seed.toNat).1 =
      (finish128 (s.seed.toNat ^^^ mix64a s.a0.toNat, s.seed.toNat) 8).1 ∧
    (murmur128 (wordBytes s.a0 ++ wordBytes s.a1) s.seed.toNat).1 =
      (finish128 (round128 (s.seed.toNat, s.seed.toNat) s.a0.toNat s.a1.toNat) 16).1

/-- R229: hashing the little-endian bytes of the words in MSG gives RES0 what the word commands give; the big-endian values are not
produced. -/
def Obligations.HashingWordsInMsgEqualsTheWordHashes : Prop :=
  (∀ s : State, s.Inv →
    ∃ b1 b2 : List Byte, b1.map BitVec.toNat = wordBytes s.a0 ∧ b2.map BitVec.toNat = wordBytes s.a1 ∧
      (8 ≤ s.params.msgSize →
        (∃ t u, exec .h32w1 s = .next t ∧ Actions.run (Actions.msg 0 b1 ++ Actions.hash32 0 8) s = .next u ∧
          u.res0 = t.res0) ∧
        (∃ t u, exec .h64w1 s = .next t ∧ Actions.run (Actions.msg 0 b1 ++ Actions.hash64 0 8) s = .next u ∧
          u.res0 = t.res0)) ∧
      (16 ≤ s.params.msgSize →
        (∃ t u, exec .h32w2 s = .next t ∧ Actions.run (Actions.msg 0 (b1 ++ b2) ++ Actions.hash32 0 16) s = .next u ∧
          u.res0 = t.res0) ∧
        (∃ t u, exec .h64w2 s = .next t ∧ Actions.run (Actions.msg 0 (b1 ++ b2) ++ Actions.hash64 0 16) s = .next u ∧
          u.res0 = t.res0))) ∧
  ∀ s t u : State, s.a0 = 0x0123456789ABCDEF → s.seed = 0 → exec .h32w1 s = .next t → exec .h64w1 s = .next u →
    t.res0 ≠ 0x5364569A ∧ u.res0 ≠ 0x4DAA78BCE69699FC

/-- R38, R160, R190, R312: where the host has written the whole range, the hash depends on those bytes, the range and SEED alone,
not on the array, STATUS, earlier results or unwritten bytes. -/
def Obligations.HashDependsOnTheWrittenRangeAlone : Prop :=
  ∀ s t s1 t1 s2 t2 : State, s.hashInputWritten →
    t.a0 = s.a0 → t.a1 = s.a1 → t.seed = s.seed → t.params.msgSize = s.params.msgSize →
    (∀ a, s.a0.toNat ≤ a → a < s.a0.toNat + s.a1.toNat → Memory.get? t.msg a = Memory.get? s.msg a) →
    s.a0.toNat + s.a1.toNat ≤ s.params.msgSize →
    exec .h32 s = .next s1 → exec .h32 t = .next t1 → exec .h128 s = .next s2 → exec .h128 t = .next t2 →
    t1.res0 = s1.res0 ∧ t2.res0 = s2.res0 ∧ t2.res1 = s2.res1

/-- R161, R168, R191, R199: the spec's examples: the five bytes of "hello", and no byte at all, at the end of MSG too. -/
def Obligations.HashExamplesOfTheSpec : Prop :=
  ∀ s : State, s.params.wf = true →
    (s.seed = 0 → s.a0 = 0 → s.a1 = 5 → 5 ≤ s.params.msgSize → s.msgByte 0 = 0x68 → s.msgByte 1 = 0x65 →
      s.msgByte 2 = 0x6C → s.msgByte 3 = 0x6C → s.msgByte 4 = 0x6F →
      exec .h32 s = .next { s with res0 := 0x00000000248BFA47, status := okStatus s } ∧
      exec .h128 s =
        .next { s with res0 := 0xCBD8A7B341BD9B02, res1 := 0x5B1E906A48AE1D19, status := okStatus s }) ∧
    (s.a1 = 0 → s.a0.toNat ≤ s.params.msgSize → s.seed = 0 →
      exec .h32 s = .next { s with res0 := 0, status := okStatus s } ∧
      exec .h128 s = .next { s with res0 := 0, res1 := 0, status := okStatus s }) ∧
    (s.a1 = 0 → s.a0.toNat ≤ s.params.msgSize → s.seed = 1 →
      exec .h32 s = .next { s with res0 := 0x514E28B7, status := okStatus s }) ∧
    (s.a1 = 0 → s.a0.toNat ≤ s.params.msgSize → s.seed = 0xFFFFFFFF →
      exec .h128 s =
        .next { s with res0 := 0x6AF1DF4D9D3BC9EC, res1 := 0x857421121EE6446B, status := okStatus s })

/-! ## HyperLogLog datapath -/

/-- R241: PUT stores the masked rank in the register that the top `p` bits name, if it is greater. -/
def Obligations.PutStoresTheMaskedRank : Prop :=
  decode 0x00000030 = .ok (.put .a0) ∧ decode 0x00000130 = .ok (.put .res0) ∧
  ∀ (s : State) (src : HashSource), s.Inv →
    (s.cfg.valid = false → Fails (.put src) s 6) ∧
    (s.cfg.valid = true → ∀ x idx v : Nat,
      (src = .a0 → x = s.a0.toNat) → (src = .res0 → x = s.res0.toNat) →
      idx = x / 2 ^ (64 - s.p) → v = rank s.p s.w x →
      idx < s.m ∧
      ∃ t, exec (.put src) s = .next t ∧ t = { s with raw := t.raw, status := okStatus s } ∧
        t.get idx = max (s.get idx) v ∧ OnlyRegisterChanges s t idx ∧ (v ≤ s.get idx → t.raw = s.raw))

/-- R243, R244: what PUT stores in an empty register is the place of the leftmost set bit of the low `64 - p` bits, counted from 1,
or 65 where they are all zero, taken modulo `2^w`: it wraps and does not saturate. The spec marks both rules as derived. -/
def Obligations.PutRankIsThePlaceOfTheLeftmostSetBit : Prop :=
  ∀ (s : State) (x : U64), s.Ready → s.get (x.toNat / 2 ^ (64 - s.p)) = 0 →
    ∃ t, exec (.put .a0) { s with a0 := x } = .next t ∧
      t.get (x.toNat / 2 ^ (64 - s.p)) = rho s.p x.toNat % 2 ^ s.w ∧
      (rho s.p x.toNat = 65 ∨ 1 ≤ rho s.p x.toNat ∧ rho s.p x.toNat ≤ 64 - s.p) ∧
      (7 ≤ s.w → t.get (x.toNat / 2 ^ (64 - s.p)) = rho s.p x.toNat)

/-- R245: PUT takes the maximum in one register, so no register decreases, the same PUT twice is the same as once, and a sequence of
PUTs, from A0 and from RES0, gives the same array in every order. -/
def Obligations.PutIsAMonotonicMaximumInEveryOrder : Prop :=
  (∀ (s t : State) (src : HashSource), s.Ready → exec (.put src) s = .next t →
    exec (.put src) t = .next t ∧ (∀ i, i < s.m → s.get i ≤ t.get i) ∧
    ∃ x idx : Nat, (src = .a0 → x = s.a0.toNat) ∧ (src = .res0 → x = s.res0.toNat) ∧ idx = x / 2 ^ (64 - s.p) ∧
      t.get idx = max (s.get idx) (rank s.p s.w x) ∧ ∀ i, i < s.m → i ≠ idx → t.get i = s.get i) ∧
  ∀ (s : State) (l l' : List (HashSource × U64)), s.Ready → l.Perm l' →
    ∃ t t', putSequence l s = .next t ∧ putSequence l' s = .next t' ∧ t'.raw = t.raw ∧ t'.cfg = t.cfg ∧
      t.cfg = s.cfg ∧ t.status.esticky = s.status.esticky

/-- R245, R99: the same for the host's insertions as lists of actions: hashes of its own (PUT.A0) and ranges of MSG hashed by H128
(PUT.RES0) in every order, and hashes of its own with PUT.RES0 of what RES0 holds from the start. Both are not mixed, since a
range leaves its hash in RES0. -/
def Obligations.HostInsertionsGiveTheSameArrayInEveryOrder : Prop :=
  ∀ (s : State) (l l' : List Insertion), s.Ready → l.Perm l' →
    (∀ off len, .bytes off len ∈ l → off.toNat + len.toNat ≤ s.params.msgSize) →
    (.res0 ∉ l ∨ ∀ off len, .bytes off len ∉ l) →
    ∃ t t', Actions.run (l.flatMap Insertion.actions) s = .next t ∧
      Actions.run (l'.flatMap Insertion.actions) s = .next t' ∧ t'.raw = t.raw ∧ t'.cfg = t.cfg ∧
      t.cfg = s.cfg ∧ t.status.esticky = s.status.esticky

/-- R248 to R255: EST rounds the real number `F` of the true logarithm, or fails with EST_RANGE. Where no logarithm is taken the
result is exactly `floor(F + 1/2)`; where one is, so it is unless `F` is within 2^-100 of a half-integer, where the model allows
both neighbours (assumption 9). It holds for every ALPHA64 of the invariant; the result fits 64 bits unless ALPHA64 is used and has
a denominator above 2^64 (assumption 20). -/
def Obligations.EstReturnsTheRoundedEstimate : Prop :=
  decode 0x00000031 = .ok .est ∧
  ∀ s : State, s.Inv →
    (s.cfg.valid = false → Fails .est s 6) ∧
    (s.cfg.valid = true → ∀ f : ℝ, IsEstimate s f →
      ∃ (n : Nat) (v : U64), exec .est s = .next { s with res0 := v, status := okStatus s } ∧
        IsRounded n f ∧ (NoLogarithm s → (n : ℝ) ≤ f + 1 / 2 ∧ f + 1 / 2 < n + 1) ∧
        (n < 2 ^ 64 → v.toNat = n) ∧ (SmallAlpha s → n < 2 ^ 64)) ∧
    (s.cfg.valid = true → 5 / 2 * (s.m : ℚ) < estimateE s → 2 ^ 32 ≤ estimateE s → Fails .est s 8) ∧
    (s.cfg.valid = true → ¬ (5 / 2 * (s.m : ℚ) < estimateE s ∧ 2 ^ 32 ≤ estimateE s) → ∃ f, IsEstimate s f)

/-- R257, R254: an array of zeros estimates 0, for every `p` (with ALPHA64 at most 5/2 where `m = 64`), and so does the array after
RCLR. -/
def Obligations.EstOfAZeroArrayIsZero : Prop :=
  ∀ s : State, s.Ready → LinearAlpha s →
    ((∀ i, i < s.m → s.get i = 0) → exec .est s = .next { s with res0 := 0, status := okStatus s }) ∧
    ∀ t, exec .rclr s = .next t → exec .est t = .next { t with res0 := 0, status := okStatus t }

/-- R256: the result of EST is below 2^40, with the denominator of ALPHA64 at most 2^64 where `m = 64`. -/
def Obligations.EstResultIsBelowTwoToThe40 : Prop :=
  ∀ s t : State, s.Ready → SmallAlpha s → exec .est s = .next t → t.status.err = 0 → t.res0.toNat < 2 ^ 40

/-- R258, R259: RELERR, in the closed form of the table. -/
def Obligations.RelerrReturnsTheTableEntryOfP : Prop :=
  decode 0x00000032 = .ok .relerr ∧
  ∀ s : State, s.Inv →
    (s.cfg.valid = false → Fails .relerr s 6) ∧
    (s.cfg.valid = true → s.p % 2 = 0 →
      exec .relerr s =
        .next { s with res0 := BitVec.ofNat 64 (0x3FD0A3D70A3D70A4 - (s.p - 4) / 2 * 2 ^ 52), status := okStatus s }) ∧
    (s.cfg.valid = true → s.p % 2 = 1 →
      exec .relerr s =
        .next { s with res0 := BitVec.ofNat 64 (0x3FC78852D0FF33F3 - (s.p - 5) / 2 * 2 ^ 52), status := okStatus s })

/-- R258: RELERR's RES0 is a positive normal binary64 number, and no binary64 number is nearer to `1.04 / sqrt(2^p)`: the two differ
by at most half a unit in the last place, and the number is no power of 2. -/
def Obligations.RelerrIsTheNearestBinary64 : Prop :=
  decode 0x00000032 = .ok .relerr ∧
  ∀ s : State, s.Inv →
    (s.cfg.valid = false → Fails .relerr s 6) ∧
    (s.cfg.valid = true →
      ∃ t, exec .relerr s = .next t ∧ t = { s with res0 := t.res0, status := okStatus s } ∧
        let e : Nat := t.res0.toNat / 2 ^ 52
        let f : Nat := 2 ^ 52 + t.res0.toNat % 2 ^ 52
        1 ≤ e ∧ e < 2047 ∧ 2 ^ 52 < f ∧
        |(f : ℝ) * 2 ^ e / 2 ^ 1075 - 1.04 / Real.sqrt (2 ^ s.p)| ≤ 2 ^ e / 2 ^ 1076)

/-- R262: the host's union procedure takes the maximum in every register: RMAX of a list of register values where they fit the
width, and where they need a wider one, CONFIG of that width, RMAX of the values the array held, and RMAX of the list. -/
def Obligations.UnionByRmaxTakesTheMaximumOfEveryRegister : Prop :=
  ∀ (s : State) (bs : List U64), s.Ready → bs.length ≤ s.m →
    ((∀ b ∈ bs, b.toNat < 2 ^ s.w) →
      ∃ t, Actions.run (Actions.rmaxAll 0 bs) s = .next t ∧
        t = { s with a0 := t.a0, a1 := t.a1, raw := t.raw, status := t.status } ∧
        t.status.esticky = s.status.esticky ∧
        ∀ i, i < s.m → t.get i = max (s.get i) (bs.getD i 0).toNat) ∧
    ∀ wB : Nat, s.w < wB → wB ≤ 8 → (∀ b ∈ bs, b.toNat < 2 ^ wB) →
      ∃ t, Actions.run
          (Actions.widenedUnion (BitVec.ofNat 64 s.p) (BitVec.ofNat 64 wB)
            ((List.range s.m).map fun i => BitVec.ofNat 64 (s.get i)) bs) s = .next t ∧
        t = { s with a0 := t.a0, a1 := t.a1, raw := t.raw, status := t.status, cfg := t.cfg } ∧
        t.status.esticky = s.status.esticky ∧ t.cfg.valid = true ∧ t.p = s.p ∧ t.w = wB ∧
        ∀ i, i < s.m → t.get i = max (s.get i) (bs.getD i 0).toNat
end

