-- ==== Sys2Proof/Laws/Memory.lean ====
section
/-! SUPPORT. The laws of byte memories: read after write, canonical form kept, equal contents are equal data. -/

namespace Sys2Proof.Machine.Memory

theorem get?_insert (m : List Host.Cell) (a : Nat) (b : Byte) (x : Nat) :
    get? (insert a b m) x = if x = a then some b else get? m x := by
  induction m with
  | nil => simp [insert, get?]
  | cons c rest ih =>
    obtain ⟨k, c⟩ := c
    simp only [insert]
    split
    · simp only [get?]
    · split
      · subst_vars; simp only [get?]; split <;> rfl
      · simp only [get?, ih]
        split <;> split <;> first | rfl | omega

theorem get?_erase (m : List Host.Cell) (a x : Nat) :
    get? (erase a m) x = if x = a then none else get? m x := by
  induction m with
  | nil => simp [erase, get?]
  | cons c rest ih =>
    obtain ⟨k, c⟩ := c
    simp only [erase]
    split
    · subst_vars; simp only [get?, ih]; split <;> rfl
    · simp only [get?, ih]
      split <;> split <;> first | rfl | omega

/-- A written byte reads as written, unless it is the blank value, which is not listed; every other byte reads as before. -/
theorem get?_write (blank : Option Byte) (m : List Host.Cell) (a : Nat) (b : Byte) (x : Nat) :
    get? (write blank a b m) x =
      if x = a then (if some b = blank then none else some b) else get? m x := by
  unfold write
  split
  · rw [get?_erase]
  · rw [get?_insert]

theorem rawRead_rawWrite (m : List Host.Cell) (a : Nat) (b : Byte) (x : Nat) :
    rawRead (rawWrite m a b) x = if x = a then b else rawRead m x := by
  unfold rawRead rawWrite
  rw [get?_write]
  split
  · by_cases h : b = 0#8 <;> simp [rawBlank, h]
  · rfl

theorem rawRead_nil (x : Nat) : rawRead [] x = 0 := rfl

theorem msgRead_msgWrite (e : Nat) (m : List Host.Cell) (a : Nat) (b : Byte) (x : Nat) :
    msgRead e (msgWrite m a b) x = if x = a then b else msgRead e m x := by
  unfold msgRead msgWrite
  rw [get?_write]
  split
  · simp [msgBlank]
  · rfl

/-! ### Canonical form -/

theorem mem_insert {m : List Host.Cell} {a : Nat} {b : Byte} {c : Host.Cell} (h : c ∈ insert a b m) :
    c = (a, b) ∨ c ∈ m := by
  induction m with
  | nil => simpa [insert] using h
  | cons d rest ih =>
    simp only [insert] at h
    split at h
    · simpa using h
    · split at h
      · rcases List.mem_cons.1 h with h | h
        · exact .inl h
        · exact .inr (List.mem_cons_of_mem _ h)
      · rcases List.mem_cons.1 h with h | h
        · exact .inr (h ▸ List.mem_cons_self)
        · exact (ih h).imp_right (List.mem_cons_of_mem _)

theorem mem_erase {m : List Host.Cell} {a : Nat} {c : Host.Cell} (h : c ∈ erase a m) : c ∈ m := by
  induction m with
  | nil => exact h
  | cons d rest ih =>
    simp only [erase] at h
    split at h
    · exact List.mem_cons_of_mem _ (ih h)
    · rcases List.mem_cons.1 h with h | h
      · exact h ▸ List.mem_cons_self
      · exact List.mem_cons_of_mem _ (ih h)

theorem rising_insert {m : List Host.Cell} (a : Nat) (b : Byte) (h : m.Pairwise (fun c d => c.1 < d.1)) :
    (insert a b m).Pairwise (fun c d => c.1 < d.1) := by
  induction m with
  | nil => simp [insert]
  | cons d rest ih =>
    obtain ⟨hd, hr⟩ := List.pairwise_cons.1 h
    simp only [insert]
    split
    next hlt =>
      refine List.pairwise_cons.2 ⟨fun c hc => ?_, h⟩
      rcases List.mem_cons.1 hc with rfl | hc
      · exact hlt
      · exact lt_trans hlt (hd c hc)
    next hnlt =>
      split
      next heq => exact List.pairwise_cons.2 ⟨fun c hc => heq ▸ hd c hc, hr⟩
      next hne =>
        refine List.pairwise_cons.2 ⟨fun c hc => ?_, ih hr⟩
        rcases mem_insert hc with rfl | hc
        · exact lt_of_le_of_ne (not_lt.1 hnlt) (fun h => hne h.symm)
        · exact hd c hc

theorem rising_erase {m : List Host.Cell} (a : Nat) (h : m.Pairwise (fun c d => c.1 < d.1)) :
    (erase a m).Pairwise (fun c d => c.1 < d.1) := by
  induction m with
  | nil => exact h
  | cons d rest ih =>
    obtain ⟨hd, hr⟩ := List.pairwise_cons.1 h
    simp only [erase]
    split
    · exact ih hr
    · exact List.pairwise_cons.2 ⟨fun c hc => hd c (mem_erase hc), ih hr⟩

theorem wf_iff {blank : Option Byte} {m : List Host.Cell} :
    wf blank m = true ↔ m.Pairwise (fun c d => c.1 < d.1) ∧ ∀ c ∈ m, some c.2 ≠ blank := by
  simp [wf]

theorem below_iff {n : Nat} {m : List Host.Cell} : below n m = true ↔ ∀ c ∈ m, c.1 < n := by
  simp [below]

/-- Every write keeps the canonical form. -/
theorem wf_write {blank : Option Byte} {m : List Host.Cell} (a : Nat) (b : Byte) (h : wf blank m = true) :
    wf blank (write blank a b m) = true := by
  rw [wf_iff] at h ⊢
  unfold write
  split
  · exact ⟨rising_erase a h.1, fun c hc => h.2 c (mem_erase hc)⟩
  next hb =>
    refine ⟨rising_insert a b h.1, fun c hc => ?_⟩
    rcases mem_insert hc with rfl | hc
    · exact hb
    · exact h.2 c hc

/-- A write below `n` lists nothing at or above `n`. -/
theorem below_write {blank : Option Byte} {n : Nat} {m : List Host.Cell} {a : Nat} (b : Byte) (ha : a < n)
    (h : below n m = true) : below n (write blank a b m) = true := by
  rw [below_iff] at h ⊢
  unfold write
  split
  · exact fun c hc => h c (mem_erase hc)
  · intro c hc
    rcases mem_insert hc with rfl | hc
    · exact ha
    · exact h c hc

theorem wf_nil (blank : Option Byte) : wf blank [] = true := rfl

theorem below_nil (n : Nat) : below n [] = true := rfl

/-- An address above every listed one is not listed. -/
theorem get?_eq_none {m : List Host.Cell} {a : Nat} (h : ∀ c ∈ m, a ≠ c.1) : get? m a = none := by
  induction m with
  | nil => rfl
  | cons d rest ih =>
    have hd := h d List.mem_cons_self
    simp only [get?, hd, if_false]
    exact ih fun c hc => h c (List.mem_cons_of_mem _ hc)

theorem get?_below {n : Nat} {m : List Host.Cell} (h : below n m = true) {a : Nat} (ha : n ≤ a) : get? m a = none :=
  get?_eq_none fun c hc => by have := below_iff.1 h c hc; omega

/-- Two canonical memories that list the same byte at every address are the same list. -/
theorem ext_of_rising {m m' : List Host.Cell} (h : m.Pairwise (fun c d => c.1 < d.1))
    (h' : m'.Pairwise (fun c d => c.1 < d.1)) (he : ∀ a, get? m a = get? m' a) : m = m' := by
  induction m generalizing m' with
  | nil =>
    cases m' with
    | nil => rfl
    | cons d _ => have := he d.1; simp [get?] at this
  | cons c rest ih =>
    cases m' with
    | nil => have := he c.1; simp [get?] at this
    | cons d rest' =>
      obtain ⟨hc, hr⟩ := List.pairwise_cons.1 h
      obtain ⟨hd, hr'⟩ := List.pairwise_cons.1 h'
      have hkey : c.1 = d.1 := by
        by_contra hne
        rcases Nat.lt_or_gt_of_ne hne with hlt | hlt
        · have h1 := he c.1
          have h2 : get? rest' c.1 = none := get?_eq_none fun x hx => by have := hd x hx; omega
          simp [get?, hne, h2] at h1
        · have h1 := he d.1
          have h2 : get? rest d.1 = none := get?_eq_none fun x hx => by have := hc x hx; omega
          simp [get?, Ne.symm hne, h2] at h1
      have hval : c.2 = d.2 := by have := he c.1; simpa [get?, hkey] using this
      have hcd : c = d := Prod.ext hkey hval
      subst hcd
      have : rest = rest' := by
        refine ih hr hr' fun a => ?_
        by_cases ha : a = c.1
        · rw [get?_eq_none (m := rest) fun x hx => by have := hc x hx; omega,
            get?_eq_none (m := rest') fun x hx => by have := hd x hx; omega]
        · have := he a; simpa [get?, ha] using this
      rw [this]

/-- Equal contents are equal data: two canonical RAW memories that read alike are the same list. -/
theorem raw_ext {m m' : List Host.Cell} (h : wf rawBlank m = true) (h' : wf rawBlank m' = true)
    (he : ∀ a, rawRead m a = rawRead m' a) : m = m' := by
  have key : ∀ {l : List Host.Cell}, wf rawBlank l = true → ∀ a, get? l a ≠ some 0 := by
    intro l hl a
    have hz := (wf_iff.1 hl).2
    clear hl
    induction l with
    | nil => simp [get?]
    | cons c rest ih =>
      simp only [get?]
      split
      · exact hz c List.mem_cons_self
      · exact ih fun x hx => hz x (List.mem_cons_of_mem _ hx)
  refine ext_of_rising (wf_iff.1 h).1 (wf_iff.1 h').1 fun a => ?_
  have h1 := key h a
  have h2 := key h' a
  have h3 := he a
  unfold rawRead at h3
  cases hx : get? m a <;> cases hy : get? m' a <;> simp_all

end Sys2Proof.Machine.Memory
end

