-- ==== Sys2Proof/Laws/Field.lean ====
section
/-! SUPPORT. The packed array as a bit string (spec/20_memory.md R67): which bits of RAW `fieldGet` reads and which
`fieldSet` writes, and nothing else. -/

namespace Sys2Proof.Machine

theorem lowMask_getLsbD (n k : Nat) : (lowMask n).getLsbD k = (decide (k < 8) && decide (k < n)) := by
  simp [lowMask, BitVec.getLsbD_ofNat, Nat.testBit_two_pow_sub_one]

theorem fieldFits_iff {w i : Nat} : fieldFits w i = true ↔ w + i * w % 8 ≤ 8 := by
  rw [fieldFits, decide_eq_true_iff]; simp only [fieldDistance, fieldBitOffset]; omega

theorem fieldDistance_toNat {w i : Nat} : (fieldDistance w i).toNat = 8 - w - i * w % 8 := by
  simp only [fieldDistance, fieldBitOffset]; omega

theorem fieldN2_eq {w i : Nat} : fieldN2 w i = w + i * w % 8 - 8 := by
  simp only [fieldN2, fieldDistance, fieldBitOffset]; omega

/-- Bit `k` of the value of register `i` is bit `i*w + (w-1-k)` of the bit string. -/
theorem fieldGet_getLsbD (rd : Nat → Byte) {w i k : Nat} (hw : w ≤ 8) (hk : k < w) :
    (fieldGet rd w i).getLsbD k =
      (rd ((i * w + (w - 1 - k)) / 8)).getLsbD (7 - (i * w + (w - 1 - k)) % 8) := by
  unfold fieldGet fieldByteIndex
  by_cases hf : fieldFits w i = true
  · have h := fieldFits_iff.1 hf
    have e1 : (i * w + (w - 1 - k)) / 8 = i * w / 8 := by omega
    have e2 : 7 - (i * w + (w - 1 - k)) % 8 = 8 - w - i * w % 8 + k := by omega
    simp only [hf, if_true, BitVec.getLsbD_and, BitVec.getLsbD_ushiftRight, fieldDistance_toNat,
      lowMask_getLsbD, e1, e2]
    have : k < 8 := by omega
    simp [this, hk]
  · have h : 8 < w + i * w % 8 := by rw [fieldFits_iff] at hf; omega
    simp only [hf, Bool.false_eq_true, if_false, BitVec.getLsbD_or, BitVec.getLsbD_shiftLeft,
      BitVec.getLsbD_and, BitVec.getLsbD_ushiftRight, lowMask_getLsbD, fieldN1, fieldN2_eq]
    have k8 : k < 8 := by omega
    by_cases hlow : k < w + i * w % 8 - 8
    · have e1 : (i * w + (w - 1 - k)) / 8 = i * w / 8 + 1 := by omega
      have e2 : 7 - (i * w + (w - 1 - k)) % 8 = 8 - (w + i * w % 8 - 8) + k := by omega
      simp [hlow, e1, e2]
    · have e1 : (i * w + (w - 1 - k)) / 8 = i * w / 8 := by omega
      have e2 : 7 - (i * w + (w - 1 - k)) % 8 = k - (w + i * w % 8 - 8) := by omega
      have e3 : k - (w + i * w % 8 - 8) < 8 := by omega
      have e4 : k - (w + i * w % 8 - 8) < w - (w + i * w % 8 - 8) := by omega
      have e5 : (rd (i * w / 8 + 1)).getLsbD (8 - (w + i * w % 8 - 8) + k) = false :=
        BitVec.getLsbD_of_ge _ _ (by omega)
      simp only [k8, hlow, e1, e2, e3, e4, e5]
      simp

/-- No bit of the value at or above the width. -/
theorem fieldGet_getLsbD_ge (rd : Nat → Byte) {w i k : Nat} (hw : w ≤ 8) (hk : w ≤ k) :
    (fieldGet rd w i).getLsbD k = false := by
  unfold fieldGet fieldByteIndex
  by_cases hf : fieldFits w i = true
  · simp only [hf, if_true, BitVec.getLsbD_and, lowMask_getLsbD]
    have : ¬ k < w := by omega
    simp [this]
  · have h : 8 < w + i * w % 8 := by rw [fieldFits_iff] at hf; omega
    simp only [hf, Bool.false_eq_true, if_false, BitVec.getLsbD_or, BitVec.getLsbD_shiftLeft,
      BitVec.getLsbD_and, BitVec.getLsbD_ushiftRight, lowMask_getLsbD, fieldN1, fieldN2_eq]
    have e4 : ¬ (k - (w + i * w % 8 - 8) < w - (w + i * w % 8 - 8)) := by omega
    have e5 : (rd (i * w / 8 + 1)).getLsbD (8 - (w + i * w % 8 - 8) + k) = false :=
      BitVec.getLsbD_of_ge _ _ (by omega)
    simp only [e4, e5]
    simp

/-- Bit `q` of the bit string that a RAW memory holds (R67). -/
def rawBit (raw : List Host.Cell) (q : Nat) : Bool := (Memory.rawRead raw (q / 8)).getLsbD (7 - q % 8)

/-- Bytes of RAW that hold no bit of the field keep their value. -/
theorem rawRead_fieldSet_of_not_owns (raw : List Host.Cell) {w i a : Nat} (v : Byte) (h : fieldOwns w i a = false) :
    Memory.rawRead (fieldSet raw w i v) a = Memory.rawRead raw a := by
  unfold fieldOwns at h
  unfold fieldSet
  by_cases hf : fieldFits w i = true
  · simp only [hf, Bool.not_true, Bool.false_and, Bool.or_false, decide_eq_false_iff_not] at h
    simp [hf, Memory.rawRead_rawWrite, h]
  · simp only [Bool.not_eq_true] at hf
    simp only [hf, Bool.not_false, Bool.true_and, Bool.or_eq_false_iff, decide_eq_false_iff_not] at h
    simp [hf, Memory.rawRead_rawWrite, h]

/-- `fieldSet` writes exactly the bits of register `i`, the first of them the most significant (R66, R67). -/
theorem rawBit_fieldSet (raw : List Host.Cell) {w i : Nat} {v : Byte} (hw : w ≤ 8) (hv : v.toNat < 2 ^ w) (q : Nat) :
    rawBit (fieldSet raw w i v) q =
      if i * w ≤ q ∧ q < i * w + w then v.getLsbD (w - 1 - (q - i * w)) else rawBit raw q := by
  have hvbit : ∀ k, w ≤ k → v.getLsbD k = false := fun k hk =>
    Nat.testBit_lt_two_pow (lt_of_lt_of_le hv (Nat.pow_le_pow_right (by decide) hk))
  unfold rawBit fieldSet fieldByteIndex
  by_cases hf : fieldFits w i = true
  · have h := fieldFits_iff.1 hf
    simp only [hf, if_true, Memory.rawRead_rawWrite]
    by_cases hb : q / 8 = i * w / 8
    · simp only [hb, if_true, BitVec.getLsbD_or, BitVec.getLsbD_and, BitVec.getLsbD_not,
        BitVec.getLsbD_shiftLeft, fieldDistance_toNat, lowMask_getLsbD]
      have h8 : 7 - q % 8 < 8 := by omega
      by_cases hin : i * w ≤ q ∧ q < i * w + w
      · have e1 : ¬ (7 - q % 8 < 8 - w - i * w % 8) := by omega
        have e2 : 7 - q % 8 - (8 - w - i * w % 8) = w - 1 - (q - i * w) := by omega
        have e3 : w - 1 - (q - i * w) < w := by omega
        have e4 : w - 1 - (q - i * w) < 8 := by omega
        rw [if_pos hin]
        simp [h8, e1, e2, e3, e4]
      · rw [if_neg hin]
        by_cases e1 : 7 - q % 8 < 8 - w - i * w % 8
        · simp [h8, e1]
        · have e2 : w ≤ 7 - q % 8 - (8 - w - i * w % 8) := by omega
          have e3 : ¬ (7 - q % 8 - (8 - w - i * w % 8) < w) := by omega
          simp [h8, e1, e3, hvbit _ e2]
    · have hin : ¬ (i * w ≤ q ∧ q < i * w + w) := by omega
      simp [hb, hin]
  · have h : 8 < w + i * w % 8 := by rw [fieldFits_iff] at hf; omega
    simp only [hf, Bool.false_eq_true, if_false, Memory.rawRead_rawWrite, fieldN1, fieldN2_eq]
    have h8 : 7 - q % 8 < 8 := by omega
    by_cases hb2 : q / 8 = i * w / 8 + 1
    · have hne : ¬ (i * w / 8 + 1 = i * w / 8) := by omega
      simp only [hb2, if_true, hne, if_false, BitVec.getLsbD_or, BitVec.getLsbD_and, BitVec.getLsbD_not,
        BitVec.getLsbD_shiftLeft, lowMask_getLsbD]
      by_cases hin : i * w ≤ q ∧ q < i * w + w
      · have e1 : ¬ (7 - q % 8 < 8 - (w + i * w % 8 - 8)) := by omega
        have e2 : 7 - q % 8 - (8 - (w + i * w % 8 - 8)) = w - 1 - (q - i * w) := by omega
        have e3 : w - 1 - (q - i * w) < w + i * w % 8 - 8 := by omega
        have e4 : w - 1 - (q - i * w) < 8 := by omega
        rw [if_pos hin]
        simp [h8, e1, e2, e3, e4]
      · have e1 : 7 - q % 8 < 8 - (w + i * w % 8 - 8) := by omega
        rw [if_neg hin]
        simp [h8, e1]
    · by_cases hb : q / 8 = i * w / 8
      · have hne : ¬ (i * w / 8 = i * w / 8 + 1) := by omega
        simp only [hb, if_true, hne, if_false, BitVec.getLsbD_or, BitVec.getLsbD_and, BitVec.getLsbD_not,
          BitVec.getLsbD_ushiftRight, lowMask_getLsbD]
        by_cases hin : i * w ≤ q ∧ q < i * w + w
        · have e1 : 7 - q % 8 < w - (w + i * w % 8 - 8) := by omega
          have e2 : w + i * w % 8 - 8 + (7 - q % 8) = w - 1 - (q - i * w) := by omega
          rw [if_pos hin]
          simp [h8, e1, e2]
        · have e1 : ¬ (7 - q % 8 < w - (w + i * w % 8 - 8)) := by omega
          have e2 : w ≤ w + i * w % 8 - 8 + (7 - q % 8) := by omega
          rw [if_neg hin]
          simp [h8, e1, hvbit _ e2]
      · have hin : ¬ (i * w ≤ q ∧ q < i * w + w) := by omega
        simp [hb, hb2, hin]

/-- `fieldSet` keeps the canonical form. -/
theorem wf_fieldSet {raw : List Host.Cell} (w i : Nat) (v : Byte) (h : Memory.wf Memory.rawBlank raw = true) :
    Memory.wf Memory.rawBlank (fieldSet raw w i v) = true := by
  unfold fieldSet Memory.rawWrite
  split
  · exact Memory.wf_write _ _ h
  · exact Memory.wf_write _ _ (Memory.wf_write _ _ h)

/-- Writing a field whose bits end at or below bit `8n` lists nothing at or above byte `n`. -/
theorem below_fieldSet {raw : List Host.Cell} {n w i : Nat} (v : Byte) (hw : 1 ≤ w) (hi : i * w + w ≤ 8 * n)
    (h : Memory.below n raw = true) : Memory.below n (fieldSet raw w i v) = true := by
  unfold fieldSet Memory.rawWrite fieldByteIndex
  split
  · exact Memory.below_write _ (by omega) h
  next hf =>
    have hf : 8 < w + i * w % 8 := by rw [fieldFits_iff] at hf; omega
    exact Memory.below_write _ (by omega) (Memory.below_write _ (by omega) h)

/-- A register's value has the array's width (R39). -/
theorem State.get_lt (s : State) (hw : s.w ≤ 8) (i : Nat) : s.get i < 2 ^ s.w :=
  Nat.lt_pow_two_of_testBit _ fun _ hk => fieldGet_getLsbD_ge s.rawByte hw hk

/-- Two registers that differ in number have no bit in common (R67). -/
theorem field_disjoint {w i j q : Nat} (hij : j ≠ i) (h : j * w ≤ q ∧ q < j * w + w) : ¬ (i * w ≤ q ∧ q < i * w + w) := by
  rcases Nat.lt_or_gt_of_ne hij with hlt | hlt
  · have := Nat.mul_le_mul_right w hlt
    rw [Nat.succ_mul] at this; omega
  · have := Nat.mul_le_mul_right w hlt
    rw [Nat.succ_mul] at this; omega

/-- Writing a register and reading one (R66). -/
theorem State.get_setField (s : State) {i : Nat} {v : Byte} (hw : s.w ≤ 8) (hv : v.toNat < 2 ^ s.w) (j : Nat) :
    (s.setField i v).get j = if j = i then v.toNat else s.get j := by
  apply Nat.eq_of_testBit_eq
  intro k
  by_cases hk : k < s.w
  · have e1 : ((s.setField i v).get j).testBit k = rawBit (fieldSet s.raw s.w i v) (j * s.w + (s.w - 1 - k)) :=
      fieldGet_getLsbD (s.setField i v).rawByte hw hk
    have e2 : (s.get j).testBit k = rawBit s.raw (j * s.w + (s.w - 1 - k)) := fieldGet_getLsbD s.rawByte hw hk
    rw [e1, rawBit_fieldSet s.raw hw hv]
    by_cases hji : j = i
    · subst hji
      rw [if_pos (by omega), if_pos rfl, show s.w - 1 - (j * s.w + (s.w - 1 - k) - j * s.w) = k by omega]; rfl
    · rw [if_neg (field_disjoint hji (by omega)), if_neg hji, e2]
  · have hge : ∀ n : Nat, n < 2 ^ s.w → n.testBit k = false := fun n hn =>
      Nat.testBit_lt_two_pow (lt_of_lt_of_le hn (Nat.pow_le_pow_right (by decide) (by omega)))
    rw [hge _ (State.get_lt (s.setField i v) hw j)]
    split
    · exact (hge _ hv).symm
    · exact (hge _ (s.get_lt hw j)).symm

/-- Storing if greater and reading (R146). -/
theorem State.get_maxField (s : State) {i : Nat} {v : Byte} (hw : s.w ≤ 8) (hv : v.toNat < 2 ^ s.w) (j : Nat) :
    (s.maxField i v).get j = if j = i then max (s.get i) v.toNat else s.get j := by
  unfold State.maxField
  split
  · rw [State.get_setField s hw hv]; split
    · omega
    · rfl
  · split
    next h => subst h; omega
    · rfl

end Sys2Proof.Machine
end

