-- ==== Sys2Proof/Laws/State.lean ====
section
/-! SUPPORT. One lemma per field per update of State, each true by unfolding the update, so that no later proof unfolds a
record update. -/

namespace Sys2Proof.Machine.State

variable (s : State)

@[simp] theorem raiseError_a0 (e : ErrorCode) : (s.raiseError e).a0 = s.a0 := rfl
@[simp] theorem raiseError_a1 (e : ErrorCode) : (s.raiseError e).a1 = s.a1 := rfl
@[simp] theorem raiseError_res0 (e : ErrorCode) : (s.raiseError e).res0 = s.res0 := rfl
@[simp] theorem raiseError_res1 (e : ErrorCode) : (s.raiseError e).res1 = s.res1 := rfl
@[simp] theorem raiseError_status (e : ErrorCode) : (s.raiseError e).status = s.status.raise e := rfl
@[simp] theorem raiseError_cfg (e : ErrorCode) : (s.raiseError e).cfg = s.cfg := rfl
@[simp] theorem raiseError_seed (e : ErrorCode) : (s.raiseError e).seed = s.seed := rfl
@[simp] theorem raiseError_msg (e : ErrorCode) : (s.raiseError e).msg = s.msg := rfl
@[simp] theorem raiseError_raw (e : ErrorCode) : (s.raiseError e).raw = s.raw := rfl
@[simp] theorem raiseError_params (e : ErrorCode) : (s.raiseError e).params = s.params := rfl
@[simp] theorem raiseError_epoch (e : ErrorCode) : (s.raiseError e).epoch = s.epoch := rfl
@[simp] theorem raiseError_pending (e : ErrorCode) : (s.raiseError e).pending = s.pending := rfl
@[simp] theorem raiseError_replies (e : ErrorCode) : (s.raiseError e).replies = s.replies := rfl

@[simp] theorem succeed_a0 : (s.succeed).a0 = s.a0 := rfl
@[simp] theorem succeed_a1 : (s.succeed).a1 = s.a1 := rfl
@[simp] theorem succeed_res0 : (s.succeed).res0 = s.res0 := rfl
@[simp] theorem succeed_res1 : (s.succeed).res1 = s.res1 := rfl
@[simp] theorem succeed_status : (s.succeed).status = s.status.succeed := rfl
@[simp] theorem succeed_cfg : (s.succeed).cfg = s.cfg := rfl
@[simp] theorem succeed_seed : (s.succeed).seed = s.seed := rfl
@[simp] theorem succeed_msg : (s.succeed).msg = s.msg := rfl
@[simp] theorem succeed_raw : (s.succeed).raw = s.raw := rfl
@[simp] theorem succeed_params : (s.succeed).params = s.params := rfl
@[simp] theorem succeed_epoch : (s.succeed).epoch = s.epoch := rfl
@[simp] theorem succeed_pending : (s.succeed).pending = s.pending := rfl
@[simp] theorem succeed_replies : (s.succeed).replies = s.replies := rfl

@[simp] theorem setRes0_a0 (v : U64) : (s.setRes0 v).a0 = s.a0 := rfl
@[simp] theorem setRes0_a1 (v : U64) : (s.setRes0 v).a1 = s.a1 := rfl
@[simp] theorem setRes0_res0 (v : U64) : (s.setRes0 v).res0 = v := rfl
@[simp] theorem setRes0_res1 (v : U64) : (s.setRes0 v).res1 = s.res1 := rfl
@[simp] theorem setRes0_status (v : U64) : (s.setRes0 v).status = s.status := rfl
@[simp] theorem setRes0_cfg (v : U64) : (s.setRes0 v).cfg = s.cfg := rfl
@[simp] theorem setRes0_seed (v : U64) : (s.setRes0 v).seed = s.seed := rfl
@[simp] theorem setRes0_msg (v : U64) : (s.setRes0 v).msg = s.msg := rfl
@[simp] theorem setRes0_raw (v : U64) : (s.setRes0 v).raw = s.raw := rfl
@[simp] theorem setRes0_params (v : U64) : (s.setRes0 v).params = s.params := rfl
@[simp] theorem setRes0_epoch (v : U64) : (s.setRes0 v).epoch = s.epoch := rfl
@[simp] theorem setRes0_pending (v : U64) : (s.setRes0 v).pending = s.pending := rfl
@[simp] theorem setRes0_replies (v : U64) : (s.setRes0 v).replies = s.replies := rfl

@[simp] theorem setRes_a0 (v0 v1 : U64) : (s.setRes v0 v1).a0 = s.a0 := rfl
@[simp] theorem setRes_a1 (v0 v1 : U64) : (s.setRes v0 v1).a1 = s.a1 := rfl
@[simp] theorem setRes_res0 (v0 v1 : U64) : (s.setRes v0 v1).res0 = v0 := rfl
@[simp] theorem setRes_res1 (v0 v1 : U64) : (s.setRes v0 v1).res1 = v1 := rfl
@[simp] theorem setRes_status (v0 v1 : U64) : (s.setRes v0 v1).status = s.status := rfl
@[simp] theorem setRes_cfg (v0 v1 : U64) : (s.setRes v0 v1).cfg = s.cfg := rfl
@[simp] theorem setRes_seed (v0 v1 : U64) : (s.setRes v0 v1).seed = s.seed := rfl
@[simp] theorem setRes_msg (v0 v1 : U64) : (s.setRes v0 v1).msg = s.msg := rfl
@[simp] theorem setRes_raw (v0 v1 : U64) : (s.setRes v0 v1).raw = s.raw := rfl
@[simp] theorem setRes_params (v0 v1 : U64) : (s.setRes v0 v1).params = s.params := rfl
@[simp] theorem setRes_epoch (v0 v1 : U64) : (s.setRes v0 v1).epoch = s.epoch := rfl
@[simp] theorem setRes_pending (v0 v1 : U64) : (s.setRes v0 v1).pending = s.pending := rfl
@[simp] theorem setRes_replies (v0 v1 : U64) : (s.setRes v0 v1).replies = s.replies := rfl

@[simp] theorem setRawByte_a0 (a : Nat) (b : Byte) : (s.setRawByte a b).a0 = s.a0 := rfl
@[simp] theorem setRawByte_a1 (a : Nat) (b : Byte) : (s.setRawByte a b).a1 = s.a1 := rfl
@[simp] theorem setRawByte_res0 (a : Nat) (b : Byte) : (s.setRawByte a b).res0 = s.res0 := rfl
@[simp] theorem setRawByte_res1 (a : Nat) (b : Byte) : (s.setRawByte a b).res1 = s.res1 := rfl
@[simp] theorem setRawByte_status (a : Nat) (b : Byte) : (s.setRawByte a b).status = s.status := rfl
@[simp] theorem setRawByte_cfg (a : Nat) (b : Byte) : (s.setRawByte a b).cfg = s.cfg := rfl
@[simp] theorem setRawByte_seed (a : Nat) (b : Byte) : (s.setRawByte a b).seed = s.seed := rfl
@[simp] theorem setRawByte_msg (a : Nat) (b : Byte) : (s.setRawByte a b).msg = s.msg := rfl
@[simp] theorem setRawByte_raw (a : Nat) (b : Byte) : (s.setRawByte a b).raw = Memory.rawWrite s.raw a b := rfl
@[simp] theorem setRawByte_params (a : Nat) (b : Byte) : (s.setRawByte a b).params = s.params := rfl
@[simp] theorem setRawByte_epoch (a : Nat) (b : Byte) : (s.setRawByte a b).epoch = s.epoch := rfl
@[simp] theorem setRawByte_pending (a : Nat) (b : Byte) : (s.setRawByte a b).pending = s.pending := rfl
@[simp] theorem setRawByte_replies (a : Nat) (b : Byte) : (s.setRawByte a b).replies = s.replies := rfl

@[simp] theorem setField_a0 (i : Nat) (v : Byte) : (s.setField i v).a0 = s.a0 := rfl
@[simp] theorem setField_a1 (i : Nat) (v : Byte) : (s.setField i v).a1 = s.a1 := rfl
@[simp] theorem setField_res0 (i : Nat) (v : Byte) : (s.setField i v).res0 = s.res0 := rfl
@[simp] theorem setField_res1 (i : Nat) (v : Byte) : (s.setField i v).res1 = s.res1 := rfl
@[simp] theorem setField_status (i : Nat) (v : Byte) : (s.setField i v).status = s.status := rfl
@[simp] theorem setField_cfg (i : Nat) (v : Byte) : (s.setField i v).cfg = s.cfg := rfl
@[simp] theorem setField_seed (i : Nat) (v : Byte) : (s.setField i v).seed = s.seed := rfl
@[simp] theorem setField_msg (i : Nat) (v : Byte) : (s.setField i v).msg = s.msg := rfl
@[simp] theorem setField_raw (i : Nat) (v : Byte) : (s.setField i v).raw = fieldSet s.raw s.w i v := rfl
@[simp] theorem setField_params (i : Nat) (v : Byte) : (s.setField i v).params = s.params := rfl
@[simp] theorem setField_epoch (i : Nat) (v : Byte) : (s.setField i v).epoch = s.epoch := rfl
@[simp] theorem setField_pending (i : Nat) (v : Byte) : (s.setField i v).pending = s.pending := rfl
@[simp] theorem setField_replies (i : Nat) (v : Byte) : (s.setField i v).replies = s.replies := rfl

@[simp] theorem zeroFill_a0 : (s.zeroFill).a0 = s.a0 := rfl
@[simp] theorem zeroFill_a1 : (s.zeroFill).a1 = s.a1 := rfl
@[simp] theorem zeroFill_res0 : (s.zeroFill).res0 = s.res0 := rfl
@[simp] theorem zeroFill_res1 : (s.zeroFill).res1 = s.res1 := rfl
@[simp] theorem zeroFill_status : (s.zeroFill).status = s.status := rfl
@[simp] theorem zeroFill_cfg : (s.zeroFill).cfg = s.cfg := rfl
@[simp] theorem zeroFill_seed : (s.zeroFill).seed = s.seed := rfl
@[simp] theorem zeroFill_msg : (s.zeroFill).msg = s.msg := rfl
@[simp] theorem zeroFill_raw : (s.zeroFill).raw = [] := rfl
@[simp] theorem zeroFill_params : (s.zeroFill).params = s.params := rfl
@[simp] theorem zeroFill_epoch : (s.zeroFill).epoch = s.epoch := rfl
@[simp] theorem zeroFill_pending : (s.zeroFill).pending = s.pending := rfl
@[simp] theorem zeroFill_replies : (s.zeroFill).replies = s.replies := rfl

@[simp] theorem setCfg_a0 (p w : U64) : (s.setCfg p w).a0 = s.a0 := rfl
@[simp] theorem setCfg_a1 (p w : U64) : (s.setCfg p w).a1 = s.a1 := rfl
@[simp] theorem setCfg_res0 (p w : U64) : (s.setCfg p w).res0 = s.res0 := rfl
@[simp] theorem setCfg_res1 (p w : U64) : (s.setCfg p w).res1 = s.res1 := rfl
@[simp] theorem setCfg_status (p w : U64) : (s.setCfg p w).status = s.status := rfl
@[simp] theorem setCfg_cfg (p w : U64) : (s.setCfg p w).cfg = { p := p.setWidth 5, w := w.setWidth 4, valid := true } := rfl
@[simp] theorem setCfg_seed (p w : U64) : (s.setCfg p w).seed = s.seed := rfl
@[simp] theorem setCfg_msg (p w : U64) : (s.setCfg p w).msg = s.msg := rfl
@[simp] theorem setCfg_raw (p w : U64) : (s.setCfg p w).raw = s.raw := rfl
@[simp] theorem setCfg_params (p w : U64) : (s.setCfg p w).params = s.params := rfl
@[simp] theorem setCfg_epoch (p w : U64) : (s.setCfg p w).epoch = s.epoch := rfl
@[simp] theorem setCfg_pending (p w : U64) : (s.setCfg p w).pending = s.pending := rfl
@[simp] theorem setCfg_replies (p w : U64) : (s.setCfg p w).replies = s.replies := rfl

@[simp] theorem reply_a0 (r : Reply) : (s.reply r).a0 = s.a0 := rfl
@[simp] theorem reply_a1 (r : Reply) : (s.reply r).a1 = s.a1 := rfl
@[simp] theorem reply_res0 (r : Reply) : (s.reply r).res0 = s.res0 := rfl
@[simp] theorem reply_res1 (r : Reply) : (s.reply r).res1 = s.res1 := rfl
@[simp] theorem reply_status (r : Reply) : (s.reply r).status = s.status := rfl
@[simp] theorem reply_cfg (r : Reply) : (s.reply r).cfg = s.cfg := rfl
@[simp] theorem reply_seed (r : Reply) : (s.reply r).seed = s.seed := rfl
@[simp] theorem reply_msg (r : Reply) : (s.reply r).msg = s.msg := rfl
@[simp] theorem reply_raw (r : Reply) : (s.reply r).raw = s.raw := rfl
@[simp] theorem reply_params (r : Reply) : (s.reply r).params = s.params := rfl
@[simp] theorem reply_epoch (r : Reply) : (s.reply r).epoch = s.epoch := rfl
@[simp] theorem reply_pending (r : Reply) : (s.reply r).pending = s.pending := rfl
@[simp] theorem reply_replies (r : Reply) : (s.reply r).replies = s.replies ++ [r] := rfl

@[simp] theorem hostReset_a0 : (s.hostReset).a0 = 0 := rfl
@[simp] theorem hostReset_a1 : (s.hostReset).a1 = 0 := rfl
@[simp] theorem hostReset_res0 : (s.hostReset).res0 = 0 := rfl
@[simp] theorem hostReset_res1 : (s.hostReset).res1 = 0 := rfl
@[simp] theorem hostReset_status : (s.hostReset).status = { err := 0, esticky := false } := rfl
@[simp] theorem hostReset_cfg : (s.hostReset).cfg = { p := 0, w := 0, valid := false } := rfl
@[simp] theorem hostReset_seed : (s.hostReset).seed = 0 := rfl
@[simp] theorem hostReset_msg : (s.hostReset).msg = [] := rfl
@[simp] theorem hostReset_raw : (s.hostReset).raw = [] := rfl
@[simp] theorem hostReset_params : (s.hostReset).params = s.params := rfl
@[simp] theorem hostReset_epoch : (s.hostReset).epoch = s.epoch + 1 := rfl
@[simp] theorem hostReset_pending : (s.hostReset).pending = s.pending := rfl
@[simp] theorem hostReset_replies : (s.hostReset).replies = s.replies := rfl

@[simp] theorem maxField_a0 (i : Nat) (v : Byte) : (s.maxField i v).a0 = s.a0 := by
  unfold maxField; split <;> rfl
@[simp] theorem maxField_a1 (i : Nat) (v : Byte) : (s.maxField i v).a1 = s.a1 := by
  unfold maxField; split <;> rfl
@[simp] theorem maxField_res0 (i : Nat) (v : Byte) : (s.maxField i v).res0 = s.res0 := by
  unfold maxField; split <;> rfl
@[simp] theorem maxField_res1 (i : Nat) (v : Byte) : (s.maxField i v).res1 = s.res1 := by
  unfold maxField; split <;> rfl
@[simp] theorem maxField_status (i : Nat) (v : Byte) : (s.maxField i v).status = s.status := by
  unfold maxField; split <;> rfl
@[simp] theorem maxField_cfg (i : Nat) (v : Byte) : (s.maxField i v).cfg = s.cfg := by
  unfold maxField; split <;> rfl
@[simp] theorem maxField_seed (i : Nat) (v : Byte) : (s.maxField i v).seed = s.seed := by
  unfold maxField; split <;> rfl
@[simp] theorem maxField_msg (i : Nat) (v : Byte) : (s.maxField i v).msg = s.msg := by
  unfold maxField; split <;> rfl
@[simp] theorem maxField_params (i : Nat) (v : Byte) : (s.maxField i v).params = s.params := by
  unfold maxField; split <;> rfl
@[simp] theorem maxField_epoch (i : Nat) (v : Byte) : (s.maxField i v).epoch = s.epoch := by
  unfold maxField; split <;> rfl
@[simp] theorem maxField_pending (i : Nat) (v : Byte) : (s.maxField i v).pending = s.pending := by
  unfold maxField; split <;> rfl
@[simp] theorem maxField_replies (i : Nat) (v : Byte) : (s.maxField i v).replies = s.replies := by
  unfold maxField; split <;> rfl

@[simp] theorem writeMsg_a0 (a : Nat) (b : Byte) : (s.writeMsg a b).a0 = s.a0 := by
  unfold writeMsg; split <;> rfl
@[simp] theorem writeMsg_a1 (a : Nat) (b : Byte) : (s.writeMsg a b).a1 = s.a1 := by
  unfold writeMsg; split <;> rfl
@[simp] theorem writeMsg_res0 (a : Nat) (b : Byte) : (s.writeMsg a b).res0 = s.res0 := by
  unfold writeMsg; split <;> rfl
@[simp] theorem writeMsg_res1 (a : Nat) (b : Byte) : (s.writeMsg a b).res1 = s.res1 := by
  unfold writeMsg; split <;> rfl
@[simp] theorem writeMsg_status (a : Nat) (b : Byte) : (s.writeMsg a b).status = s.status := by
  unfold writeMsg; split <;> rfl
@[simp] theorem writeMsg_cfg (a : Nat) (b : Byte) : (s.writeMsg a b).cfg = s.cfg := by
  unfold writeMsg; split <;> rfl
@[simp] theorem writeMsg_seed (a : Nat) (b : Byte) : (s.writeMsg a b).seed = s.seed := by
  unfold writeMsg; split <;> rfl
@[simp] theorem writeMsg_raw (a : Nat) (b : Byte) : (s.writeMsg a b).raw = s.raw := by
  unfold writeMsg; split <;> rfl
@[simp] theorem writeMsg_params (a : Nat) (b : Byte) : (s.writeMsg a b).params = s.params := by
  unfold writeMsg; split <;> rfl
@[simp] theorem writeMsg_epoch (a : Nat) (b : Byte) : (s.writeMsg a b).epoch = s.epoch := by
  unfold writeMsg; split <;> rfl
@[simp] theorem writeMsg_pending (a : Nat) (b : Byte) : (s.writeMsg a b).pending = s.pending := by
  unfold writeMsg; split <;> rfl
@[simp] theorem writeMsg_replies (a : Nat) (b : Byte) : (s.writeMsg a b).replies = s.replies := by
  unfold writeMsg; split <;> rfl

@[simp] theorem storeReg_res0 (n : Nat) (v : U64) : (s.storeReg n v).res0 = s.res0 := by
  unfold storeReg; split <;> rfl
@[simp] theorem storeReg_res1 (n : Nat) (v : U64) : (s.storeReg n v).res1 = s.res1 := by
  unfold storeReg; split <;> rfl
@[simp] theorem storeReg_cfg (n : Nat) (v : U64) : (s.storeReg n v).cfg = s.cfg := by
  unfold storeReg; split <;> rfl
@[simp] theorem storeReg_msg (n : Nat) (v : U64) : (s.storeReg n v).msg = s.msg := by
  unfold storeReg; split <;> rfl
@[simp] theorem storeReg_raw (n : Nat) (v : U64) : (s.storeReg n v).raw = s.raw := by
  unfold storeReg; split <;> rfl
@[simp] theorem storeReg_params (n : Nat) (v : U64) : (s.storeReg n v).params = s.params := by
  unfold storeReg; split <;> rfl
@[simp] theorem storeReg_epoch (n : Nat) (v : U64) : (s.storeReg n v).epoch = s.epoch := by
  unfold storeReg; split <;> rfl
@[simp] theorem storeReg_pending (n : Nat) (v : U64) : (s.storeReg n v).pending = s.pending := by
  unfold storeReg; split <;> rfl
@[simp] theorem storeReg_replies (n : Nat) (v : U64) : (s.storeReg n v).replies = s.replies := by
  unfold storeReg; split <;> rfl

end Sys2Proof.Machine.State
end

