-- ==== Sys2Proof/Laws/Ops.lean ====
section
/-! SUPPORT. What the shared operations can do, said once: how a command ends, what a store-if-greater leaves, and that every
command is a failure or a success of one shape. -/

namespace Sys2Proof.Machine

@[simp] theorem fail_next_iff {e : ErrorCode} {s t : State} : fail e s = .next t ↔ t = s.raiseError e := by
  unfold fail; constructor
  · rintro ⟨⟩; rfl
  · rintro rfl; rfl

@[simp] theorem done_next_iff {s t : State} : done s = .next t ↔ t = s.succeed := by
  unfold done; constructor
  · rintro ⟨⟩; rfl
  · rintro rfl; rfl

theorem ErrorCode.code_ne_zero (e : ErrorCode) : e.code ≠ 0 := by cases e <;> decide

/-- A command can write CFG, RAW, RES0, RES1 and STATUS; the rest of the state stays. -/
def SameBut (s t : State) : Prop := t = { s with cfg := t.cfg, raw := t.raw, res0 := t.res0, res1 := t.res1 }

/-- Store if greater: either it stores a value that is greater, or nothing changes. -/
theorem maxField_cases (s : State) (i : Nat) (v : Byte) :
    (s.get i < v.toNat ∧ s.maxField i v = s.setField i v) ∨ (v.toNat ≤ s.get i ∧ s.maxField i v = s) := by
  unfold State.maxField
  split
  · exact .inl ⟨‹_›, rfl⟩
  · exact .inr ⟨by omega, rfl⟩

theorem maxField_sameBut (s : State) (i : Nat) (v : Byte) : SameBut s (s.maxField i v) := by
  obtain ⟨-, h⟩ | ⟨-, h⟩ := maxField_cases s i v <;> rw [h] <;> rfl

theorem setRes0_sameBut (s : State) (v : U64) : SameBut s (s.setRes0 v) := rfl

theorem setRes_sameBut (s : State) (v0 v1 : U64) : SameBut s (s.setRes v0 v1) := rfl

theorem setField_sameBut (s : State) (i : Nat) (v : Byte) : SameBut s (s.setField i v) := rfl

theorem setRawByte_sameBut (s : State) (a : Nat) (b : Byte) : SameBut s (s.setRawByte a b) := rfl

theorem zeroFill_sameBut (s : State) : SameBut s s.zeroFill := rfl

theorem construct_sameBut (s : State) (p w : U64) : SameBut s (s.setCfg p w).zeroFill := rfl

/-- A failing command, as one update of the state. -/
theorem fail_eq (e : ErrorCode) (s : State) :
    fail e s = .next { s with status := { err := e.code, esticky := true } } := rfl

/-- A command whose one effect is a result. -/
theorem done_setRes0 (s : State) (v : U64) :
    done (s.setRes0 v) = .next { s with res0 := v, status := { err := 0, esticky := s.status.esticky } } := rfl

/-- A command whose effect is the two lanes. -/
theorem done_setRes (s : State) (v0 v1 : U64) :
    done (s.setRes v0 v1) =
      .next { s with res0 := v0, res1 := v1, status := { err := 0, esticky := s.status.esticky } } := rfl

/-- Every command fails as a whole or succeeds, and what it can write is what `SameBut` says. -/
theorem exec_cases (i : Instr) (s : State) :
    (∃ e, exec i s = fail e s) ∨ (∃ t, exec i s = done t ∧ SameBut s t) := by
  cases i <;>
    simp only [exec, execConfig, execRget, execRset, execRclr, execRawrd, execRawwr, execRmax, execH32, execH128,
      execH32w1, execH32w2, execH64w1, execH64w2, execPut, execEst, execRelerr] <;>
    (repeat' split) <;>
    first
      | exact .inl ⟨_, rfl⟩
      | exact .inr ⟨_, rfl, setRes0_sameBut ..⟩
      | exact .inr ⟨_, rfl, setRes_sameBut ..⟩
      | exact .inr ⟨_, rfl, setField_sameBut ..⟩
      | exact .inr ⟨_, rfl, maxField_sameBut ..⟩
      | exact .inr ⟨_, rfl, setRawByte_sameBut ..⟩
      | exact .inr ⟨_, rfl, construct_sameBut ..⟩
      | exact .inr ⟨_, rfl, zeroFill_sameBut ..⟩

/-- Running a command word: the decoded instruction, or the error of an illegal word. -/
theorem runCommand_cases (c : U32) (s : State) :
    (∃ i, decode c = .ok i ∧ runCommand c s = exec i s) ∨
    (∃ r, decode c = .error r ∧ runCommand c s = fail .illegalCommand s) := by
  unfold runCommand
  cases h : decode c with
  | ok i => exact .inl ⟨i, rfl, rfl⟩
  | error r => exact .inr ⟨r, rfl, rfl⟩

end Sys2Proof.Machine
end

