-- ==== Sys2Proof/Laws/Exec.lean ====
section
/-! SUPPORT. What each instruction can do, said once: the errors it can raise and the one update it makes when it succeeds. Later
proofs cite `exec_effect` and do not unfold a meaning whose result is not looked at. -/

namespace Sys2Proof.Machine

/-- The errors an instruction can raise. -/
def mayFail : Instr → List ErrorCode
  | .config => [.invalidArgument]
  | .rget => [.notConfigured, .indexOutOfRange]
  | .rset => [.notConfigured, .indexOutOfRange, .valueOverflow]
  | .rclr => [.notConfigured]
  | .rawrd => [.notConfigured, .addressRange]
  | .rawwr => [.notConfigured, .addressRange, .valueOverflow]
  | .rmax => [.notConfigured, .indexOutOfRange, .valueOverflow]
  | .h32 => [.addressRange]
  | .h128 => [.addressRange]
  | .h32w1 => []
  | .h32w2 => []
  | .h64w1 => []
  | .h64w2 => []
  | .put _ => [.notConfigured]
  | .est => [.notConfigured, .estRange]
  | .relerr => [.notConfigured]

/-- The state that a successful instruction leaves, before STATUS is written. A result's value is left open here. -/
def Effect (i : Instr) (s u : State) : Prop :=
  match i with
  | .config =>
    4 ≤ s.a0.toNat ∧ s.a0.toNat ≤ 31 ∧ s.a0.toNat ≤ s.params.pMax ∧ 1 ≤ s.a1.toNat ∧ s.a1.toNat ≤ 8 ∧
      u = (s.setCfg s.a0 s.a1).zeroFill
  | .rset =>
    s.cfg.valid = true ∧ s.a0.toNat < s.m ∧ s.a1.toNat < 2 ^ s.w ∧ u = s.setField s.a0.toNat (s.a1.setWidth 8)
  | .rclr => s.cfg.valid = true ∧ u = s.zeroFill
  | .rawwr =>
    s.cfg.valid = true ∧ s.a0.toNat < s.nbytes ∧ s.a1.toNat < 256 ∧ u = s.setRawByte s.a0.toNat (s.a1.setWidth 8)
  | .rmax =>
    s.cfg.valid = true ∧ s.a0.toNat < s.m ∧ s.a1.toNat < 2 ^ s.w ∧ u = s.maxField s.a0.toNat (s.a1.setWidth 8)
  | .put src =>
    s.cfg.valid = true ∧
      u = s.maxField (Hll.index s.p (s.hashOperand src)) (BitVec.ofNat 8 (Hll.rank s.p s.w (s.hashOperand src)))
  | .h128 => ∃ v0 v1, u = s.setRes v0 v1
  | .rget | .rawrd | .h32 | .h32w1 | .h32w2 | .h64w1 | .h64w2 | .est | .relerr => ∃ v, u = s.setRes0 v

theorem exec_effect (i : Instr) (s : State) :
    (∃ e ∈ mayFail i, exec i s = fail e s) ∨ (∃ u, exec i s = done u ∧ Effect i s u) := by
  cases i <;>
    simp only [exec, execConfig, execRget, execRset, execRclr, execRawrd, execRawwr, execRmax, execH32, execH128,
      execH32w1, execH32w2, execH64w1, execH64w2, execPut, execEst, execRelerr] <;>
    (repeat' split) <;>
    first
      | exact .inl ⟨_, by simp [mayFail], rfl⟩
      | exact .inr ⟨_, rfl, _, rfl⟩
      | exact .inr ⟨_, rfl, _, _, rfl⟩
      | (refine .inr ⟨_, rfl, ?_⟩
         simp only [Effect, and_true]
         simp only [Bool.not_eq_false, not_le, not_or, not_lt] at *
         simp_all)

/-- Every effect leaves STATUS, the operands, SEED, MSG, the parameters and the host's side. -/
theorem Effect.sameBut {i : Instr} {s u : State} (h : Effect i s u) : SameBut s u := by
  cases i <;> simp only [Effect] at h
  case config => obtain ⟨-, -, -, -, -, rfl⟩ := h; rfl
  case rset => obtain ⟨-, -, -, rfl⟩ := h; rfl
  case rclr => obtain ⟨-, rfl⟩ := h; rfl
  case rawwr => obtain ⟨-, -, -, rfl⟩ := h; rfl
  case rmax => obtain ⟨-, -, -, rfl⟩ := h; exact maxField_sameBut ..
  case put => obtain ⟨-, rfl⟩ := h; exact maxField_sameBut ..
  case h128 => obtain ⟨_, _, rfl⟩ := h; rfl
  all_goals obtain ⟨_, rfl⟩ := h; rfl

/-- Every effect but CONFIG's leaves CFG. -/
theorem Effect.cfg {i : Instr} {s u : State} (h : Effect i s u) (hi : i ≠ .config) : u.cfg = s.cfg := by
  cases i <;> simp only [Effect] at h
  case config => exact absurd rfl hi
  case rset => obtain ⟨-, -, -, rfl⟩ := h; rfl
  case rclr => obtain ⟨-, rfl⟩ := h; rfl
  case rawwr => obtain ⟨-, -, -, rfl⟩ := h; rfl
  case rmax => obtain ⟨-, -, -, rfl⟩ := h; simp
  case put => obtain ⟨-, rfl⟩ := h; simp
  case h128 => obtain ⟨_, _, rfl⟩ := h; rfl
  all_goals obtain ⟨_, rfl⟩ := h; rfl

/-- What `exec_effect` says, from an answered next state. -/
theorem exec_next {i : Instr} {s t : State} (h : exec i s = .next t) :
    (∃ e ∈ mayFail i, t = s.raiseError e) ∨ (∃ u, t = u.succeed ∧ Effect i s u) := by
  obtain ⟨e, he, h'⟩ | ⟨u, h', hu⟩ := exec_effect i s <;> rw [h'] at h
  · exact .inl ⟨e, he, fail_next_iff.1 h⟩
  · exact .inr ⟨u, done_next_iff.1 h, hu⟩

/-- No command stops the machine. -/
theorem exec_answers (i : Instr) (s : State) : ∃ t, exec i s = .next t := by
  obtain ⟨e, -, h⟩ | ⟨u, h, -⟩ := exec_effect i s <;> exact ⟨_, h⟩

theorem runCommand_answers (c : U32) (s : State) : ∃ t, runCommand c s = .next t := by
  obtain ⟨i, -, h⟩ | ⟨r, -, h⟩ := runCommand_cases c s <;> rw [h]
  · exact exec_answers i s
  · exact ⟨_, rfl⟩

/-- The state with another host's side. -/
def State.reside (p : List HostAction) (r : List Reply) (s : State) : State := { s with pending := p, replies := r }

/-- An outcome with its next state changed by `f`. -/
def mapNext (f : State → State) : Host.Outcome State Fault Refusal → Host.Outcome State Fault Refusal
  | .next t => .next (f t)
  | .fault e => .fault e
  | .refused r => .refused r

theorem mapNext_ite (f : State → State) {c : Prop} [Decidable c] (x y : Host.Outcome State Fault Refusal) :
    mapNext f (if c then x else y) = if c then mapNext f x else mapNext f y := by split <;> rfl

section Reside

variable (p : List HostAction) (r : List Reply) (s : State)

theorem mapNext_fail (e : ErrorCode) : mapNext (State.reside p r) (fail e s) = fail e (s.reside p r) := rfl

theorem mapNext_done : mapNext (State.reside p r) (done s) = done (s.reside p r) := rfl

theorem reside_setRes0 (v : U64) : (s.setRes0 v).reside p r = (s.reside p r).setRes0 v := rfl

theorem reside_setRes (v w : U64) : (s.setRes v w).reside p r = (s.reside p r).setRes v w := rfl

theorem reside_setField (i : Nat) (v : Byte) : (s.setField i v).reside p r = (s.reside p r).setField i v := rfl

theorem reside_setRawByte (a : Nat) (b : Byte) : (s.setRawByte a b).reside p r = (s.reside p r).setRawByte a b := rfl

theorem reside_zeroFill : s.zeroFill.reside p r = (s.reside p r).zeroFill := rfl

theorem reside_setCfg (v w : U64) : (s.setCfg v w).reside p r = (s.reside p r).setCfg v w := rfl

theorem reside_maxField (i : Nat) (v : Byte) : (s.maxField i v).reside p r = (s.reside p r).maxField i v := by
  unfold State.maxField
  rw [show (s.reside p r).get i = s.get i from rfl]
  split <;> rfl

/-- A command is the same whatever the host's side of the state holds, and leaves it alone. -/
theorem exec_reside (i : Instr) : exec i (s.reside p r) = mapNext (State.reside p r) (exec i s) := by
  cases i
  case est =>
    show (if s.cfg.valid = false then fail .notConfigured (s.reside p r)
      else match Hll.estimate s.m (Hll.v s) (Hll.rawEstimate s) with
        | none => fail .estRange (s.reside p r)
        | some n => done ((s.reside p r).setRes0 (Hll.estimateWord n))) = mapNext _ (execEst s)
    unfold execEst
    rw [mapNext_ite, mapNext_fail]
    split
    · rfl
    · cases Hll.estimate s.m (Hll.v s) (Hll.rawEstimate s) <;> rfl
  all_goals
    simp only [exec, execConfig, execRget, execRset, execRclr, execRawrd, execRawwr, execRmax, execH32, execH128,
      execH32w1, execH32w2, execH64w1, execH64w2, execPut, execRelerr, mapNext_ite, mapNext_fail, mapNext_done,
      reside_setRes0, reside_setRes, reside_setField, reside_setRawByte, reside_zeroFill, reside_setCfg, reside_maxField]
    rfl

theorem runCommand_reside (c : U32) : runCommand c (s.reside p r) = mapNext (State.reside p r) (runCommand c s) := by
  unfold runCommand
  cases decode c
  · rfl
  · exact exec_reside _ _ _ _

end Reside

end Sys2Proof.Machine
end

