-- ==== Sys2Proof/Laws/Actions.lean ====
section
/-! SUPPORT. Runs of host actions (`Machine/Actions.lean`), and what an action can do to ESTICKY. -/

namespace Sys2Proof.Machine.Actions

/-- A run of two lists is the run of the second from where the first ends. -/
theorem run_append {l : List HostAction} (l' : List HostAction) {s t : State} (h : run l s = .next t) :
    run (l ++ l') s = run l' t := by
  induction l generalizing s with
  | nil => cases h; rfl
  | cons a l ih =>
    simp only [List.cons_append, run] at h ⊢
    split at h
    · exact ih h
    · cases h
    · cases h

/-- What one action does to ESTICKY (R29, R285, R310): a command that fails sets it and one that succeeds leaves it, the host's clear
and Reset clear it, every other action leaves it. -/
theorem act_esticky {h : HostAction} {s t : State} (ha : act h s = .next t) :
    (∃ v, h = .writeReg 0 v ∧ t.status.err ≠ 0 ∧ t.status.esticky = true) ∨
    (t.status.esticky = s.status.esticky ∧ clearsEsticky h = false ∧ h ≠ .reset ∧
      ∀ v, h = .writeReg 0 v → t.status.err = 0) ∨
    (t.status.esticky = false ∧ (clearsEsticky h = true ∨ h = .reset)) := by
  unfold act at ha
  split at ha
  · rename_i v
    obtain ⟨i, -, h'⟩ | ⟨r, -, h'⟩ := runCommand_cases (low32 v) s <;> rw [h'] at ha
    · obtain ⟨e, -, rfl⟩ | ⟨u, rfl, hu⟩ := exec_next ha
      · exact .inl ⟨v, rfl, by cases e <;> simp [State.raiseError, Status.raise, ErrorCode.code], rfl⟩
      · refine .inr (.inl ⟨?_, rfl, by simp, fun _ _ => rfl⟩)
        rw [Effect.sameBut hu]
        rfl
    · rw [fail_next_iff] at ha
      subst ha
      exact .inl ⟨v, rfl, by simp [State.raiseError, Status.raise, ErrorCode.code], rfl⟩
  · rename_i n v hn
    cases ha
    by_cases h1 : n = 1
    · subst h1
      cases h8 : v.getLsbD 8
      · exact .inr (.inl ⟨by simp only [State.storeReg, Status.hostWrite, h8, Bool.false_eq_true, if_false],
          by simp only [clearsEsticky, h8, Bool.and_false], by simp, by simp⟩)
      · exact .inr (.inr ⟨by simp only [State.storeReg, Status.hostWrite, h8, if_true],
          .inl (by simp only [clearsEsticky, h8, beq_self_eq_true, Bool.and_true])⟩)
    · refine .inr (.inl ⟨?_, by simp [clearsEsticky, h1], by simp, fun w hw => ?_⟩)
      · unfold State.storeReg
        split <;> first | rfl | contradiction
      · injection hw with h0
        exact absurd h0 (by simpa using hn)
  · cases ha; exact .inr (.inl ⟨rfl, rfl, by simp, by simp⟩)
  · cases ha
    refine .inr (.inl ⟨?_, rfl, by simp, by simp⟩)
    unfold State.writeMsg
    split <;> rfl
  · cases ha; exact .inr (.inl ⟨rfl, rfl, by simp, by simp⟩)
  · cases ha; exact .inr (.inr ⟨rfl, .inr rfl⟩)

end Sys2Proof.Machine.Actions
end

