-- ==== Sys2Proof/Laws/Bits.lean ====
section
/-! SUPPORT. What the primitives of `Machine/Bits.lean` are in plain arithmetic (spec/00_scope.md R12; spec/20_memory.md R61). -/

namespace Sys2Proof.Machine

/-- A rotation of any width: the two shifted parts do not overlap. -/
theorem rotate_toNat {n : Nat} (x : BitVec n) {r : Nat} (hr : r ≤ n) :
    ((x <<< r) ||| (x >>> (n - r))).toNat = x.toNat * 2 ^ r % 2 ^ n + x.toNat / 2 ^ (n - r) := by
  have h1 : x.toNat * 2 ^ r % 2 ^ n = x.toNat % 2 ^ (n - r) * 2 ^ r := by
    conv_lhs => rw [show 2 ^ n = 2 ^ (n - r) * 2 ^ r by rw [← pow_add]; congr 1; omega, Nat.mul_mod_mul_right]
  have h2 : x.toNat / 2 ^ (n - r) < 2 ^ r := by
    apply Nat.div_lt_of_lt_mul
    rw [← pow_add, show n - r + r = n by omega]
    exact x.isLt
  rw [BitVec.toNat_or, BitVec.toNat_shiftLeft, BitVec.toNat_ushiftRight, Nat.shiftLeft_eq, Nat.shiftRight_eq_div_pow, h1,
    Nat.mul_comm _ (2 ^ r), Nat.two_pow_add_eq_or_of_lt h2]

theorem rotl32_toNat (x : U32) {r : Nat} (hr : r ≤ 32) :
    (rotl32 x r).toNat = x.toNat * 2 ^ r % 2 ^ 32 + x.toNat / 2 ^ (32 - r) := rotate_toNat x hr

theorem rotl64_toNat (x : U64) {r : Nat} (hr : r ≤ 64) :
    (rotl64 x r).toNat = x.toNat * 2 ^ r % 2 ^ 64 + x.toNat / 2 ^ (64 - r) := rotate_toNat x hr

theorem xorShift_toNat {n : Nat} (x : BitVec n) (r : Nat) : (xorShift x r).toNat = x.toNat ^^^ x.toNat / 2 ^ r := by
  unfold xorShift
  rw [BitVec.toNat_xor, BitVec.toNat_ushiftRight, Nat.shiftRight_eq_div_pow]

/-- `clz64` of a value that is not 0 is the `n` with `2^(63-n) <= x < 2^(64-n)`. -/
theorem clz64_eq_iff {x : U64} (n : Nat) (h : x.toNat ≠ 0) :
    clz64 x = n ↔ n < 64 ∧ 2 ^ (63 - n) ≤ x.toNat ∧ x.toNat < 2 ^ (64 - n) := by
  have hx : x ≠ 0 := by rintro rfl; exact h rfl
  have hl : x.toNat.log2 < 64 := (Nat.log2_lt h).2 x.isLt
  unfold clz64
  rw [if_neg hx]
  constructor
  · rintro rfl
    refine ⟨by omega, ?_, ?_⟩
    · rw [show 63 - (63 - x.toNat.log2) = x.toNat.log2 by omega]
      exact Nat.log2_self_le h
    · rw [show 64 - (63 - x.toNat.log2) = x.toNat.log2 + 1 by omega]
      exact Nat.lt_log2_self
  · rintro ⟨hn, h1, h2⟩
    have a := (Nat.le_log2 h).2 h1
    have b := (Nat.log2_lt h).2 h2
    omega

/-- The first byte is the least significant. -/
theorem memRead_cons (rd : Nat → Byte) (a n : Nat) :
    memRead rd a (n + 1) = (rd a).toNat + 256 * memRead rd (a + 1) n := by
  induction n with
  | zero => simp [memRead]
  | succ n ih =>
    rw [memRead, ih, memRead, Nat.mul_add, show a + 1 + n = a + (n + 1) by omega, pow_add]
    ring

theorem memRead_lt (rd : Nat → Byte) (a n : Nat) : memRead rd a n < 2 ^ (8 * n) := by
  induction n generalizing a with
  | zero => simp [memRead]
  | succ n ih =>
    have := ih (a + 1)
    have := (rd a).isLt
    rw [memRead_cons, show 8 * (n + 1) = 8 + 8 * n by omega, pow_add]
    omega

/-- `memRead` depends on the bytes it reads alone. -/
theorem memRead_congr {rd rd' : Nat → Byte} {a a' n : Nat} (h : ∀ j, j < n → rd (a + j) = rd' (a' + j)) :
    memRead rd a n = memRead rd' a' n := by
  induction n with
  | zero => rfl
  | succ n ih => rw [memRead, memRead, ih fun j hj => h j (by omega), h n (by omega)]

/-- The eight little-endian bytes of a value spell the value. -/
theorem memRead_bytesLe (x : U64) : memRead (bytesLe x) 0 8 = x.toNat := by
  have part : ∀ n, n ≤ 8 → memRead (bytesLe x) 0 n = x.toNat % 2 ^ (8 * n) := by
    intro n hn
    induction n with
    | zero => simp [memRead, Nat.mod_one]
    | succ n ih =>
      have hb : (bytesLe x (0 + n)).toNat = x.toNat / 2 ^ (8 * n) % 2 ^ 8 := by
        simp [bytesLe, byteOf, BitVec.extractLsb'_toNat, Nat.shiftRight_eq_div_pow]
      rw [memRead, ih (by omega), hb, show 8 * (n + 1) = 8 * n + 8 by omega, pow_add, Nat.mod_mul,
        Nat.mul_comm (2 ^ (8 * n))]
  rw [part 8 le_rfl]
  exact Nat.mod_eq_of_lt x.isLt

/-- The register index of a hash is its top `p` bits, below `2^p` (R241). -/
theorem Hll.index_eq {p : Nat} (hp : p ≤ 64) (x : U64) :
    Hll.index p x = x.toNat / 2 ^ (64 - p) ∧ Hll.index p x < 2 ^ p := by
  have e : Hll.index p x = x.toNat / 2 ^ (64 - p) := by simp [Hll.index, Nat.shiftRight_eq_div_pow]
  refine ⟨e, e ▸ Nat.div_lt_of_lt_mul ?_⟩
  rw [← pow_add, show 64 - p + p = 64 by omega]
  exact x.isLt

end Sys2Proof.Machine
end

