-- ==== Sys2Proof/Laws/Invariant.lean ====
section
/-! SUPPORT. Every shared operation keeps the invariant of the state, said once for each. -/

namespace Sys2Proof.Machine

/-- The array's bits fill the live bytes (R8, R67). -/
theorem State.live_bits {s : State} (hp : 4 ≤ s.p) : 8 * s.nbytes = s.m * s.w := by
  have h : 2 ^ s.p = 8 * 2 ^ (s.p - 3) := by
    rw [show (8 : Nat) = 2 ^ 3 by rfl, ← pow_add]; congr 1; omega
  simp only [State.nbytes, State.m, h]; ring

/-- A register's field ends within the live bytes. -/
theorem State.field_end {s : State} (hp : 4 ≤ s.p) {i : Nat} (hi : i < s.m) : i * s.w + s.w ≤ 8 * s.nbytes := by
  rw [State.live_bits hp, ← Nat.succ_mul]; exact Nat.mul_le_mul_right _ hi

/-- NBYTES as the source's `m * w / 8` (R8). -/
theorem State.nbytes_eq {s : State} (hp : 4 ≤ s.p) : s.nbytes = 2 ^ s.p * s.w / 8 := by
  have := State.live_bits hp; simp only [State.m] at this; omega

theorem errCodes_code {e : ErrorCode} (h : e ≠ .corruptData) : e.code ∈ errCodes := by
  cases e <;> first | exact absurd rfl h | decide

variable {s : State}

/-- The invariant looks at the parameters, CFG, ERR and the two memories only. -/
theorem State.Inv.congr {t : State} (h : s.Inv) (hp : t.params = s.params) (hc : t.cfg = s.cfg) (hm : t.msg = s.msg)
    (hr : t.raw = s.raw) (he : t.status.err ∈ errCodes) : t.Inv := by
  obtain ⟨h1, h2, h3, h4, h5, h6, h7, h8⟩ := h
  have hpp : t.p = s.p := by unfold State.p; rw [hc]
  have hw : t.w = s.w := by unfold State.w; rw [hc]
  have hn : t.nbytes = s.nbytes := by unfold State.nbytes; rw [hpp, hw]
  exact ⟨hp ▸ h1, by rw [hc, hpp, hw, hp]; exact h2, by rw [hc]; exact h3, he, hm ▸ h5, by rw [hm, hp]; exact h6,
    hr ▸ h7, by rw [hn, hr]; exact h8⟩

theorem State.Inv.raiseError (h : s.Inv) {e : ErrorCode} (he : e ≠ .corruptData) : (s.raiseError e).Inv :=
  h.congr rfl rfl rfl rfl (errCodes_code he)

theorem State.Inv.succeed (h : s.Inv) : s.succeed.Inv :=
  h.congr rfl rfl rfl rfl (by simp [Status.succeed, errCodes])

theorem State.Inv.setRes0 (h : s.Inv) (v : U64) : (s.setRes0 v).Inv := h.congr rfl rfl rfl rfl h.err

theorem State.Inv.setRes (h : s.Inv) (v0 v1 : U64) : (s.setRes v0 v1).Inv := h.congr rfl rfl rfl rfl h.err

theorem State.Inv.reply (h : s.Inv) (r : Reply) : (s.reply r).Inv := h.congr rfl rfl rfl rfl h.err

theorem State.Inv.storeReg (h : s.Inv) (n : Nat) (v : U64) : (s.storeReg n v).Inv := by
  refine h.congr (by simp) (by simp) (by simp) (by simp) ?_
  unfold State.storeReg
  split
  · unfold Status.hostWrite; dsimp only; split <;> exact h.err
  all_goals exact h.err

/-- Replacing RAW by another canonical memory of live bytes. -/
theorem State.Inv.withRaw (h : s.Inv) {r : List Host.Cell} (h1 : Memory.wf Memory.rawBlank r = true)
    (h2 : Memory.below s.nbytes r = true) : ({ s with raw := r } : State).Inv :=
  ⟨h.params, h.configured, h.unconfigured, h.err, h.msgForm, h.msgSize, h1, h2⟩

theorem State.Inv.setField (h : s.Inv) (hv : s.cfg.valid = true) {i : Nat} (hi : i < s.m) (v : Byte) :
    (s.setField i v).Inv := by
  obtain ⟨hp, -, hw, -⟩ := h.configured hv
  exact h.withRaw (wf_fieldSet _ _ _ h.rawForm) (below_fieldSet _ hw (State.field_end hp hi) h.rawSize)

theorem State.Inv.maxField (h : s.Inv) (hv : s.cfg.valid = true) {i : Nat} (hi : i < s.m) (v : Byte) :
    (s.maxField i v).Inv := by
  obtain ⟨-, e⟩ | ⟨-, e⟩ := maxField_cases s i v <;> rw [e]
  · exact h.setField hv hi v
  · exact h

theorem State.Inv.setRawByte (h : s.Inv) {a : Nat} (ha : a < s.nbytes) (b : Byte) : (s.setRawByte a b).Inv :=
  h.withRaw (Memory.wf_write _ _ h.rawForm) (Memory.below_write _ ha h.rawSize)

theorem State.Inv.zeroFill (h : s.Inv) : s.zeroFill.Inv := h.withRaw (Memory.wf_nil _) (Memory.below_nil _)

/-- CONFIG's effect, whatever the array was before. -/
theorem State.Inv.construct (h : s.Inv) {p w : U64} (hp : 4 ≤ p.toNat) (hp31 : p.toNat ≤ 31)
    (hpm : p.toNat ≤ s.params.pMax) (hw : 1 ≤ w.toNat) (hw8 : w.toNat ≤ 8) : (s.setCfg p w).zeroFill.Inv := by
  refine ⟨h.params, fun _ => ?_, fun hv => absurd hv (by simp), h.err, h.msgForm, h.msgSize, Memory.wf_nil _, Memory.below_nil _⟩
  have e1 : (s.setCfg p w).zeroFill.p = p.toNat := by
    simp only [State.p, State.zeroFill_cfg, State.setCfg_cfg, BitVec.toNat_setWidth]; omega
  have e2 : (s.setCfg p w).zeroFill.w = w.toNat := by
    simp only [State.w, State.zeroFill_cfg, State.setCfg_cfg, BitVec.toNat_setWidth]; omega
  rw [e1, e2]
  exact ⟨hp, hpm, hw, hw8⟩

theorem State.Inv.writeMsg (h : s.Inv) (a : Nat) (b : Byte) : (s.writeMsg a b).Inv := by
  unfold State.writeMsg
  split
  next ha =>
    exact ⟨h.params, h.configured, h.unconfigured, h.err, Memory.wf_write _ _ h.msgForm,
      Memory.below_write (blank := Memory.msgBlank) b ha h.msgSize, h.rawForm, h.rawSize⟩
  · exact h

theorem State.Inv.hostReset (h : s.Inv) : s.hostReset.Inv :=
  ⟨h.params, fun hv => absurd hv (by simp), fun _ => ⟨rfl, rfl⟩, by simp [errCodes], Memory.wf_nil _, Memory.below_nil _,
    Memory.wf_nil _, Memory.below_nil _⟩

/-- Two arrays of the same shape with the same registers are the same memory (R67). -/
theorem raw_eq_of_get {s t : State} (hs : s.Inv) (ht : t.Inv) (hv : s.cfg.valid = true) (hc : t.cfg = s.cfg)
    (h : ∀ i, i < s.m → t.get i = s.get i) : t.raw = s.raw := by
  obtain ⟨hp, -, hw, hw8⟩ := hs.configured hv
  have hw' : t.w = s.w := by unfold State.w; rw [hc]
  have hp' : t.p = s.p := by unfold State.p; rw [hc]
  refine Memory.raw_ext ht.rawForm hs.rawForm fun a => ?_
  by_cases ha : a < s.nbytes
  · apply BitVec.eq_of_getLsbD_eq
    intro k hk
    have hq : (8 * a + (7 - k)) < s.m * s.w := by rw [← State.live_bits hp]; omega
    have hi : (8 * a + (7 - k)) / s.w < s.m := Nat.div_lt_of_lt_mul (by rw [Nat.mul_comm s.w]; exact hq)
    have hdm := Nat.div_add_mod (8 * a + (7 - k)) s.w
    have hmod := Nat.mod_lt (8 * a + (7 - k)) (show 0 < s.w by omega)
    generalize (8 * a + (7 - k)) / s.w = i at *
    generalize (8 * a + (7 - k)) % s.w = r at *
    rw [Nat.mul_comm] at hdm
    have e1 := fieldGet_getLsbD t.rawByte (w := s.w) (i := i) (k := s.w - 1 - r) hw8 (by omega)
    have e2 := fieldGet_getLsbD s.rawByte (w := s.w) (i := i) (k := s.w - 1 - r) hw8 (by omega)
    rw [show i * s.w + (s.w - 1 - (s.w - 1 - r)) = 8 * a + (7 - k) by omega,
      show (8 * a + (7 - k)) / 8 = a by omega, show 7 - (8 * a + (7 - k)) % 8 = k by omega] at e1 e2
    have hg := h i hi
    unfold State.get at hg
    rw [hw'] at hg
    show (t.rawByte a).getLsbD k = (s.rawByte a).getLsbD k
    rw [← e1, ← e2, BitVec.eq_of_toNat_eq hg]
  · have e1 : Memory.get? s.raw a = none := Memory.get?_below hs.rawSize (by omega)
    have hn : t.nbytes = s.nbytes := by unfold State.nbytes; rw [hp', hw']
    have e2 : Memory.get? t.raw a = none := Memory.get?_below ht.rawSize (by omega)
    unfold Memory.rawRead; rw [e1, e2]

end Sys2Proof.Machine
end

