-- ==== Sys2Proof/Laws/Logarithm.lean ====
section
/-! SUPPORT. The bounds of `Machine/Logarithm.lean` enclose the true natural logarithm, and how far apart they are
(spec/44_hll.md R254; spec/93_implementation_defined.md U6). -/

namespace Sys2Proof.Machine.Logarithm

theorem cast_series (t : Rat) (n : Nat) :
    ((series t n : Rat) : ℝ) = ∑ i ∈ Finset.range n, (t : ℝ) ^ (2 * i + 1) / (2 * (i : ℝ) + 1) := by
  induction n with
  | zero => simp [series]
  | succ n ih => rw [Finset.sum_range_succ, series]; push_cast; rw [ih]

theorem cast_rest (t : Rat) (n : Nat) : ((rest t n : Rat) : ℝ) = (t : ℝ) ^ (2 * n + 1) / (1 - (t : ℝ) ^ 2) := by
  simp [rest]

/-- The series is below the logarithm of `(1+t)/(1-t)`, and with the rest it is above. -/
theorem series_encloses {t : Rat} (h0 : 0 ≤ t) (h1 : t < 1) (n : Nat) :
    2 * ((series t n : Rat) : ℝ) ≤ Real.log ((1 + (t : ℝ)) / (1 - t)) ∧
    Real.log ((1 + (t : ℝ)) / (1 - t)) ≤ 2 * (((series t n : Rat) : ℝ) + ((rest t n : Rat) : ℝ)) := by
  have h0' : (0 : ℝ) ≤ t := by exact_mod_cast h0
  have h1' : (t : ℝ) < 1 := by exact_mod_cast h1
  have hl := Real.sum_range_le_log_div h0' h1' n
  have hu := Real.log_div_le_sum_range_add h0' h1' n
  rw [cast_series, cast_rest]
  constructor <;> linarith

/-- `2^k <= x < 2^(k+1)` for `k = exponent x`. -/
theorem exponent_spec {x : Rat} (hx : 1 ≤ x) : 2 ^ exponent x ≤ x ∧ x < 2 ^ (exponent x + 1) := by
  have hf : (1 : ℤ) ≤ x.floor := Rat.le_floor_iff.2 (by exact_mod_cast hx)
  have hn : x.floor.toNat ≠ 0 := by omega
  have hcast : ((x.floor.toNat : ℕ) : ℤ) = x.floor := Int.toNat_of_nonneg (by omega)
  have hcastQ : ((x.floor.toNat : ℕ) : Rat) = ((x.floor : ℤ) : Rat) := by exact_mod_cast congrArg (Int.cast (R := Rat)) hcast
  constructor
  · have h1 : 2 ^ exponent x ≤ x.floor.toNat := Nat.log2_self_le hn
    have h2 : ((x.floor.toNat : ℕ) : Rat) ≤ x := by
      have : ((x.floor : ℤ) : Rat) ≤ x := Rat.le_floor_iff.1 le_rfl
      exact hcastQ ▸ this
    calc (2 : Rat) ^ exponent x = ((2 ^ exponent x : ℕ) : Rat) := by push_cast; rfl
      _ ≤ ((x.floor.toNat : ℕ) : Rat) := by exact_mod_cast h1
      _ ≤ x := h2
  · have h1 : x.floor.toNat < 2 ^ (exponent x + 1) := Nat.lt_log2_self
    have h2 : x < ((x.floor.toNat + 1 : ℕ) : Rat) := by
      have : x < ((x.floor + 1 : ℤ) : Rat) := Rat.floor_lt_iff.1 (by omega)
      calc x < ((x.floor + 1 : ℤ) : Rat) := this
        _ = ((x.floor.toNat + 1 : ℕ) : Rat) := by push_cast; rw [hcastQ]
    calc x < ((x.floor.toNat + 1 : ℕ) : Rat) := h2
      _ ≤ ((2 ^ (exponent x + 1) : ℕ) : Rat) := by exact_mod_cast h1
      _ = 2 ^ (exponent x + 1) := by push_cast; rfl

/-- `x / 2^k = (1+t)/(1-t)` with `0 <= t < 1/3`. -/
theorem argument_spec {x : Rat} (hx : 1 ≤ x) :
    0 ≤ argument x ∧ argument x < 1 / 3 ∧ x / 2 ^ exponent x = (1 + argument x) / (1 - argument x) := by
  obtain ⟨hlo, hhi⟩ := exponent_spec hx
  have hp : (0 : Rat) < 2 ^ exponent x := by positivity
  have hz1 : 1 ≤ x / 2 ^ exponent x := (one_le_div hp).2 hlo
  have hz2 : x / 2 ^ exponent x < 2 := by
    rw [div_lt_iff₀ hp]; rw [pow_succ] at hhi; linarith
  have harg : argument x = (x / 2 ^ exponent x - 1) / (x / 2 ^ exponent x + 1) := rfl
  generalize x / 2 ^ exponent x = z at *
  have hz : (0 : Rat) < z + 1 := by linarith
  refine ⟨?_, ?_, ?_⟩
  · rw [harg]; exact div_nonneg (by linarith) hz.le
  · rw [harg, div_lt_div_iff₀ hz (by norm_num)]; linarith
  · have h1 : 1 + argument x = 2 * z / (z + 1) := by rw [harg]; field_simp; ring
    have h2 : 1 - argument x = 2 / (z + 1) := by rw [harg]; field_simp; ring
    rw [h1, h2]; field_simp

/-- The true logarithm is between the two bounds. -/
theorem encloses_log {x : Rat} (hx : 1 ≤ x) :
    ((lower x : Rat) : ℝ) ≤ Real.log x ∧ Real.log x ≤ ((upper x : Rat) : ℝ) := by
  obtain ⟨ht0, ht1, hz⟩ := argument_spec hx
  have hx0 : (0 : ℝ) < x := by have : (1 : ℝ) ≤ x := by exact_mod_cast hx
                               linarith
  have hp : (0 : ℝ) < 2 ^ exponent x := by positivity
  have hlog2 : Real.log 2 = Real.log ((1 + ((1 / 3 : Rat) : ℝ)) / (1 - ((1 / 3 : Rat) : ℝ))) := by norm_num
  have hlog : Real.log x =
      exponent x * Real.log 2 + Real.log ((1 + (argument x : ℝ)) / (1 - argument x)) := by
    have hz' : (x : ℝ) / 2 ^ exponent x = (1 + (argument x : ℝ)) / (1 - argument x) := by exact_mod_cast hz
    rw [← hz', Real.log_div hx0.ne' hp.ne', Real.log_pow]; ring
  obtain ⟨a1, a2⟩ := series_encloses (t := 1 / 3) (by norm_num) (by norm_num) (terms (exponent x))
  obtain ⟨b1, b2⟩ := series_encloses ht0 (by linarith) (terms (exponent x))
  rw [← hlog2] at a1 a2
  have hk : (0 : ℝ) ≤ exponent x := by positivity
  have c1 := mul_le_mul_of_nonneg_left a1 hk
  have c2 := mul_le_mul_of_nonneg_left a2 hk
  rw [hlog]
  unfold lower upper
  push_cast
  constructor
  · linarith
  · linarith

theorem rest_nonneg {t : Rat} (h0 : 0 ≤ t) (h1 : t ≤ 1 / 3) (n : Nat) : 0 ≤ rest t n := by
  unfold rest
  have : t ^ 2 ≤ 1 := by nlinarith
  exact div_nonneg (by positivity) (by linarith)

theorem rest_mono {t : Rat} (h0 : 0 ≤ t) (h1 : t ≤ 1 / 3) (n : Nat) : rest t n ≤ rest (1 / 3) n := by
  unfold rest
  have h2 : t ^ 2 ≤ (1 / 3) ^ 2 := by nlinarith
  exact div_le_div₀ (by positivity) (pow_le_pow_left₀ h0 h1 _) (by norm_num) (by linarith)

/-- The rest at `1/3` pays for `k + 1` logarithms of 2. -/
theorem rest_terms (k : Nat) : 2 * ((k + 1) * rest (1 / 3) (terms k)) ≤ 1 / 2 ^ 200 := by
  have pow9 : ∀ j : Nat, 2 ^ (j + 1) ≤ 9 ^ j + 1 := by
    intro j
    induction j with
    | zero => norm_num
    | succ j ih => rw [pow_succ, pow_succ 9]; omega
  have hk : k + 1 ≤ 9 ^ Nat.log2 (k + 1) :=
    Nat.lt_succ_iff.1 (lt_of_lt_of_le Nat.lt_log2_self (pow9 _))
  have hq : (k : Rat) + 1 ≤ 9 ^ Nat.log2 (k + 1) := by exact_mod_cast hk
  have hp : (0 : Rat) < 9 ^ Nat.log2 (k + 1) := by positivity
  have hr : rest (1 / 3) (terms k) = 3 / 8 / 9 ^ 64 / 9 ^ Nat.log2 (k + 1) := by
    have h9 : ((1 : Rat) / 3) ^ (2 * terms k + 1) = 1 / 3 / (9 ^ 64 * 9 ^ Nat.log2 (k + 1)) := by
      rw [pow_succ, pow_mul, ← pow_add, show (64 + Nat.log2 (k + 1)) = terms k from rfl,
        show ((1 : Rat) / 3) ^ 2 = 1 / 9 by norm_num, one_div_pow]
      ring
    unfold rest
    rw [h9]
    norm_num
    ring
  rw [hr, mul_div_assoc', ← mul_div_assoc, div_le_iff₀ hp]
  have h64 : (2 : Rat) * (3 / 8 / 9 ^ 64) ≤ 1 / 2 ^ 200 := by norm_num
  calc 2 * (((k : Rat) + 1) * (3 / 8 / 9 ^ 64)) = ((k : Rat) + 1) * (2 * (3 / 8 / 9 ^ 64)) := by ring
    _ ≤ 9 ^ Nat.log2 (k + 1) * (1 / 2 ^ 200) := mul_le_mul hq h64 (by positivity) hp.le
    _ = 1 / 2 ^ 200 * 9 ^ Nat.log2 (k + 1) := mul_comm _ _

/-- The bounds of `ln x` are at most 2^-200 apart. -/
theorem spread {x : Rat} (hx : 1 ≤ x) : lower x ≤ upper x ∧ upper x - lower x ≤ 1 / 2 ^ 200 := by
  obtain ⟨ht0, ht1, -⟩ := argument_spec hx
  have hk : (0 : Rat) ≤ exponent x := by positivity
  have e : upper x - lower x =
      2 * (exponent x * rest (1 / 3) (terms (exponent x)) + rest (argument x) (terms (exponent x))) := by
    unfold upper lower; ring
  have h0 := rest_nonneg ht0 ht1.le (terms (exponent x))
  have h3 := rest_nonneg (t := 1 / 3) (by norm_num) le_rfl (terms (exponent x))
  have hm := rest_mono ht0 ht1.le (terms (exponent x))
  have hr := rest_terms (exponent x)
  constructor
  · have := mul_nonneg hk h3; linarith
  · rw [e]; linarith

/-- `nearest` is `floor(F + 1/2)`. -/
theorem nearest_spec {f : Rat} (hf : 0 ≤ f) : (nearest f : Rat) ≤ f + 1 / 2 ∧ f + 1 / 2 < (nearest f : Rat) + 1 := by
  have h0 : (0 : ℤ) ≤ (f + 1 / 2).floor := Rat.le_floor_iff.2 (by push_cast; linarith)
  have hcast : ((nearest f : ℕ) : ℤ) = (f + 1 / 2).floor := Int.toNat_of_nonneg h0
  have hc : ((nearest f : ℕ) : Rat) = (((f + 1 / 2).floor : ℤ) : Rat) := by
    exact_mod_cast congrArg (Int.cast (R := Rat)) hcast
  rw [hc]
  refine ⟨Rat.le_floor_iff.1 le_rfl, ?_⟩
  have := Rat.floor_lt_iff.1 (show (f + 1 / 2).floor < (f + 1 / 2).floor + 1 by omega)
  exact_mod_cast this

/-- `nearestLn` is one of the two roundings of the bounds. -/
theorem nearestLn_cases (c : Nat) (x : Rat) :
    nearestLn c x = nearest (c * lower x) ∨ nearestLn c x = nearest (c * upper x) := by
  unfold nearestLn
  dsimp only
  split
  · exact .inl rfl
  · split
    · exact .inr rfl
    · exact .inl rfl

/-- The lower bound of a logarithm of at least 1 is not negative. -/
theorem lower_nonneg {x : Rat} (hx : 1 ≤ x) : 0 ≤ lower x := by
  obtain ⟨h0, h1, -⟩ := argument_spec hx
  have hs : ∀ {t : Rat}, 0 ≤ t → ∀ n, 0 ≤ series t n := by
    intro t ht n
    induction n with
    | zero => exact le_rfl
    | succ n ih => unfold series; positivity
  have := hs h0 (terms (exponent x))
  have := hs (t := 1/3) (by norm_num) (terms (exponent x))
  unfold lower; positivity

/-- Rounding keeps the order. -/
theorem nearest_mono {f g : Rat} (h : f ≤ g) : nearest f ≤ nearest g := by
  unfold nearest
  apply Int.toNat_le_toNat
  rw [Rat.le_floor_iff]
  have := Rat.le_floor_iff.1 (le_refl (f + 1/2).floor)
  linarith

/-- `nearestLn` rounds `c * ln x` to the nearest integer, or within 2^-100 of a half-integer to one of the two neighbours. -/
theorem nearestLn_spec {c : Nat} {x : Rat} (hx : 1 ≤ x) (hs : c ≤ 2 ^ 100) :
    |(nearestLn c x : ℝ) - c * Real.log x| ≤ 1 / 2 + 1 / 2 ^ 100 ∧
    ((∀ k : ℤ, 1 / 2 ^ 100 < |c * Real.log x - (k + 1 / 2)|) →
      (nearestLn c x : ℝ) ≤ c * Real.log x + 1 / 2 ∧ c * Real.log x + 1 / 2 < nearestLn c x + 1) := by
  obtain ⟨e1, e2⟩ := encloses_log hx
  obtain ⟨s1, s2⟩ := spread hx
  have hc : (0 : Rat) ≤ c := by positivity
  have hcR : (0 : ℝ) ≤ c := by positivity
  have hl := lower_nonneg hx
  have L0 : 0 ≤ c * lower x := mul_nonneg hc hl
  have U0 : 0 ≤ c * upper x := mul_nonneg hc (hl.trans s1)
  have hsp : c * upper x - c * lower x ≤ 1 / 2 ^ 100 := by
    have hcq : (c : Rat) ≤ 2 ^ 100 := by exact_mod_cast hs
    calc c * upper x - c * lower x = c * (upper x - lower x) := by ring
      _ ≤ 2 ^ 100 * (1 / 2 ^ 200) := mul_le_mul hcq s2 (by linarith) (by positivity)
      _ = 1 / 2 ^ 100 := by norm_num
  have hmono : nearest (c * lower x) ≤ nearest (c * upper x) := nearest_mono (by nlinarith)
  obtain ⟨l1, l2⟩ := nearest_spec L0
  obtain ⟨u1, u2⟩ := nearest_spec U0
  have f1 : ((c * lower x : Rat) : ℝ) ≤ c * Real.log x := by push_cast; exact mul_le_mul_of_nonneg_left e1 hcR
  have f2 : c * Real.log x ≤ ((c * upper x : Rat) : ℝ) := by push_cast; exact mul_le_mul_of_nonneg_left e2 hcR
  have hn := nearestLn_cases c x
  generalize c * lower x = lo at *
  generalize c * upper x = hi at *
  have cl1 : ((nearest lo : Nat) : ℝ) ≤ (lo : ℝ) + 1 / 2 := by have := (Rat.cast_le (K := ℝ)).2 l1; push_cast at this; exact this
  have cl2 : (lo : ℝ) + 1 / 2 < ((nearest lo : Nat) : ℝ) + 1 := by have := (Rat.cast_lt (K := ℝ)).2 l2; push_cast at this; exact this
  have cu1 : ((nearest hi : Nat) : ℝ) ≤ (hi : ℝ) + 1 / 2 := by have := (Rat.cast_le (K := ℝ)).2 u1; push_cast at this; exact this
  have cu2 : (hi : ℝ) + 1 / 2 < ((nearest hi : Nat) : ℝ) + 1 := by have := (Rat.cast_lt (K := ℝ)).2 u2; push_cast at this; exact this
  have csp : (hi : ℝ) - (lo : ℝ) ≤ 1 / 2 ^ 100 := by
    have := (Rat.cast_le (K := ℝ)).2 hsp
    push_cast at this; exact this
  generalize (c : ℝ) * Real.log x = F at *
  generalize nearestLn c x = n at *
  generalize nearest lo = a at *
  generalize nearest hi = b at *
  have hmR : (a : ℝ) ≤ b := by exact_mod_cast hmono
  constructor
  · rw [abs_le]
    rcases hn with rfl | rfl <;> constructor <;> linarith
  · intro hk
    have hab : a = b := by
      by_contra hne
      have hlt : (a : ℝ) + 1 ≤ b := by exact_mod_cast (Nat.lt_of_le_of_ne hmono hne)
      have h1 := hk (a : ℤ)
      push_cast at h1
      rw [lt_abs] at h1
      rcases h1 with h1 | h1 <;> linarith
    subst hab
    have hn : n = a := by rcases hn with h | h <;> exact h
    subst hn
    constructor
    · by_contra hc
      have h1 := hk ((n : ℤ) - 1)
      push_cast at h1
      rw [lt_abs] at h1
      rcases h1 with h1 | h1 <;> linarith
    · linarith
end Sys2Proof.Machine.Logarithm

namespace Sys2Proof.Machine.Hll

/-- An estimate that fits 64 bits is held whole. -/
theorem estimateWord_toNat {n : Nat} (h : n < 2 ^ 64) : (estimateWord n).toNat = n := by
  unfold estimateWord
  rw [if_pos h, BitVec.toNat_ofNat]
  exact Nat.mod_eq_of_lt h

/-- The sum by halves is the sum over all `2^k` indices. -/
theorem sumOver_eq (f : Nat → Nat) (k base : Nat) : sumOver f k base = ∑ i ∈ Finset.range (2 ^ k), f (base + i) := by
  induction k generalizing base with
  | zero => simp [sumOver]
  | succ k ih =>
    rw [sumOver, ih, ih, pow_succ, mul_two, Finset.sum_range_add]
    simp [Nat.add_assoc]

end Sys2Proof.Machine.Hll
end

