-- ==== Sys2Proof/Laws/PerInstr.lean ====
section
/-! SUPPORT. Statements about every instruction, one lemma per constructor. -/

namespace Sys2Proof.Laws.EncodesLegal

/-- A well-formed instruction's word passes the three checks of R92. -/
def Statement (i : Instr) : Prop := i.wellFormed = true → CommandWord.legal (encode i) = true

theorem config : Statement .config := fun _ => by decide
theorem rget : Statement .rget := fun _ => by decide
theorem rset : Statement .rset := fun _ => by decide
theorem rclr : Statement .rclr := fun _ => by decide
theorem rawrd : Statement .rawrd := fun _ => by decide
theorem rawwr : Statement .rawwr := fun _ => by decide
theorem rmax : Statement .rmax := fun _ => by decide
theorem h32 : Statement .h32 := fun _ => by decide
theorem h128 : Statement .h128 := fun _ => by decide
theorem h32w1 : Statement .h32w1 := fun _ => by decide
theorem h32w2 : Statement .h32w2 := fun _ => by decide
theorem h64w1 : Statement .h64w1 := fun _ => by decide
theorem h64w2 : Statement .h64w2 := fun _ => by decide
theorem put (src : HashSource) : Statement (.put src) := fun _ => by cases src <;> decide
theorem est : Statement .est := fun _ => by decide
theorem relerr : Statement .relerr := fun _ => by decide

end Sys2Proof.Laws.EncodesLegal
end

