-- ==== Sys2Proof/Tests/Slice0.lean ====
section
/-! SUPPORT. Tests: words the decoder refuses and reads, one step of each instruction on values of spec/95_test_vectors.md and of the
rules' examples, and for each statement with hypotheses a state and operands that meet them, at the ends of their ranges. -/

namespace Sys2Proof.Tests

open Sys2Proof Sys2Proof.Machine Sys2Proof.Spec

/-! ## Small states -/

/-- After reset and CONFIG with these `p` and `w`, RAW holding these cells. -/
def ready (p : BitVec 5) (w : BitVec 4) (raw : List Host.Cell) : State :=
  { State.reset with cfg := { p := p, w := w, valid := true }, raw := raw }

/-- The same with operands. -/
def readyAt (p : BitVec 5) (w : BitVec 4) (raw : List Host.Cell) (a0 a1 : U64) : State :=
  { ready p w raw with a0 := a0, a1 := a1 }

/-- A block with the largest array, configured. -/
def readyMax : State :=
  { State.resetWith { Config.Params.default with pMax := 31 } with cfg := { p := 31, w := 8, valid := true } }

/-- Cells from address `a` on. -/
def cells (a : Nat) : List Byte → List Host.Cell
  | [] => []
  | b :: rest => (a, b) :: cells (a + 1) rest

/-- Sixteen registers of eight bits, all holding `v`. -/
def flat (v : Byte) : State := ready 4 8 (cells 0 (List.replicate 16 v))

/-- The first `n` bytes of the pattern PAT of 95_test_vectors.md section 3 in MSG, to be hashed. -/
def pat (n : Nat) (seed : U32) : State :=
  { State.reset with
    a1 := BitVec.ofNat 64 n
    seed := seed
    msg := cells 0 ((List.range n).map fun i => BitVec.ofNat 8 (0xA5 + 7 * i)) }

/-- "hello" in MSG, to be hashed. -/
def hello : State := { State.reset with a1 := 5, msg := cells 0 [0x68, 0x65, 0x6C, 0x6C, 0x6F] }

/-- Two words in A0 and A1. -/
def words (a0 a1 : U64) (seed : U32) : State := { State.reset with a0 := a0, a1 := a1, seed := seed }

/-- One action pending, after reset. -/
def host (h : HostAction) : State := { State.reset with pending := [h] }

/-- The next state, if that is the outcome. -/
def nextOf : Host.Outcome State Fault Refusal → Option State
  | .next s => some s
  | .fault _ => none
  | .refused _ => none

/-- RES0 of the next state. -/
def res0Of (o : Host.Outcome State Fault Refusal) : Option U64 := (nextOf o).map State.res0

/-- RES0 and RES1 of the next state. -/
def resOf (o : Host.Outcome State Fault Refusal) : Option (U64 × U64) := (nextOf o).map fun s => (s.res0, s.res1)

/-- STATUS of the next state, as the host reads it. -/
def statusOf (o : Host.Outcome State Fault Refusal) : Option U64 := (nextOf o).map fun s => s.status.word

/-- RAW of the next state. -/
def rawOf (o : Host.Outcome State Fault Refusal) : Option (List Host.Cell) := (nextOf o).map State.raw

/-- A register of the next state. -/
def getOf (o : Host.Outcome State Fault Refusal) (i : Nat) : Option Nat := (nextOf o).map fun s => s.get i

/-! ## Words that are refused (R92), one for each check of WellFormed -/

theorem test_reserved_bit_refused :
    CommandWord.reservedOk 0x10000010 = false ∧ CommandWord.legal 0x10000010 = false ∧
    decode 0x10000010 = .error .reservedBits ∧ decode 0x00000210 = .error .reservedBits := by decide

theorem test_unassigned_opcode_refused :
    CommandWord.opcodeOk 0x00000000 = false ∧ CommandWord.legal 0x00000000 = false ∧
    decode 0x00000000 = .error .unassignedOpcode ∧ decode 0x00000017 = .error .unassignedOpcode ∧
    decode 0x00000033 = .error .unassignedOpcode := by decide

theorem test_src_refused :
    CommandWord.srcOk 0x00000111 = false ∧ CommandWord.legal 0x00000111 = false ∧
    decode 0x00000111 = .error .srcNotAllowed ∧ decode 0x00000131 = .error .srcNotAllowed := by decide

theorem test_all_ones_refused : decode 0xFFFFFFFF = .error .reservedBits := by decide

/-! ## Words written out from R91 and R93 -/

theorem test_decode_array_commands :
    decode 0b00000000000000000000000_0_00010000 = .ok .config ∧
    decode 0b00000000000000000000000_0_00010001 = .ok .rget ∧
    decode 0b00000000000000000000000_0_00010010 = .ok .rset ∧
    decode 0b00000000000000000000000_0_00010011 = .ok .rclr ∧
    decode 0b00000000000000000000000_0_00010100 = .ok .rawrd ∧
    decode 0b00000000000000000000000_0_00010101 = .ok .rawwr ∧
    decode 0b00000000000000000000000_0_00010110 = .ok .rmax := by decide

theorem test_decode_hash_commands :
    decode 0b00000000000000000000000_0_00100000 = .ok .h32 ∧
    decode 0b00000000000000000000000_0_00100001 = .ok .h128 ∧
    decode 0b00000000000000000000000_0_00100010 = .ok .h32w1 ∧
    decode 0b00000000000000000000000_0_00100011 = .ok .h32w2 ∧
    decode 0b00000000000000000000000_0_00100100 = .ok .h64w1 ∧
    decode 0b00000000000000000000000_0_00100101 = .ok .h64w2 := by decide

theorem test_decode_hll_commands :
    decode 0b00000000000000000000000_0_00110000 = .ok (.put .a0) ∧
    decode 0b00000000000000000000000_1_00110000 = .ok (.put .res0) ∧
    decode 0b00000000000000000000000_0_00110001 = .ok .est ∧
    decode 0b00000000000000000000000_0_00110010 = .ok .relerr := by decide

theorem test_decode_table_word :
    decodeTableWord 32 0x00000010 = some .config ∧ decodeTableWord 32 0x00000130 = some (.put .res0) ∧
    decodeTableWord 32 0x00000000 = none := by decide

/-! ## One step of each instruction -/

/-- R121's example. -/
theorem test_config :
    (nextOf (exec .config (words 4 7 0))).map (fun s => (s.cfg.word, s.raw)) = some (0x80000407, []) := by decide

/-- R121: the operand is compared whole. -/
theorem test_config_wide_operand : statusOf (exec .config (words 0x100000004 7 0)) = some 0x101 := by decide

/-- R126's example: a field in two bytes. -/
theorem test_rget : res0Of (exec .rget (readyAt 4 7 (cells 0 [0xC7, 0xFF, 0x78]) 1 0)) = some 127 := by decide

/-- Section 7.2, `w = 7`: the last register. -/
theorem test_rget_last :
    res0Of (exec .rget (readyAt 4 7
      (cells 0 [0xC7, 0xC3, 0xE8, 0xA2, 0xE9, 0x18, 0xBE, 0x97, 0x63, 0x2F, 0x2F, 0xE3, 0x0C, 0xA6]) 15 0)) = some 38 := by
  decide

/-- Section 7.3: a field in two bytes among ones. -/
theorem test_rset_two_bytes :
    rawOf (exec .rset (readyAt 4 5 (cells 0 (List.replicate 10 0xFF)) 1 22)) =
      some (cells 0 [0xFD, 0xBF, 0xFF, 0xFF, 0xFF, 0xFF, 0xFF, 0xFF, 0xFF, 0xFF]) := by decide

/-- Program P3: the index is checked before the value. -/
theorem test_rset_order : statusOf (exec .rset (readyAt 4 5 [] 16 32)) = some 0x104 := by decide

/-- R135's example. -/
theorem test_rclr : rawOf (exec .rclr (ready 4 7 (cells 0 [0xC7, 0xFF, 0x78]))) = some [] := by decide

/-- Program P3: NOT_CONFIGURED. -/
theorem test_rclr_unconfigured : statusOf (exec .rclr State.reset) = some 0x106 := by decide

/-- Program P3: the last byte. -/
theorem test_rawrd : res0Of (exec .rawrd (readyAt 4 5 [(9, 0x1F)] 9 0)) = some 0x1F := by decide

/-- Program P3: one past it. -/
theorem test_rawrd_range : statusOf (exec .rawrd (readyAt 4 5 [(9, 0x1F)] 10 0)) = some 0x107 := by decide

/-- R141's example. -/
theorem test_rawwr :
    let o := exec .rawwr (readyAt 4 7 [] 1 0xFF)
    getOf o 0 = some 0 ∧ getOf o 1 = some 0x3F ∧ getOf o 2 = some 0x60 ∧ getOf o 3 = some 0 := by decide

/-- Program P3: the byte's value. -/
theorem test_rawwr_overflow : statusOf (exec .rawwr (readyAt 4 5 [] 9 256)) = some 0x102 := by decide

/-- R146's example: register 5 of a `w = 8` array holds 3. -/
theorem test_rmax :
    getOf (exec .rmax (readyAt 4 8 [(5, 3)] 5 2)) 5 = some 3 ∧
    getOf (exec .rmax (readyAt 4 8 [(5, 3)] 5 4)) 5 = some 4 := by decide

/-- Section 3: a tail of three bytes with the top bit set. -/
theorem test_h32 : resOf (exec .h32 (pat 7 0x9747B28C)) = some (0xF9155FD5, 0) := by decide +kernel

/-- Section 3: blocks and a tail. -/
theorem test_h32_long : resOf (exec .h32 (pat 33 0xFFFFFFFF)) = some (0x99D9999E, 0) := by decide +kernel

/-- Section 4: both tail words. -/
theorem test_h128 : resOf (exec .h128 (pat 15 0)) = some (0x12BED2A9C130F426, 0x0421C89ED5293F3A) := by decide +kernel

/-- Section 4: blocks, a tail and a seed with bit 31 set. -/
theorem test_h128_long :
    resOf (exec .h128 (pat 33 0xFFFFFFFF)) = some (0xE2F1BF86FADDB02D, 0x2BA42E86675A1F1F) := by decide +kernel

/-- Section 6. -/
theorem test_h32w1 :
    resOf (exec .h32w1 (words 0x0123456789ABCDEF 0 0)) = some (0xFA908422, 0) ∧
    resOf (exec .h32w1 (words 0x8000000000000000 0 0)) = some (0x516FAF25, 0) := by decide +kernel

/-- Section 6. -/
theorem test_h32w2 :
    resOf (exec .h32w2 (words 0x0123456789ABCDEF 0xFEDCBA9876543210 0)) = some (0xF64A6FBF, 0) := by decide +kernel

/-- Section 6. -/
theorem test_h64w1 :
    resOf (exec .h64w1 (words 0x0123456789ABCDEF 0 0)) = some (0x995BB6C03277035A, 0) := by decide +kernel

/-- Section 6. -/
theorem test_h64w2 :
    resOf (exec .h64w2 (words 0x0123456789ABCDEF 0xFEDCBA9876543210 0x9747B28C)) =
      some (0x1B42E20A8C0F0A70, 0) := by decide +kernel

/-- Section 8: the mask wraps; `rho = 65`. -/
theorem test_put_a0 :
    getOf (exec (.put .a0) (readyAt 4 5 [] 0x1000000000000001 0)) 1 = some 28 ∧
    getOf (exec (.put .a0) (readyAt 4 7 [] 0xF000000000000000 0)) 15 = some 65 := by decide

/-- Section 8: lane0 of "hello" at `p = 14`. -/
theorem test_put_res0 :
    getOf (exec (.put .res0) { ready 14 6 [] with res0 := 0xCBD8A7B341BD9B02 }) 13046 = some 3 := by decide +kernel

/-- Section 9: linear counting, and the large range close to a tie. -/
theorem test_est :
    res0Of (exec .est (ready 4 8 (cells 4 [1, 1, 1, 1, 1, 2, 2, 2, 2, 3, 3, 5]))) = some 22 ∧
    res0Of (exec .est (ready 4 8 (cells 0 [28, 28, 28, 28, 28, 28, 28, 28, 28, 28, 28, 28, 28, 28, 28, 27]))) =
      some 4310068553 := by decide +kernel

/-- Section 9: EST_RANGE. -/
theorem test_est_range : statusOf (exec .est (flat 29)) = some 0x108 := by decide +kernel

/-- Section 9 and R259: `p = 11`, `p = 31`. -/
theorem test_relerr :
    res0Of (exec .relerr (ready 11 5 [])) = some 0x3F978852D0FF33F3 ∧
    res0Of (exec .relerr readyMax) = some 0x3EF78852D0FF33F3 := by decide

/-- R28: a step from reset with a word stored where `withFetchWord` puts it. -/
theorem test_step_runs_the_fetched_word :
    (nextOf (step (({ State.reset with a0 := 4, a1 := 7 } : State).withFetchWord 32 0x10))).map (fun s => s.cfg.word) =
      some 0x80000407 := by decide

/-- R97: an illegal word is an error of the step. -/
theorem test_step_illegal_word : statusOf (step (State.reset.withFetchWord 32 0x111)) = some 0x105 := by decide

/-! ## States that meet the hypotheses of the statements -/

theorem reset_inv : State.reset.Inv :=
  ⟨by decide +kernel, by decide, by decide, by decide, by decide, by decide, by decide, by decide⟩

/-- A configured state meets the invariant if its parts do. -/
theorem ready_of (p : BitVec 5) (w : BitVec 4) (raw : List Host.Cell)
    (h : (4 ≤ p.toNat ∧ p.toNat ≤ 16 ∧ 1 ≤ w.toNat ∧ w.toNat ≤ 8) ∧ Memory.wf Memory.rawBlank raw = true ∧
      Memory.below (2 ^ (p.toNat - 3) * w.toNat) raw = true) : (ready p w raw).Ready :=
  ⟨⟨reset_inv.params, fun _ => h.1, fun hv => absurd hv (by simp [ready]), reset_inv.err, reset_inv.msgForm,
    reset_inv.msgSize, h.2.1, h.2.2⟩, rfl⟩

/-- Operands do not matter to the invariant. -/
theorem readyAt_of {p : BitVec 5} {w : BitVec 4} {raw : List Host.Cell} (h : (ready p w raw).Ready) (a0 a1 : U64) :
    (readyAt p w raw a0 a1).Ready :=
  ⟨⟨h.1.params, h.1.configured, h.1.unconfigured, h.1.err, h.1.msgForm, h.1.msgSize, h.1.rawForm, h.1.rawSize⟩, h.2⟩

theorem ready_4_7 : (ready 4 7 []).Ready := ready_of 4 7 [] (by decide)

theorem ready_16_8 : (ready 16 8 []).Ready := ready_of 16 8 [] (by decide)

theorem ready_4_1 : (ready 4 1 []).Ready := ready_of 4 1 [] (by decide)

theorem flat_ready (v : Byte) (h : Memory.wf Memory.rawBlank (cells 0 (List.replicate 16 v)) = true) : (flat v).Ready :=
  ready_of 4 8 _ ⟨by decide, h, rfl⟩

theorem readyMax_ready : readyMax.Ready :=
  ⟨⟨by decide +kernel, by decide, by decide, by decide, by decide, by decide, by decide, by decide⟩, rfl⟩

/-- Every action can be the next one. -/
theorem witness_pending (h : HostAction) : (host h).pending = h :: [] := rfl

theorem witness_CommandWordsRunAsDecodedOrFailAsIllegal :
    illegalWord ((0x210 : U64).toNat % 2 ^ 32) ∧ illegalWord ((0x110 : U64).toNat % 2 ^ 32) ∧
    illegalWord ((0x33 : U64).toNat % 2 ^ 32) ∧ ¬ illegalWord ((0x130 : U64).toNat % 2 ^ 32) ∧
    ¬ illegalWord ((0xFFFFFFFF00000010 : U64).toNat % 2 ^ 32) := by unfold illegalWord; decide

theorem witness_StepRunsTheDecodedCommand :
    decode ((0xFFFFFFFF00000130 : U64).setWidth 32) = .ok (.put .res0) ∧
    decode ((0x10000010 : U64).setWidth 32) = .error .reservedBits ∧
    decode ((0 : U64).setWidth 32) = .error .unassignedOpcode ∧
    decode ((0x111 : U64).setWidth 32) = .error .srcNotAllowed := by decide

theorem witness_IdleHostLeavesTheBlockAsItIs : State.reset.pending = [] := rfl

theorem witness_RunTakesTheListedActionsInOrder :
    ({ State.reset with pending := Actions.config 4 7 ++ [.reset] } : State).pending = Actions.config 4 7 ++ [.reset] := rfl

/-- A run that has gone wrong, and one that the host's clear keeps from it. -/
theorem witness_RunHasGoneWrongWhenACommandFailed :
    Actions.startsClear State.reset = true ∧
    (∃ t, Actions.run [Actions.cmd .rclr] State.reset = .next t ∧ Actions.goneWrong [Actions.cmd .rclr] t = true) ∧
    CommandFails [Actions.cmd .rclr] State.reset ∧
    (HostAction.reset ∉ [Actions.cmd .rclr] ∧ ∀ v : U64, .writeReg 1 v ∉ [Actions.cmd .rclr]) ∧
    ∃ t, Actions.run [Actions.cmd .rclr, Actions.wrStatus 0x100, Actions.cmd .rclr] State.reset = .next t ∧
      t.status.esticky = true ∧
      Actions.goneWrong [Actions.cmd .rclr, Actions.wrStatus 0x100, Actions.cmd .rclr] t = false :=
  ⟨rfl, ⟨_, rfl, rfl⟩, ⟨[], [], _, _, _, rfl, rfl, rfl, by decide⟩, ⟨by decide, fun v => by simp [Actions.cmd]⟩,
    ⟨_, rfl, rfl, rfl⟩⟩

theorem witness_HostReadsReturnTheRegisterMap (n : Nat) :
    (host (.readReg n)).params.wf = true ∧ (host (.readReg n)).pending = .readReg n :: [] := ⟨reset_inv.params, rfl⟩

theorem witness_HostWritesStoreInTheRegisterMap :
    (∀ n v, (host (.writeReg n v)).pending = .writeReg n v :: []) ∧
    (0x100 : U64).toNat / 2 ^ 8 % 2 = 1 ∧ (0xFFFFFFFFFFFFFFFF : U64).toNat / 2 ^ 8 % 2 = 1 ∧
    (0xFFFFFFFFFFFFFEFF : U64).toNat / 2 ^ 8 % 2 = 0 := ⟨fun _ _ => rfl, by decide⟩

theorem witness_ReadOnlyAndAbsentRegistersIgnoreTheHost :
    (∀ n v, (host (.writeReg n v)).pending = .writeReg n v :: []) ∧ (host (.readReg 9)).pending = .readReg 9 :: [] ∧
    8 < 9 := ⟨fun _ _ => rfl, rfl, by decide⟩

theorem witness_HostReachesEveryByteOfMsg :
    (host (.writeMsg 4095 7)).pending = .writeMsg 4095 7 :: [] ∧ 4095 < (host (.writeMsg 4095 7)).params.msgSize ∧
    (host (.readMsg 4096)).pending = .readMsg 4096 :: [] ∧ (host (.readMsg 4096)).params.msgSize ≤ 4096 := by decide

theorem witness_ResetPutsTheBlockInTheResetState : (host .reset).pending = .reset :: [] := rfl

theorem witness_OnlyResetUnconfiguresTheBlock :
    ∃ s t : State, step s = .next t ∧ s.cfg.valid = true ∧ t.cfg.valid = false :=
  ⟨{ ready 4 7 [] with pending := [.reset] }, _, rfl, rfl, rfl⟩

theorem witness_OnlyTheHostClearsEsticky :
    (∃ s t : State, s.pending = [.reset] ∧ step s = .next t ∧ s.status.esticky = true ∧ t.status.esticky = false) ∧
    ∃ s t : State, s.pending = [.writeReg 1 0x100] ∧ step s = .next t ∧ s.status.esticky = true ∧
      t.status.esticky = false :=
  ⟨⟨{ State.reset with pending := [.reset], status := { err := 6, esticky := true } }, _, rfl, rfl, rfl, rfl⟩,
   ⟨{ State.reset with pending := [.writeReg 1 0x100], status := { err := 6, esticky := true } }, _, rfl, rfl, rfl, rfl⟩⟩

theorem witness_CapIsAConstantThatShowsTheSizes :
    (host .reset).params.wf = true ∧ ∃ t, step (host .reset) = .next t := ⟨by decide +kernel, _, rfl⟩

theorem witness_BusWindowsAreThoseOfTheMap :
    let c := { Config.Params.default with base := 0x4000 }
    0x47 < 0x48 ∧ 0xFFF < 0x1000 ∧ 4095 < c.msgSize ∧ 4094 + 1 < c.msgSize ∧ 0x3FFF < c.base ∧
    c.base + 0x1000 + c.msgSize ≤ 0x6000 := by decide

/-- Every instruction answers a next state somewhere (hypothesis of the statements over all instructions). -/
theorem witness_exec_answers (i : Instr) : ∃ t, exec i State.reset = .next t := by
  cases i <;> exact ⟨_, rfl⟩

theorem witness_FailingCommandChangesStatusOnly :
    (∃ t, exec .rget State.reset = .next t ∧ t.status.err ≠ 0) ∧ decode 0x111 = .error .srcNotAllowed :=
  ⟨⟨_, rfl, by decide⟩, by decide⟩

theorem witness_RaisableErrorsAreThoseOfTheMatrix :
    decode 0x10000010 = .error .reservedBits ∧ decode 0 = .error .unassignedOpcode ∧
    decode 0x111 = .error .srcNotAllowed := by decide

theorem witness_ErrorsAreCheckedInTheOrderOfThePriorities :
    decode 0x111 = .error .srcNotAllowed ∧ ((flat 29).Ready ∧ 5 / 2 * ((flat 29).m : ℚ) < estimateE (flat 29) ∧
      2 ^ 32 ≤ estimateE (flat 29)) ∧
    (State.reset.Inv ∧ needsArray .est = true ∧ State.reset.cfg.valid = false) ∧
    ((readyAt 4 7 [] 16 128).Ready ∧ 2 ^ (readyAt 4 7 [] 16 128).p ≤ (readyAt 4 7 [] 16 128).a0.toNat) ∧
    ((readyAt 4 7 [] 14 256).Ready ∧
      2 ^ (readyAt 4 7 [] 14 256).p * (readyAt 4 7 [] 14 256).w / 8 ≤ (readyAt 4 7 [] 14 256).a0.toNat) ∧
    ((readyAt 4 7 [] 15 128).a0.toNat < 2 ^ (readyAt 4 7 [] 15 128).p ∧
      2 ^ (readyAt 4 7 [] 15 128).w ≤ (readyAt 4 7 [] 15 128).a1.toNat) ∧
    ((readyAt 4 7 [] 13 256).a0.toNat < 2 ^ (readyAt 4 7 [] 13 256).p * (readyAt 4 7 [] 13 256).w / 8 ∧
      256 ≤ (readyAt 4 7 [] 13 256).a1.toNat) ∧
    ((words 4096 1 0).params.msgSize < (words 4096 1 0).a0.toNat + (words 4096 1 0).a1.toNat) ∧
    ((words 3 9 0).a0.toNat < 4 ∧ (words 17 1 0).params.pMax < (words 17 1 0).a0.toNat ∧
      31 < (words 32 1 0).a0.toNat ∧ (words 4 0 0).a1.toNat < 1 ∧ 8 < (words 4 9 0).a1.toNat) :=
  ⟨by decide, ⟨flat_ready _ (by decide), by decide +kernel, by decide +kernel⟩, ⟨reset_inv, by decide⟩,
    ⟨readyAt_of ready_4_7 _ _, by decide⟩, ⟨readyAt_of ready_4_7 _ _, by decide⟩, by decide, by decide, by decide,
    by decide⟩

theorem witness_ResultRegistersAreWrittenByTheirCommandsOnly :
    (∃ t, exec .h32 hello = .next t) ∧ Instr.h32 ≠ .h128 ∧ (∃ t, exec .rclr (ready 4 7 []) = .next t) ∧
    Instr.rclr ∉ [Instr.rget, .rawrd, .h32, .h128, .h32w1, .h32w2, .h64w1, .h64w2, .est, .relerr] :=
  ⟨⟨_, rfl⟩, by decide, ⟨_, rfl⟩, by decide⟩

theorem witness_ConfigurationAndArrayAreWrittenByTheirCommandsOnly :
    (∃ t, exec .rget (ready 4 7 [(0, 1)]) = .next t) ∧ Instr.rget ≠ .config ∧
    Instr.rget ∉ [Instr.config, .rset, .rclr, .rawwr, .rmax, .put .a0, .put .res0] := ⟨⟨_, rfl⟩, by decide⟩

theorem witness_EveryStepKeepsTheInvariant : State.reset.Inv ∧ ∃ t, step State.reset = .next t := ⟨reset_inv, _, rfl⟩

theorem witness_TheInvariantHoldsAfterReset : Config.Params.default.wf = true := by decide +kernel

theorem witness_RegisterIsItsBitsOfTheBitString :
    ((ready 4 1 []).Ready ∧ 15 < (ready 4 1 []).m) ∧ ((ready 16 8 []).Ready ∧ 65535 < (ready 16 8 []).m) :=
  ⟨⟨ready_4_1, by decide⟩, ⟨ready_16_8, by decide⟩⟩

theorem witness_ConfigConstructsAZeroedArray :
    let ok (s : State) := 4 ≤ s.a0.toNat ∧ s.a0.toNat ≤ 31 ∧ s.a0.toNat ≤ s.params.pMax ∧ 1 ≤ s.a1.toNat ∧ s.a1.toNat ≤ 8
    ok (words 4 1 0) ∧ ok (words 16 8 0) ∧ ¬ ok (words 3 1 0) ∧ ¬ ok (words 17 8 0) ∧ ¬ ok (words 4 0 0) ∧
    ¬ ok (words 16 9 0) := by decide

theorem witness_RgetReturnsTheRegister :
    (State.reset.Inv ∧ State.reset.cfg.valid = false) ∧
    ((readyAt 4 7 [] 16 0).Ready ∧ (readyAt 4 7 [] 16 0).m ≤ (readyAt 4 7 [] 16 0).a0.toNat) ∧
    ((readyAt 4 7 [] 15 0).Ready ∧ (readyAt 4 7 [] 15 0).a0.toNat < (readyAt 4 7 [] 15 0).m) :=
  ⟨⟨reset_inv, rfl⟩, ⟨readyAt_of ready_4_7 _ _, by decide⟩, ⟨readyAt_of ready_4_7 _ _, by decide⟩⟩

/-- For RSET and for RMAX. -/
theorem witness_RsetStoresExactlyOneRegister_RmaxStoresTheMaximum :
    (State.reset.Inv ∧ State.reset.cfg.valid = false) ∧
    ((readyAt 4 7 [] 16 0).Ready ∧ (readyAt 4 7 [] 16 0).m ≤ (readyAt 4 7 [] 16 0).a0.toNat) ∧
    ((readyAt 4 7 [] 15 128).Ready ∧ (readyAt 4 7 [] 15 128).a0.toNat < (readyAt 4 7 [] 15 128).m ∧
      2 ^ (readyAt 4 7 [] 15 128).w ≤ (readyAt 4 7 [] 15 128).a1.toNat) ∧
    ((readyAt 4 7 [] 15 127).Ready ∧ (readyAt 4 7 [] 15 127).a0.toNat < (readyAt 4 7 [] 15 127).m ∧
      (readyAt 4 7 [] 15 127).a1.toNat < 2 ^ (readyAt 4 7 [] 15 127).w) :=
  ⟨⟨reset_inv, rfl⟩, ⟨readyAt_of ready_4_7 _ _, by decide⟩, ⟨readyAt_of ready_4_7 _ _, by decide⟩,
    ⟨readyAt_of ready_4_7 _ _, by decide⟩⟩

theorem witness_RsetThenRgetReturnsTheValueAndKeepsTheOthers :
    (ready 4 7 []).Ready ∧ (15 : U64).toNat < (ready 4 7 []).m ∧ (14 : U64).toNat < (ready 4 7 []).m ∧
    (127 : U64).toNat < 2 ^ (ready 4 7 []).w ∧ (14 : U64) ≠ 15 := ⟨ready_4_7, by decide⟩

theorem witness_RclrZeroesTheArray :
    (State.reset.Inv ∧ State.reset.cfg.valid = false) ∧ (ready 4 7 [(13, 1)]).Ready ∧ 13 < 2 ^ (ready 4 7 []).p * (ready 4 7 []).w / 8 :=
  ⟨⟨reset_inv, rfl⟩, ready_of _ _ _ (by decide), by decide⟩

/-- For RAWRD and for RAWWR. -/
theorem witness_RawrdReadsOneByte_RawwrWritesOneByte :
    (State.reset.Inv ∧ State.reset.cfg.valid = false) ∧
    ((readyAt 4 7 [] 14 0).Ready ∧
      2 ^ (readyAt 4 7 [] 14 0).p * (readyAt 4 7 [] 14 0).w / 8 ≤ (readyAt 4 7 [] 14 0).a0.toNat) ∧
    ((readyAt 4 7 [] 13 256).Ready ∧
      (readyAt 4 7 [] 13 256).a0.toNat < 2 ^ (readyAt 4 7 [] 13 256).p * (readyAt 4 7 [] 13 256).w / 8 ∧
      256 ≤ (readyAt 4 7 [] 13 256).a1.toNat) ∧
    ((readyAt 4 7 [] 13 255).Ready ∧
      (readyAt 4 7 [] 13 255).a0.toNat < 2 ^ (readyAt 4 7 [] 13 255).p * (readyAt 4 7 [] 13 255).w / 8 ∧
      (readyAt 4 7 [] 13 255).a1.toNat < 256) :=
  ⟨⟨reset_inv, rfl⟩, ⟨readyAt_of ready_4_7 _ _, by decide⟩, ⟨readyAt_of ready_4_7 _ _, by decide⟩,
    ⟨readyAt_of ready_4_7 _ _, by decide⟩⟩

theorem witness_RmaxIsIdempotentAndCommutative :
    (readyAt 4 7 [] 15 127).Ready ∧ (∃ t, exec .rmax (readyAt 4 7 [] 15 127) = .next t) ∧
    (readyAt 4 7 [] 15 127).a0.toNat < (readyAt 4 7 [] 15 127).m ∧ (127 : U64).toNat < 2 ^ (readyAt 4 7 [] 15 127).w :=
  ⟨readyAt_of ready_4_7 _ _, ⟨_, rfl⟩, by decide⟩

/-- For H32 and for H128. -/
theorem witness_H32_H128IsMurmurOfTheMessageRange :
    State.reset.params.wf = true ∧
    ((words 4090 6 0).a0.toNat + (words 4090 6 0).a1.toNat ≤ (words 4090 6 0).params.msgSize) ∧
    ((words 4090 7 0).params.msgSize < (words 4090 7 0).a0.toNat + (words 4090 7 0).a1.toNat) :=
  ⟨by decide +kernel, by decide⟩

theorem witness_HashingWordsInMsgEqualsTheWordHashes :
    (State.reset.Inv ∧ 8 ≤ State.reset.params.msgSize ∧ 16 ≤ State.reset.params.msgSize) ∧
    ∃ s t u : State, s.a0 = 0x0123456789ABCDEF ∧ s.seed = 0 ∧ exec .h32w1 s = .next t ∧ exec .h64w1 s = .next u :=
  ⟨⟨reset_inv, by decide⟩, words 0x0123456789ABCDEF 0 0, _, _, rfl, rfl, rfl, rfl⟩

/-- Two states that share "hello" and differ elsewhere. -/
theorem witness_HashDependsOnTheWrittenRangeAlone :
    let s := hello
    let t := { hello with msg := cells 0 [0x68, 0x65, 0x6C, 0x6C, 0x6F, 0x21], res0 := 1, epoch := 3 }
    s.hashInputWritten ∧ t.a0 = s.a0 ∧ t.a1 = s.a1 ∧ t.seed = s.seed ∧ t.params.msgSize = s.params.msgSize ∧
    (∀ a, s.a0.toNat ≤ a → a < s.a0.toNat + s.a1.toNat → Memory.get? t.msg a = Memory.get? s.msg a) ∧
    s.a0.toNat + s.a1.toNat ≤ s.params.msgSize ∧ (∃ u, exec .h32 s = .next u) ∧ (∃ u, exec .h128 t = .next u) := by
  have h5 : ∀ a, a < 5 → Memory.get? (cells 0 [0x68, 0x65, 0x6C, 0x6C, 0x6F, 0x21]) a =
      Memory.get? (cells 0 [0x68, 0x65, 0x6C, 0x6C, 0x6F]) a ∧
      Memory.get? (cells 0 [0x68, 0x65, 0x6C, 0x6C, 0x6F]) a ≠ none := by decide
  exact ⟨fun a _ h => (h5 a h).2, rfl, rfl, rfl, rfl, fun a _ h => (h5 a h).1, by decide, ⟨_, rfl⟩, ⟨_, rfl⟩⟩

theorem witness_HashExamplesOfTheSpec :
    (hello.params.wf = true ∧ hello.seed = 0 ∧ hello.a0 = 0 ∧ hello.a1 = 5 ∧ 5 ≤ hello.params.msgSize ∧
      hello.msgByte 0 = 0x68 ∧ hello.msgByte 1 = 0x65 ∧ hello.msgByte 2 = 0x6C ∧ hello.msgByte 3 = 0x6C ∧
      hello.msgByte 4 = 0x6F) ∧
    ((words 4096 0 0).a1 = 0 ∧ (words 4096 0 0).a0.toNat ≤ (words 4096 0 0).params.msgSize ∧ (words 4096 0 0).seed = 0 ∧
      (words 4096 0 1).seed = 1 ∧ (words 4096 0 0xFFFFFFFF).seed = 0xFFFFFFFF) :=
  ⟨⟨by decide +kernel, rfl, rfl, rfl, by decide, rfl, rfl, rfl, rfl, rfl⟩, by decide⟩

theorem witness_PutStoresTheMaskedRank :
    (State.reset.Inv ∧ State.reset.cfg.valid = false) ∧ (readyAt 4 5 [] 0xFFFFFFFFFFFFFFFF 0).Ready ∧
    (∃ x idx v : Nat, x = (readyAt 4 5 [] 0xFFFFFFFFFFFFFFFF 0).a0.toNat ∧ idx = x / 2 ^ (64 - 4) ∧ v = rank 4 5 x ∧
      idx = 15 ∧ v = 1) ∧
    ∃ x idx v : Nat, x = readyMax.res0.toNat ∧ readyMax.Ready ∧ idx = x / 2 ^ (64 - readyMax.p) ∧
      v = rank readyMax.p readyMax.w x ∧ idx = 0 ∧ v = 65 :=
  ⟨⟨reset_inv, rfl⟩, readyAt_of (ready_of 4 5 [] (by decide)) _ _,
    ⟨_, _, _, rfl, rfl, rfl, by decide +kernel, by decide +kernel⟩,
    ⟨_, _, _, rfl, readyMax_ready, rfl, rfl, by decide +kernel, by decide +kernel⟩⟩

theorem witness_PutRankIsThePlaceOfTheLeftmostSetBit :
    (ready 4 7 []).Ready ∧ (ready 4 7 []).get ((0xF000000000000000 : U64).toNat / 2 ^ (64 - (ready 4 7 []).p)) = 0 ∧
    rho 4 (0xF000000000000000 : U64).toNat = 65 ∧ rho 4 (0xF000000000000001 : U64).toNat = 60 ∧
    rho 4 (0xFFFFFFFFFFFFFFFF : U64).toNat = 1 :=
  ⟨ready_4_7, by decide +kernel, by decide +kernel, by decide +kernel, by decide +kernel⟩

theorem witness_PutIsAMonotonicMaximumInEveryOrder :
    (ready 4 7 []).Ready ∧ (∃ t, exec (.put .res0) (ready 4 7 []) = .next t) ∧
    [(HashSource.a0, (0 : U64)), (.res0, 1), (.a0, 0xFFFFFFFFFFFFFFFF)].Perm
      [(.a0, 0xFFFFFFFFFFFFFFFF), (.a0, 0), (.res0, 1)] := ⟨ready_4_7, ⟨_, rfl⟩, by decide⟩

theorem witness_HostInsertionsGiveTheSameArrayInEveryOrder :
    (ready 4 7 []).Ready ∧ [Insertion.hash 0, .bytes 4091 5].Perm [.bytes 4091 5, .hash 0] ∧
    (4091 : U64).toNat + (5 : U64).toNat ≤ (ready 4 7 []).params.msgSize ∧
    Insertion.res0 ∉ [Insertion.hash 0, .bytes 4091 5] ∧
    [Insertion.hash 0, .res0].Perm [.res0, .hash 0] ∧ ∀ off len, Insertion.bytes off len ∉ [Insertion.hash 0, .res0] :=
  ⟨ready_4_7, by decide, by decide, by decide, by decide, fun off len => by simp⟩

/-- Sixty-four registers of eight bits holding `v`, on a block whose ALPHA64 is the published 709/1000 (G4). -/
def published (v : Byte) : State :=
  { State.resetWith { Config.Params.default with alpha64 := 709 / 1000 } with
    cfg := { p := 6, w := 8, valid := true }, raw := cells 0 (List.replicate 64 v) }

theorem published_ready (v : Byte) (h : Memory.wf Memory.rawBlank (cells 0 (List.replicate 64 v)) = true) :
    (published v).Ready :=
  ⟨⟨by show (published 0).params.wf = true; decide +kernel,
    fun _ => by show 4 ≤ 6 % 32 ∧ 6 % 32 ≤ 16 ∧ 1 ≤ 8 % 16 ∧ 8 % 16 ≤ 8; decide,
    fun hv => absurd hv (by simp [published]), by show (0 : BitVec 4) ∈ errCodes; decide, rfl, rfl, h, rfl⟩, rfl⟩

/-- One state for each range of R252, one for EST_RANGE and one with another ALPHA64, and the values of E there. -/
theorem witness_EstReturnsTheRoundedEstimate :
    (State.reset.Inv ∧ State.reset.cfg.valid = false) ∧
    ((ready 4 8 [(0, 1)]).Ready ∧ ∃ f, IsEstimate (ready 4 8 [(0, 1)]) f) ∧
    ((flat 1).Ready ∧ SmallAlpha (flat 1) ∧ NoLogarithm (flat 1) ∧ ∃ f, IsEstimate (flat 1) f) ∧
    ((flat 2).Ready ∧ NoLogarithm (flat 2) ∧ ∃ f, IsEstimate (flat 2) f) ∧
    ((flat 24).Ready ∧ ∃ f, IsEstimate (flat 24) f) ∧
    ((published 1).Ready ∧ SmallAlpha (published 1) ∧ ∃ f, IsEstimate (published 1) f) ∧
    ((flat 29).Ready ∧ 5 / 2 * ((flat 29).m : ℚ) < estimateE (flat 29) ∧ 2 ^ 32 ≤ estimateE (flat 29)) :=
  ⟨⟨reset_inv, rfl⟩,
    ⟨ready_of _ _ _ (by decide), _, .inl ⟨by decide +kernel, by decide +kernel, rfl⟩⟩,
    ⟨flat_ready _ (by decide), by unfold SmallAlpha; decide, .inl ⟨by decide +kernel, by decide +kernel⟩,
      _, .inr (.inl ⟨by decide +kernel, by decide +kernel, rfl⟩)⟩,
    ⟨flat_ready _ (by decide), .inr ⟨by decide +kernel, by decide +kernel⟩,
      _, .inr (.inr (.inl ⟨by decide +kernel, by decide +kernel, rfl⟩))⟩,
    ⟨flat_ready _ (by decide),
      _, .inr (.inr (.inr ⟨by decide +kernel, by decide +kernel, by decide +kernel, rfl⟩))⟩,
    ⟨published_ready _ (by decide), by unfold SmallAlpha; decide +kernel,
      _, .inr (.inl ⟨by decide +kernel, by decide +kernel, rfl⟩)⟩,
    ⟨flat_ready _ (by decide), by decide +kernel, by decide +kernel⟩⟩

theorem witness_EstOfAZeroArrayIsZero :
    (ready 4 7 []).Ready ∧ LinearAlpha (ready 4 7 []) ∧ (∀ i, i < (ready 4 7 []).m → (ready 4 7 []).get i = 0) ∧
    (∃ t, exec .rclr (ready 4 7 []) = .next t) ∧ (published 1).Ready ∧ LinearAlpha (published 1) :=
  ⟨ready_4_7, by unfold LinearAlpha; decide, by decide +kernel, ⟨_, rfl⟩, published_ready _ (by decide),
    by unfold LinearAlpha; decide +kernel⟩

theorem witness_EstResultIsBelowTwoToThe40 :
    (flat 24).Ready ∧ SmallAlpha (flat 24) ∧
    (nextOf (exec .est (flat 24))).map (fun t => t.status.err) = some 0 :=
  ⟨flat_ready _ (by decide), by unfold SmallAlpha; decide, by decide +kernel⟩

theorem witness_RelerrReturnsTheTableEntryOfP :
    (State.reset.Inv ∧ State.reset.cfg.valid = false) ∧ ((ready 4 7 []).Ready ∧ (ready 4 7 []).p % 2 = 0) ∧
    (readyMax.Ready ∧ readyMax.p % 2 = 1) := ⟨⟨reset_inv, rfl⟩, ⟨ready_4_7, by decide⟩, readyMax_ready, by decide⟩

theorem witness_RelerrIsTheNearestBinary64 :
    (State.reset.Inv ∧ State.reset.cfg.valid = false) ∧ (ready 4 7 []).Ready ∧ readyMax.Ready :=
  ⟨⟨reset_inv, rfl⟩, ready_4_7, readyMax_ready⟩

theorem witness_UnionByRmaxTakesTheMaximumOfEveryRegister :
    (ready 4 7 []).Ready ∧ (List.replicate 16 (127 : U64)).length ≤ (ready 4 7 []).m ∧
    (∀ b ∈ List.replicate 16 (127 : U64), b.toNat < 2 ^ (ready 4 7 []).w) ∧ (ready 4 7 []).w < 8 ∧
    (∀ b ∈ List.replicate 16 (255 : U64), b.toNat < 2 ^ 8) :=
  ⟨ready_4_7, by decide, fun b hb => by rw [List.eq_of_mem_replicate hb]; decide, by decide,
    fun b hb => by rw [List.eq_of_mem_replicate hb]; decide⟩

end Sys2Proof.Tests
end

section
/-! PROOFS. The register map and the constant register CAP (spec/10_state.md R25, R28, R32, R34). -/

namespace Sys2Proof.Machine

/-! ### One step is its host action -/

/-- A step takes the first pending action (R14). -/
theorem step_of_pending {s : State} {h : HostAction} {rest : List HostAction} (hp : s.pending = h :: rest) :
    step s = act h { s with pending := rest } := by
  simp only [step, runNext, hp]

theorem step_of_idle {s : State} (hp : s.pending = []) : step s = .next s := by
  simp only [step, runNext, hp]

theorem act_writeReg_cmd (v : U64) (s : State) : act (.writeReg 0 v) s = runCommand (low32 v) s := rfl

theorem act_writeReg_of_ne_cmd {n : Nat} (hn : n ≠ 0) (v : U64) (s : State) :
    act (.writeReg n v) s = .next (s.storeReg n v) := by
  cases n with
  | zero => exact absurd rfl hn
  | succ n => rfl

theorem act_readReg (n : Nat) (s : State) : act (.readReg n) s = .next (s.reply (.reg n (s.readReg n))) := rfl

theorem runCommand_of_ok {c : U32} {i : Instr} (h : decode c = .ok i) (s : State) : runCommand c s = exec i s := by
  simp only [runCommand, h]

theorem runCommand_of_error {c : U32} {r : DecodeReject} (h : decode c = .error r) (s : State) :
    runCommand c s = fail .illegalCommand s := by
  simp only [runCommand, h]

/-- Settles O5: a step on a write to CMD runs the command word, which is `exec` of what it decodes to or the error entry. -/
theorem stepRunsTheDecodedCommand : Obligations.StepRunsTheDecodedCommand := by
  intro s rest
  refine ⟨fun v i hp hd => ?_, fun v r hp hd => ?_, fun hp => ?_⟩
  · rw [step_of_pending hp, act_writeReg_cmd, runCommand_of_ok hd]
  · rw [step_of_pending hp, act_writeReg_cmd, runCommand_of_error hd, fail_eq]
    rfl
  · rw [step_of_pending hp, act_readReg]
    rfl

/-! ### Registers that ignore the host -/

/-- The host's stores reach STATUS, SEED, A0 and A1 only (R34). -/
theorem State.storeReg_eq_self (s : State) {n : Nat} (v : U64) (hn : n ≠ 1 ∧ n ≠ 3 ∧ n ≠ 4 ∧ n ≠ 5) :
    s.storeReg n v = s := by
  obtain ⟨h1, h3, h4, h5⟩ := hn
  unfold State.storeReg
  split
  · exact absurd rfl h1
  · exact absurd rfl h3
  · exact absurd rfl h4
  · exact absurd rfl h5
  · rfl

/-- The register map ends at CAP (R34). -/
theorem State.readReg_of_absent (s : State) {n : Nat} (hn : 8 < n) : s.readReg n = 0 := by
  obtain ⟨k, rfl⟩ := Nat.exists_eq_add_of_le' (Nat.succ_le_of_lt hn)
  rfl

/-- Settles O10: a read-only or absent register is none of those a store reaches, and an absent one reads 0. -/
theorem readOnlyAndAbsentRegistersIgnoreTheHost : Obligations.ReadOnlyAndAbsentRegistersIgnoreTheHost := by
  intro s n rest
  refine ⟨fun v hn hp => ?_, fun hn hp => ?_⟩
  · rw [step_of_pending hp, act_writeReg_of_ne_cmd (by omega), State.storeReg_eq_self _ _ (by omega)]
  · rw [step_of_pending hp, act_readReg, State.readReg_of_absent _ hn]
    rfl

/-! ### The parameters never change, and CAP shows two of them -/

theorem exec_params {i : Instr} {s t : State} (h : exec i s = .next t) : t.params = s.params := by
  obtain ⟨e, -, rfl⟩ | ⟨u, rfl, hu⟩ := exec_next h
  · exact State.raiseError_params s e
  · rw [State.succeed_params, hu.sameBut]

theorem runCommand_params {c : U32} {s t : State} (h : runCommand c s = .next t) : t.params = s.params := by
  obtain ⟨i, -, hc⟩ | ⟨r, -, hc⟩ := runCommand_cases c s <;> rw [hc] at h
  · exact exec_params h
  · rw [fail_next_iff.1 h, State.raiseError_params]

/-- No host action writes the parameters, Reset included (R20, R32). -/
theorem act_params {h : HostAction} {s t : State} (ha : act h s = .next t) : t.params = s.params := by
  unfold act at ha
  split at ha
  · exact runCommand_params ha
  all_goals cases ha; simp

theorem step_params {s t : State} (h : step s = .next t) : t.params = s.params := by
  cases hp : s.pending with
  | nil => rw [step_of_idle hp] at h; cases h; rfl
  | cons a rest => rw [step_of_pending hp] at h; exact (act_params h :)

end Sys2Proof.Machine

namespace Sys2Proof.Config

/-- The ranges of R9 for the two parameters that CAP shows. -/
theorem Params.wf_bounds {c : Params} (hc : c.wf = true) :
    4 ≤ c.pMax ∧ c.pMax ≤ 31 ∧ 1 ≤ c.msgSize ∧ c.msgSize < 2 ^ 31 := by
  simp only [Params.wf, Bool.and_eq_true, decide_eq_true_eq] at hc
  omega

/-- The two fields of CAP do not overlap, so the word is their sum (R32). -/
theorem Params.capWord_toNat {c : Params} (hp : c.pMax < 2 ^ 5) (hm : c.msgSize < 2 ^ 32) :
    c.capWord.toNat = c.msgSize * 2 ^ 32 + c.pMax := by
  have hlow : (zext64 (BitVec.ofNat 5 c.pMax)).toNat = c.pMax := by
    simp only [BitVec.toNat_setWidth, BitVec.toNat_ofNat]; omega
  have hhigh : (zext64 (BitVec.ofNat 32 c.msgSize) <<< 32).toNat = c.msgSize <<< 32 := by
    simp only [BitVec.toNat_shiftLeft, BitVec.toNat_setWidth, BitVec.toNat_ofNat, Nat.shiftLeft_eq]; omega
  rw [Params.capWord, BitVec.toNat_or, hlow, hhigh, Nat.or_comm, ← Nat.shiftLeft_add_eq_or_of_lt (by omega),
    Nat.shiftLeft_eq]

end Sys2Proof.Config

namespace Sys2Proof.Machine

/-- Settles O15: CAP is a function of the parameters, which no step changes, and its word is the sum of its two fields. -/
theorem capIsAConstantThatShowsTheSizes : Obligations.CapIsAConstantThatShowsTheSizes := by
  intro s t hwf hstep
  have hparams : t.params = s.params := step_params hstep
  obtain ⟨-, hp, -, hm⟩ := Config.Params.wf_bounds hwf
  have hcap : (s.readReg 8).toNat = s.params.msgSize * 2 ^ 32 + s.params.pMax :=
    Config.Params.capWord_toNat (by omega) (by omega)
  refine ⟨congrArg Config.Params.capWord hparams, hparams, ?_, ?_, ?_⟩ <;> rw [hcap] <;> omega

end Sys2Proof.Machine
end

section
/-! PROOFS. The command words that decode, as conditions on the number a word is (spec/30_encoding.md R91, R92, R97). -/

namespace Sys2Proof

open Sys2Proof.Spec

/-! ### The fields of a command word as numbers (R91) -/

@[simp] theorem CommandWord.toNat_opcode (c : U32) : (CommandWord.opcode c).toNat = c.toNat % 256 := by
  simp only [CommandWord.opcode, BitVec.extractLsb'_toNat, Nat.shiftRight_zero, Nat.reducePow]

@[simp] theorem CommandWord.toNat_reserved (c : U32) : (CommandWord.reserved c).toNat = c.toNat / 512 := by
  have hc : c.toNat < 2 ^ 32 := c.isLt
  simp only [CommandWord.reserved, BitVec.extractLsb'_toNat, Nat.shiftRight_eq_div_pow]
  omega

@[simp] theorem CommandWord.toNat_src (c : U32) : (CommandWord.src c).toNat = c.toNat / 256 % 2 := by
  rw [CommandWord.src, BitVec.getLsbD, Nat.toNat_testBit]

theorem CommandWord.src_eq_true_iff (c : U32) : CommandWord.src c = true ↔ c.toNat / 256 % 2 = 1 := by
  rw [← CommandWord.toNat_src, Bool.toNat_eq_one]

/-! ### The three checks of R92 are the three conditions on the number -/

theorem CommandWord.reservedOk_iff (c : U32) : CommandWord.reservedOk c = true ↔ c.toNat / 512 = 0 := by
  simp only [CommandWord.reservedOk, decide_eq_true_eq, ← BitVec.toNat_inj, CommandWord.toNat_reserved,
    BitVec.ofNat_eq_ofNat, BitVec.toNat_ofNat, Nat.zero_mod]

theorem CommandWord.opcode_eq_iff (c : U32) (b : BitVec 8) : CommandWord.opcode c = b ↔ c.toNat % 256 = b.toNat := by
  rw [← BitVec.toNat_inj, CommandWord.toNat_opcode]

theorem CommandWord.opcodeOk_iff (c : U32) :
    CommandWord.opcodeOk c = true ↔ c.toNat % 256 ∈ CommandWord.assignedOpcodes.map BitVec.toNat := by
  rw [CommandWord.opcodeOk, decide_eq_true_eq, ← CommandWord.toNat_opcode,
    List.mem_map_of_injective fun _ _ => BitVec.eq_of_toNat_eq]

theorem CommandWord.srcOk_iff (c : U32) :
    CommandWord.srcOk c = true ↔ (c.toNat / 256 % 2 = 1 → c.toNat % 256 = 0x30) := by
  rw [CommandWord.srcOk, decide_eq_true_eq, CommandWord.src_eq_true_iff, CommandWord.opcode_eq_iff]
  rfl

theorem CommandWord.legal_iff (c : U32) :
    CommandWord.legal c = true ↔
      CommandWord.reservedOk c = true ∧ CommandWord.opcodeOk c = true ∧ CommandWord.srcOk c = true := by
  simp only [CommandWord.legal, Bool.and_eq_true, and_assoc]

theorem CommandWord.legal_iff_not_illegalWord (c : U32) : CommandWord.legal c = true ↔ ¬ illegalWord c.toNat := by
  rw [CommandWord.legal_iff, CommandWord.reservedOk_iff, CommandWord.opcodeOk_iff, CommandWord.srcOk_iff, illegalWord,
    not_or, not_or, not_not, not_not, not_and, not_not]
  rfl

/-! ### The decoder accepts exactly the words that pass the checks -/

theorem ite_some_eq_none_iff {α : Type} {p : Prop} [Decidable p] (a : α) (o : Option α) :
    (if p then some a else o) = none ↔ ¬ p ∧ o = none := by
  by_cases h : p <;> simp [h]

/-- The opcode map knows exactly the opcodes of the table of R93. -/
theorem decodeOpcode_eq_none_iff (opc : BitVec 8) (src : HashSource) :
    decodeOpcode opc src = none ↔ opc ∉ CommandWord.assignedOpcodes := by
  simp only [decodeOpcode, ite_some_eq_none_iff, CommandWord.assignedOpcodes, List.mem_cons, List.not_mem_nil, or_false,
    not_or, and_true]

/-- In every row of R93 the opcode map keeps OPC, and SRC where the command is PUT. -/
theorem decodeOpcode_fields_of_assigned (src : HashSource) :
    ∀ opc ∈ CommandWord.assignedOpcodes, ∀ i ∈ decodeOpcode opc src,
      opcodeOf i = opc.toNat ∧ srcOf i = if opc = 0x30 then src.toBit.toNat else 0 := by
  cases src <;> decide

theorem decodeOpcode_fields {opc : BitVec 8} {src : HashSource} {i : Instr} (h : decodeOpcode opc src = some i) :
    opcodeOf i = opc.toNat ∧ srcOf i = if opc = 0x30 then src.toBit.toNat else 0 := by
  have hassigned : opc ∈ CommandWord.assignedOpcodes := by
    by_contra hopc
    rw [(decodeOpcode_eq_none_iff opc src).2 hopc] at h
    cases h
  exact decodeOpcode_fields_of_assigned src opc hassigned i h

/-- R92: a word decodes when its reserved bits and SRC pass their checks and the opcode map knows its OPC. -/
theorem decode_eq_ok_iff (c : U32) (i : Instr) :
    decode c = .ok i ↔
      CommandWord.reservedOk c = true ∧ CommandWord.srcOk c = true ∧
        decodeOpcode (CommandWord.opcode c) (HashSource.ofBit (CommandWord.src c)) = some i := by
  simp only [CommandWord.reservedOk, CommandWord.srcOk, decide_eq_true_eq, decode]
  split
  next hres => exact iff_of_false nofun fun h => hres h.1
  next hres =>
    split
    next hnone => simp only [hnone, reduceCtorEq, and_false]
    next j hsome =>
      split
      next hsrc => exact iff_of_false nofun fun h => hsrc.2 (h.2.1 hsrc.1)
      next hsrc =>
        have hsrcOk : CommandWord.src c = true → CommandWord.opcode c = 0x30 := by simpa using hsrc
        rw [and_iff_right (not_not.1 hres), and_iff_right hsrcOk, hsome, Except.ok.injEq, Option.some.injEq]

theorem HashSource.toNat_toBit_ofBit (b : Bool) : (HashSource.ofBit b).toBit.toNat = b.toNat := by
  cases b <;> rfl

/-- The decoder accepts exactly the legal words (R92). -/
theorem exists_decode_eq_ok_iff (c : U32) : (∃ i, decode c = .ok i) ↔ CommandWord.legal c = true := by
  simp only [decode_eq_ok_iff, exists_and_left, CommandWord.legal_iff, CommandWord.opcodeOk, decide_eq_true_eq,
    ← Option.isSome_iff_exists, ← Option.ne_none_iff_isSome, ne_eq, decodeOpcode_eq_none_iff, not_not]
  tauto

/-- A decoded instruction has the OPC and the SRC of its word. -/
theorem fields_of_decode_eq_ok {c : U32} {i : Instr} (h : decode c = .ok i) :
    opcodeOf i = c.toNat % 256 ∧ srcOf i = c.toNat / 256 % 2 := by
  obtain ⟨-, hsrc, hopc⟩ := (decode_eq_ok_iff c i).1 h
  obtain ⟨hopcode, hi⟩ := decodeOpcode_fields hopc
  rw [CommandWord.srcOk_iff] at hsrc
  rw [CommandWord.toNat_opcode] at hopcode
  rw [HashSource.toNat_toBit_ofBit, CommandWord.toNat_src] at hi
  refine ⟨hopcode, hi.trans ?_⟩
  split
  case isTrue => rfl
  case isFalse hne =>
    rw [CommandWord.opcode_eq_iff] at hne
    have hsrc0 : c.toNat / 256 % 2 ≠ 1 := fun h => hne (hsrc h)
    omega

end Sys2Proof

namespace Sys2Proof.Machine

open Sys2Proof.Spec

/-- Settles O3: the decoder accepts exactly the words that are not illegal, and reads OPC and SRC of those. -/
theorem commandWordsRunAsDecodedOrFailAsIllegal : Obligations.CommandWordsRunAsDecodedOrFailAsIllegal := by
  intro s v rest hp
  have hlegal : (∃ i, decode (low32 v) = .ok i) ↔ ¬ illegalWord (v.toNat % 2 ^ 32) := by
    rw [exists_decode_eq_ok_iff, CommandWord.legal_iff_not_illegalWord, BitVec.toNat_setWidth]
  rw [step_of_pending hp, act_writeReg_cmd]
  refine ⟨fun hill => ?_, fun hleg => ?_⟩
  · obtain ⟨i, hd, -⟩ | ⟨r, hd, hrun⟩ := runCommand_cases (low32 v) { s with pending := rest }
    · exact absurd hill (hlegal.1 ⟨i, hd⟩)
    · rw [hrun, fail_eq]
      rfl
  · obtain ⟨i, hd⟩ := hlegal.2 hleg
    obtain ⟨hopc, hsrc⟩ := fields_of_decode_eq_ok hd
    rw [BitVec.toNat_setWidth] at hopc hsrc
    exact ⟨i, by omega, by omega, runCommand_of_ok hd _⟩

end Sys2Proof.Machine
end

section
/-! PROOFS. The commands of the packed register array (spec/40_packed_array.md): what each of them answers in each of its cases,
registers as bits of RAW, and the frame of a register write. -/

namespace Sys2Proof.Machine

open Sys2Proof.Spec

/-! ### The errors, each where its check stands (spec/60_exceptions.md R286) -/

/-- Every command that needs a configured block checks that first. -/
theorem exec_of_not_configured {i : Instr} {s : State} (hi : .notConfigured ∈ mayFail i) (hc : s.cfg.valid = false) :
    exec i s = fail .notConfigured s := by
  cases i
  case rget | rset | rclr | rawrd | rawwr | rmax | put | est | relerr => exact if_pos hc
  all_goals exact absurd hi (by decide)

/-- The register index is the next check of RGET, RSET and RMAX. -/
theorem exec_of_index_ge {i : Instr} {s : State} (hi : .indexOutOfRange ∈ mayFail i) (hv : s.cfg.valid = true)
    (ha : s.m ≤ s.a0.toNat) : exec i s = fail .indexOutOfRange s := by
  cases i
  case rget | rset | rmax => exact (if_neg (ne_false_of_eq_true hv)).trans (if_pos ha)
  case put => exact absurd hi (by simp [mayFail])
  all_goals exact absurd hi (by decide)

/-- The value is the last check of RSET and RMAX, against the array's width. -/
theorem exec_of_value_ge {i : Instr} {s : State} (hi : i = .rset ∨ i = .rmax) (hv : s.cfg.valid = true)
    (ha : s.a0.toNat < s.m) (hb : 2 ^ s.w ≤ s.a1.toNat) : exec i s = fail .valueOverflow s := by
  obtain rfl | rfl := hi <;>
    exact (if_neg (ne_false_of_eq_true hv)).trans ((if_neg (Nat.not_le.2 ha)).trans (if_pos hb))

/-- The byte address is the next check of RAWRD and RAWWR. -/
theorem exec_of_address_ge {i : Instr} {s : State} (hi : i = .rawrd ∨ i = .rawwr) (hv : s.cfg.valid = true)
    (ha : s.nbytes ≤ s.a0.toNat) : exec i s = fail .addressRange s := by
  obtain rfl | rfl := hi <;> exact (if_neg (ne_false_of_eq_true hv)).trans (if_pos ha)

theorem exec_rawwr_of_value_ge {s : State} (hv : s.cfg.valid = true) (ha : s.a0.toNat < s.nbytes)
    (hb : 256 ≤ s.a1.toNat) : exec .rawwr s = fail .valueOverflow s :=
  (if_neg (ne_false_of_eq_true hv)).trans ((if_neg (Nat.not_le.2 ha)).trans (if_pos hb))

/-! ### The successes -/

theorem exec_config {s : State}
    (h : 4 ≤ s.a0.toNat ∧ s.a0.toNat ≤ 31 ∧ s.a0.toNat ≤ s.params.pMax ∧ 1 ≤ s.a1.toNat ∧ s.a1.toNat ≤ 8) :
    exec .config s = done (s.setCfg s.a0 s.a1).zeroFill :=
  (if_neg (by omega)).trans (if_neg (by omega))

/-- CONFIG has one code for both of its operands (R121). -/
theorem exec_config_of_out_of_range {s : State}
    (h : ¬ (4 ≤ s.a0.toNat ∧ s.a0.toNat ≤ 31 ∧ s.a0.toNat ≤ s.params.pMax ∧ 1 ≤ s.a1.toNat ∧ s.a1.toNat ≤ 8)) :
    exec .config s = fail .invalidArgument s := by
  by_cases hp : s.a0.toNat < 4 ∨ 31 < s.a0.toNat ∨ s.params.pMax < s.a0.toNat
  · exact if_pos hp
  · exact (if_neg hp).trans (if_pos (by omega))

section Configured

variable {s : State} (hv : s.cfg.valid = true)
include hv

theorem exec_rget (ha : s.a0.toNat < s.m) :
    exec .rget s = done (s.setRes0 (BitVec.ofNat 64 (s.get s.a0.toNat))) := by
  rw [State.get, BitVec.ofNat_toNat]
  exact (if_neg (ne_false_of_eq_true hv)).trans (if_neg (Nat.not_le.2 ha))

theorem exec_rset (ha : s.a0.toNat < s.m) (hb : s.a1.toNat < 2 ^ s.w) :
    exec .rset s = done (s.setField s.a0.toNat (s.a1.setWidth 8)) :=
  (if_neg (ne_false_of_eq_true hv)).trans ((if_neg (Nat.not_le.2 ha)).trans (if_neg (Nat.not_le.2 hb)))

theorem exec_rmax (ha : s.a0.toNat < s.m) (hb : s.a1.toNat < 2 ^ s.w) :
    exec .rmax s = done (s.maxField s.a0.toNat (s.a1.setWidth 8)) :=
  (if_neg (ne_false_of_eq_true hv)).trans ((if_neg (Nat.not_le.2 ha)).trans (if_neg (Nat.not_le.2 hb)))

theorem exec_rclr : exec .rclr s = done s.zeroFill :=
  if_neg (ne_false_of_eq_true hv)

theorem exec_rawrd (ha : s.a0.toNat < s.nbytes) :
    exec .rawrd s = done (s.setRes0 (BitVec.ofNat 64 (s.rawByte s.a0.toNat).toNat)) := by
  rw [BitVec.ofNat_toNat]
  exact (if_neg (ne_false_of_eq_true hv)).trans (if_neg (Nat.not_le.2 ha))

theorem exec_rawwr (ha : s.a0.toNat < s.nbytes) (hb : s.a1.toNat < 256) :
    exec .rawwr s = done (s.setRawByte s.a0.toNat (s.a1.setWidth 8)) :=
  (if_neg (ne_false_of_eq_true hv)).trans ((if_neg (Nat.not_le.2 ha)).trans (if_neg (Nat.not_le.2 hb)))

end Configured

/-! ### A register is its bits of the bit string (spec/20_memory.md R67) -/

theorem bitsValue_succ (s : State) (q n : Nat) :
    bitsValue s q (n + 1) = Nat.bit (bit s (q + n)) (bitsValue s q n) := by
  rw [Nat.bit_val, bitsValue]

theorem testBit_bitsValue (s : State) (q n k : Nat) :
    (bitsValue s q n).testBit k = (decide (k < n) && bit s (q + (n - 1 - k))) := by
  induction n generalizing k with
  | zero => simp [bitsValue]
  | succ n ih =>
    rw [bitsValue_succ]
    cases k with
    | zero => simp
    | succ k => rw [Nat.testBit_bit_succ, ih, show n + 1 - 1 - (k + 1) = n - 1 - k by omega]; simp

theorem State.get_eq_bitsValue (s : State) (hw : s.w ≤ 8) (i : Nat) : s.get i = bitsValue s (i * s.w) s.w := by
  apply Nat.eq_of_testBit_eq
  intro k
  rw [testBit_bitsValue]
  by_cases hk : k < s.w
  · rw [decide_eq_true hk, Bool.true_and]
    exact fieldGet_getLsbD s.rawByte hw hk
  · rw [decide_eq_false hk, Bool.false_and]
    exact fieldGet_getLsbD_ge s.rawByte hw (Nat.not_lt.1 hk)

/-! ### What the array operations leave -/

/-- An operand that fits a narrower field keeps its value there. -/
theorem toNat_setWidth_of_lt_two_pow {x : U64} {k n : Nat} (hx : x.toNat < 2 ^ k) (hk : k ≤ n) :
    (x.setWidth n).toNat = x.toNat := by
  rw [BitVec.toNat_setWidth, Nat.mod_eq_of_lt (hx.trans_le (Nat.pow_le_pow_right Nat.two_pos hk))]

/-- NBYTES of a configured block as the statements write it (R8). -/
theorem State.Inv.nbytes_eq {s : State} (h : s.Inv) (hv : s.cfg.valid = true) : 2 ^ s.p * s.w / 8 = s.nbytes :=
  (State.nbytes_eq (h.configured hv).1).symm

theorem State.rawByte_setRawByte (s : State) (a : Nat) (b : Byte) (x : Nat) :
    (s.setRawByte a b).rawByte x = if x = a then b else s.rawByte x :=
  Memory.rawRead_rawWrite s.raw a b x

theorem State.rawByte_zeroFill (s : State) (a : Nat) : s.zeroFill.rawByte a = 0 := rfl

theorem State.maxField_eq (s : State) (i : Nat) (v : Byte) :
    s.maxField i v = { s with raw := (s.maxField i v).raw } := by
  obtain ⟨-, h⟩ | ⟨-, h⟩ := maxField_cases s i v
  · rw [h, State.setField]
  · rw [h]

theorem onlyRegisterChanges_refl (s : State) (i : Nat) : OnlyRegisterChanges s s i :=
  ⟨fun _ _ _ => rfl, fun _ _ => rfl, fun _ _ => rfl⟩

theorem onlyRegisterChanges_setField (s : State) {i : Nat} {v : Byte} (hw : s.w ≤ 8) (hv : v.toNat < 2 ^ s.w) :
    OnlyRegisterChanges s (s.setField i v) i := by
  refine ⟨fun j _ hj => ?_, fun q hq => ?_, fun a ha => rawRead_fieldSet_of_not_owns s.raw v ha⟩
  · rw [State.get_setField s hw hv, if_neg hj]
  · exact (rawBit_fieldSet s.raw hw hv q).trans (if_neg (by omega))

theorem onlyRegisterChanges_maxField (s : State) {i : Nat} {v : Byte} (hw : s.w ≤ 8) (hv : v.toNat < 2 ^ s.w) :
    OnlyRegisterChanges s (s.maxField i v) i := by
  obtain ⟨-, h⟩ | ⟨-, h⟩ := maxField_cases s i v <;> rw [h]
  · exact onlyRegisterChanges_setField s hw hv
  · exact onlyRegisterChanges_refl s i

/-! ### The statements -/

/-- Settles O29: CONFIG's success writes its operands to CFG and lists no byte of RAW any more. -/
theorem configConstructsAZeroedArray : Obligations.ConfigConstructsAZeroedArray := by
  refine ⟨by decide, fun s => ⟨fun h => ?_, exec_config_of_out_of_range⟩⟩
  refine ⟨_, exec_config h, rfl, rfl, ?_, ?_, fun a _ => State.rawByte_zeroFill (s.setCfg s.a0 s.a1) a⟩
  · exact toNat_setWidth_of_lt_two_pow (k := 5) (by omega) le_rfl
  · exact toNat_setWidth_of_lt_two_pow (k := 4) (by omega) le_rfl

/-- Settles O30: RGET's result is the register, which is its bits of the bit string. -/
theorem rgetReturnsTheRegister : Obligations.RgetReturnsTheRegister := by
  refine ⟨by decide, fun s hinv => ⟨exec_of_not_configured (by decide), exec_of_index_ge (by decide), fun hv ha => ?_⟩⟩
  obtain ⟨-, -, -, hw8⟩ := hinv.configured hv
  rw [exec_rget hv ha, done_setRes0, State.get_eq_bitsValue s hw8]

/-- Settles O31: RSET is `setField`, which writes the field of one register. -/
theorem rsetStoresExactlyOneRegister : Obligations.RsetStoresExactlyOneRegister := by
  refine ⟨by decide, fun s hinv => ⟨exec_of_not_configured (by decide), exec_of_index_ge (by decide),
    exec_of_value_ge (.inl rfl), fun hv ha hb => ?_⟩⟩
  obtain ⟨-, -, -, hw8⟩ := hinv.configured hv
  have hval : (s.a1.setWidth 8).toNat = s.a1.toNat := toNat_setWidth_of_lt_two_pow hb hw8
  have hfit : (s.a1.setWidth 8).toNat < 2 ^ s.w := hval ▸ hb
  have hget : (s.setField s.a0.toNat (s.a1.setWidth 8)).get s.a0.toNat = s.a1.toNat := by
    rw [State.get_setField s hw8 hfit, if_pos rfl, hval]
  exact ⟨_, exec_rset hv ha hb, rfl, hget, onlyRegisterChanges_setField s hw8 hfit⟩

/-- Settles O32: each RGET reads a register of the array that the RSET left, or of the array before it. -/
theorem rsetThenRgetReturnsTheValueAndKeepsTheOthers : Obligations.RsetThenRgetReturnsTheValueAndKeepsTheOthers := by
  intro s i j v ⟨hinv, hv⟩ hi hj hb
  obtain ⟨-, -, -, hw8⟩ := hinv.configured hv
  have hval : (v.setWidth 8).toNat = v.toNat := toNat_setWidth_of_lt_two_pow hb hw8
  have hget (k : Nat) : (s.setField i.toNat (v.setWidth 8)).get k = if k = i.toNat then v.toNat else s.get k := by
    rw [State.get_setField s hw8 (hval ▸ hb), hval]
  refine ⟨_, _, _, _, exec_rset (s := { s with a0 := i, a1 := v }) hv hi hb, exec_rget hv hi, ?_,
    exec_rget (s := { State.succeed _ with a0 := j }) hv hj, exec_rget (s := { s with a0 := j }) hv hj, fun hji => ?_⟩
  · show BitVec.ofNat 64 ((s.setField i.toNat (v.setWidth 8)).get i.toNat) = v
    rw [hget, if_pos rfl, BitVec.ofNat_toNat, BitVec.setWidth_eq]
  · show BitVec.ofNat 64 ((s.setField i.toNat (v.setWidth 8)).get j.toNat) = BitVec.ofNat 64 (s.get j.toNat)
    rw [hget, if_neg (hji ∘ BitVec.eq_of_toNat_eq)]

/-- Settles O33: RCLR is `zeroFill`. -/
theorem rclrZeroesTheArray : Obligations.RclrZeroesTheArray :=
  ⟨by decide, fun s _ => ⟨exec_of_not_configured (by decide), fun hv =>
    ⟨_, exec_rclr hv, rfl, fun a _ => State.rawByte_zeroFill s a⟩⟩⟩

/-- Settles O34: RAWRD's result is one byte of RAW. -/
theorem rawrdReadsOneByte : Obligations.RawrdReadsOneByte := by
  refine ⟨by decide, fun s hinv => ⟨exec_of_not_configured (by decide), fun hv ha => ?_, fun hv ha => ?_⟩⟩ <;>
    rw [hinv.nbytes_eq hv] at ha
  · exact exec_of_address_ge (.inl rfl) hv ha
  · rw [exec_rawrd hv ha, done_setRes0]

/-- Settles O35: RAWWR is one write to RAW. -/
theorem rawwrWritesOneByte : Obligations.RawwrWritesOneByte := by
  refine ⟨by decide, fun s hinv =>
    ⟨exec_of_not_configured (by decide), fun hv ha => ?_, fun hv ha hb => ?_, fun hv ha hb => ?_⟩⟩ <;>
    rw [hinv.nbytes_eq hv] at ha
  · exact exec_of_address_ge (.inr rfl) hv ha
  · exact exec_rawwr_of_value_ge hv ha hb
  · have hread := State.rawByte_setRawByte s s.a0.toNat (s.a1.setWidth 8)
    refine ⟨_, exec_rawwr hv ha hb, rfl, ?_, fun a ha => (hread a).trans (if_neg ha)⟩
    show ((s.setRawByte s.a0.toNat (s.a1.setWidth 8)).rawByte s.a0.toNat).toNat = s.a1.toNat
    rw [hread, if_pos rfl, toNat_setWidth_of_lt_two_pow (k := 8) hb le_rfl]

/-- Settles O36: RMAX is `maxField`, which stores a greater value in one register or leaves the state. -/
theorem rmaxStoresTheMaximum : Obligations.RmaxStoresTheMaximum := by
  refine ⟨by decide, fun s hinv => ⟨exec_of_not_configured (by decide), exec_of_index_ge (by decide),
    exec_of_value_ge (.inr rfl), fun hv ha hb => ?_⟩⟩
  obtain ⟨-, -, -, hw8⟩ := hinv.configured hv
  have hval : (s.a1.setWidth 8).toNat = s.a1.toNat := toNat_setWidth_of_lt_two_pow hb hw8
  have hfit : (s.a1.setWidth 8).toNat < 2 ^ s.w := hval ▸ hb
  have hget : (s.maxField s.a0.toNat (s.a1.setWidth 8)).get s.a0.toNat = max (s.get s.a0.toNat) s.a1.toNat := by
    rw [State.get_maxField s hw8 hfit, if_pos rfl, hval]
  refine ⟨_, exec_rmax hv ha hb, congrArg State.succeed (State.maxField_eq ..), hget,
    onlyRegisterChanges_maxField s hw8 hfit, fun hle => ?_⟩
  obtain ⟨hlt, -⟩ | ⟨-, hself⟩ := maxField_cases s s.a0.toNat (s.a1.setWidth 8)
  · omega
  · rw [hself]; rfl

end Sys2Proof.Machine
end

section
/-! PROOFS. The hash engines depend on the bytes of their range alone, and the host's runs that write a range of MSG and hash it
(spec/41_hash32.md R160, spec/42_hash128.md R190, spec/43_hash_words.md R229). -/

namespace Sys2Proof.Machine

open Sys2Proof.Spec

/-! ### A hash of two byte sequences that agree on its range -/

namespace Hash32

variable {rd rd' : Nat → Byte}

theorem body_congr {off off' : Nat} (seed : U32) {n : Nat} (h : ∀ j, j < 4 * n → rd (off + j) = rd' (off' + j)) :
    body rd off seed n = body rd' off' seed n := by
  induction n with
  | zero => rfl
  | succ n ih =>
    have hblock : memRead rd (off + 4 * n) 4 = memRead rd' (off' + 4 * n) 4 :=
      memRead_congr fun j hj => by simpa only [Nat.add_assoc] using h (4 * n + j) (by omega)
    rw [body, body, ih fun j hj => h j (by omega), hblock]

theorem tail_congr {t t' r : Nat} (x : U32) (h : ∀ j, j < r → rd (t + j) = rd' (t' + j)) :
    tail rd t r x = tail rd' t' r x := by
  have h0 : 1 ≤ r → rd t = rd' t' := h 0
  have h1 : 2 ≤ r → rd (t + 1) = rd' (t' + 1) := h 1
  have h2 : r = 3 → rd (t + 2) = rd' (t' + 2) := fun hr => h 2 (by omega)
  simp +contextual only [tail, h0, h1, h2]

theorem hash_congr {off off' len : Nat} (seed : U32) (h : ∀ j, j < len → rd (off + j) = rd' (off' + j)) :
    hash rd off len seed = hash rd' off' len seed := by
  have hbody : body rd off seed (len / 4) = body rd' off' seed (len / 4) :=
    body_congr seed fun j hj => h j (by omega)
  have htail (x : U32) : tail rd (off + 4 * (len / 4)) (len % 4) x = tail rd' (off' + 4 * (len / 4)) (len % 4) x :=
    tail_congr x fun j hj => by simpa only [Nat.add_assoc] using h (4 * (len / 4) + j) (by omega)
  rw [hash, hash, hbody, htail]

end Hash32

namespace Hash128

variable {rd rd' : Nat → Byte}

theorem body_congr {off off' : Nat} (seed : U32) {n : Nat} (h : ∀ j, j < 16 * n → rd (off + j) = rd' (off' + j)) :
    body rd off seed n = body rd' off' seed n := by
  induction n with
  | zero => rfl
  | succ n ih =>
    have hk1 : memRead rd (off + 16 * n) 8 = memRead rd' (off' + 16 * n) 8 :=
      memRead_congr fun j hj => by simpa only [Nat.add_assoc] using h (16 * n + j) (by omega)
    have hk2 : memRead rd (off + 16 * n + 8) 8 = memRead rd' (off' + 16 * n + 8) 8 :=
      memRead_congr fun j hj => by simpa only [Nat.add_assoc] using h (16 * n + (8 + j)) (by omega)
    rw [body, body, ih fun j hj => h j (by omega), hk1, hk2]

theorem tailWord_congr {t t' n : Nat} (h : ∀ j, j < n → rd (t + j) = rd' (t' + j)) :
    tailWord rd t n = tailWord rd' t' n := by
  induction n with
  | zero => rfl
  | succ n ih => rw [tailWord, tailWord, ih fun j hj => h j (by omega), h n (by omega)]

theorem tail_congr {t t' r : Nat} (l : Lanes) (h : ∀ j, j < r → rd (t + j) = rd' (t' + j)) :
    tail rd t r l = tail rd' t' r l := by
  have hk1 : tailWord rd t (min r 8) = tailWord rd' t' (min r 8) := tailWord_congr fun j hj => h j (by omega)
  have hk2 : tailWord rd (t + 8) (r - 8) = tailWord rd' (t' + 8) (r - 8) :=
    tailWord_congr fun j hj => by simpa only [Nat.add_assoc] using h (8 + j) (by omega)
  rw [tail, tail, hk1, hk2]

theorem hash_congr {off off' len : Nat} (seed : U32) (h : ∀ j, j < len → rd (off + j) = rd' (off' + j)) :
    hash rd off len seed = hash rd' off' len seed := by
  have hbody : body rd off seed (len / 16) = body rd' off' seed (len / 16) :=
    body_congr seed fun j hj => h j (by omega)
  have htail (l : Lanes) :
      tail rd (off + 16 * (len / 16)) (len % 16) l = tail rd' (off' + 16 * (len / 16)) (len % 16) l :=
    tail_congr l fun j hj => by simpa only [Nat.add_assoc] using h (16 * (len / 16) + j) (by omega)
  rw [hash, hash, hbody, htail]

end Hash128

/-! ### The host's runs -/

/-- A byte of MSG that exists reads as written (R35). -/
theorem State.msgByte_writeMsg {s : State} {a : Nat} (ha : a < s.params.msgSize) (b : Byte) (x : Nat) :
    (s.writeMsg a b).msgByte x = if x = a then b else s.msgByte x := by
  rw [State.writeMsg, if_pos ha]
  exact Memory.msgRead_msgWrite ..

theorem State.writeMsg_eq (s : State) (a : Nat) (b : Byte) : s.writeMsg a b = { s with msg := (s.writeMsg a b).msg } := by
  unfold State.writeMsg
  split <;> rfl

theorem act_cmd {i : Instr} (hd : decode (encode i) = .ok i) (s : State) : act (Actions.cmd i) s = exec i s := by
  have hword : low32 (zext64 (encode i)) = encode i := BitVec.setWidth_setWidth_of_le _ (by decide)
  rw [Actions.cmd, act_writeReg_cmd, hword, runCommand_of_ok hd]

theorem exec_h32 {s : State} (h : s.a0.toNat + s.a1.toNat ≤ s.params.msgSize) :
    exec .h32 s = done (s.setRes0 (zext64 (Hash32.hash s.msgByte s.a0.toNat s.a1.toNat s.seed))) :=
  if_neg (Nat.not_lt.2 h)

theorem exec_h128 {s : State} (h : s.a0.toNat + s.a1.toNat ≤ s.params.msgSize) :
    exec .h128 s = done (s.setRes (Hash128.hash s.msgByte s.a0.toNat s.a1.toNat s.seed).h1
      (Hash128.hash s.msgByte s.a0.toNat s.a1.toNat s.seed).h2) :=
  if_neg (Nat.not_lt.2 h)

namespace Actions

/-- The host's list of byte writes lands in MSG where all of its addresses exist; below its first address nothing changes. -/
theorem run_msg {l : List Byte} {a : Nat} {s : State} (h : a + l.length ≤ s.params.msgSize) :
    ∃ t, run (msg a l) s = .next t ∧ t = { s with msg := t.msg } ∧
      (∀ x, x < a → t.msgByte x = s.msgByte x) ∧ ∀ j (hj : j < l.length), t.msgByte (a + j) = l[j] := by
  induction l generalizing a s with
  | nil => exact ⟨s, rfl, rfl, fun _ _ => rfl, nofun⟩
  | cons b l ih =>
    rw [List.length_cons] at h
    have hbyte := State.msgByte_writeMsg (s := s) (a := a) (by omega) b
    obtain ⟨t, hrun, hframe, hlow, hl⟩ :=
      ih (a := a + 1) (s := s.writeMsg a b) (by rw [State.writeMsg_params]; omega)
    refine ⟨t, hrun, ?_, fun x hx => ?_, fun j hj => ?_⟩
    · rw [State.writeMsg_eq] at hframe
      exact hframe
    · rw [hlow x (by omega), hbyte, if_neg (by omega)]
    · cases j with
      | zero => exact (hlow a (by omega)).trans ((hbyte a).trans (if_pos rfl))
      | succ j =>
        rw [← Nat.add_assoc, Nat.add_right_comm]
        exact hl j (Nat.lt_of_succ_lt_succ hj)

/-- The first `n` bytes of a sequence, written to MSG from 0, are what a hash of them reads. -/
theorem run_msg_range (rd : Nat → Byte) {n : Nat} {s : State} (h : n ≤ s.params.msgSize) :
    ∃ t, run (msg 0 ((List.range n).map rd)) s = .next t ∧ t.params = s.params ∧ t.seed = s.seed ∧
      ∀ j, j < n → t.msgByte (0 + j) = rd (0 + j) := by
  have hlen : ((List.range n).map rd).length = n := by rw [List.length_map, List.length_range]
  obtain ⟨t, hrun, hframe, -, hl⟩ := run_msg (l := (List.range n).map rd) (a := 0) (s := s) (by omega)
  refine ⟨t, hrun, by rw [hframe], by rw [hframe], fun j hj => ?_⟩
  rw [hl j (hj.trans_eq hlen.symm), List.getElem_map, List.getElem_range, Nat.zero_add]

theorem run_cons {h : HostAction} (rest : List HostAction) {s t : State} (ha : act h s = .next t) :
    run (h :: rest) s = run rest t :=
  run_append (l := [h]) rest (by rw [run, ha]; rfl)

/-- Operands, a command, and a read of its result (R99). -/
theorem run_command_with_operands {i : Instr} {x y : U64} {s t : State} (hd : decode (encode i) = .ok i)
    (h : exec i { s with a0 := x, a1 := y } = .next t) :
    run [wrA0 x, wrA1 y, cmd i, rdRes0] s = .next (t.reply (.reg 6 t.res0)) :=
  calc run [wrA0 x, wrA1 y, cmd i, rdRes0] s
    _ = run [cmd i, rdRes0] { s with a0 := x, a1 := y } := rfl
    _ = run [rdRes0] t := run_cons _ ((act_cmd hd _).trans h)
    _ = .next (t.reply (.reg 6 t.res0)) := rfl

/-- Writing bytes to MSG from 0 and hashing them there with H32 is hashing them. -/
theorem run_msg_hash32 (rd : Nat → Byte) {len : U64} {s : State} (h : len.toNat ≤ s.params.msgSize) :
    ∃ u, run (msg 0 ((List.range len.toNat).map rd) ++ hash32 0 len) s = .next u ∧
      u.res0 = zext64 (Hash32.hash rd 0 len.toNat s.seed) := by
  obtain ⟨t, hmsg, hparams, hseed, hbytes⟩ := run_msg_range rd h
  have hfits : (0 : U64).toNat + len.toNat ≤ t.params.msgSize := by rw [hparams]; exact (Nat.zero_add _).trans_le h
  refine ⟨_, (run_append _ hmsg).trans (run_command_with_operands (by decide) (exec_h32 hfits)), ?_⟩
  rw [← Hash32.hash_congr s.seed hbytes, ← hseed]
  rfl

/-- The same with H128, whose RES0 is lane0 (R191). -/
theorem run_msg_hash64 (rd : Nat → Byte) {len : U64} {s : State} (h : len.toNat ≤ s.params.msgSize) :
    ∃ u, run (msg 0 ((List.range len.toNat).map rd) ++ hash64 0 len) s = .next u ∧
      u.res0 = (Hash128.hash rd 0 len.toNat s.seed).h1 := by
  obtain ⟨t, hmsg, hparams, hseed, hbytes⟩ := run_msg_range rd h
  have hfits : (0 : U64).toNat + len.toNat ≤ t.params.msgSize := by rw [hparams]; exact (Nat.zero_add _).trans_le h
  refine ⟨_, (run_append _ hmsg).trans (run_command_with_operands (by decide) (exec_h128 hfits)), ?_⟩
  rw [← Hash128.hash_congr s.seed hbytes, ← hseed]
  rfl

end Actions

/-! ### The bytes of the words (R220) -/

theorem byteOf_toNat (x : U64) (j : Nat) : (byteOf x j).toNat = x.toNat / 2 ^ (8 * j) % 256 := by
  rw [byteOf, BitVec.extractLsb'_toNat, Nat.shiftRight_eq_div_pow]

theorem map_toNat_bytesLe (x : U64) : ((List.range 8).map (bytesLe x)).map BitVec.toNat = wordBytes x := by
  rw [List.map_map]
  exact List.map_congr_left fun j _ => byteOf_toNat x j

/-- The sixteen bytes of two words are those of the first, then those of the second. -/
theorem map_bytesLe2 (x y : U64) :
    (List.range 16).map (bytesLe2 x y) = (List.range 8).map (bytesLe x) ++ (List.range 8).map (bytesLe y) := rfl

/-- The example word of R229 hashes to these values in the order R220 gives its bytes. -/
theorem hash_bytesLe_example :
    Hash32.hash (bytesLe 0x0123456789ABCDEF) 0 8 0 = 0xFA908422 ∧
    (Hash128.hash (bytesLe 0x0123456789ABCDEF) 0 8 0).h1 = 0x995BB6C03277035A := by decide +kernel

/-- Settles O42: the runs hash the words' bytes from MSG, which are the byte sequences that the word commands hash. -/
theorem hashingWordsInMsgEqualsTheWordHashes : Obligations.HashingWordsInMsgEqualsTheWordHashes := by
  refine ⟨fun s _ => ⟨_, _, map_toNat_bytesLe s.a0, map_toNat_bytesLe s.a1, fun h8 => ⟨?_, ?_⟩, fun h16 => ?_⟩, ?_⟩
  · obtain ⟨u, hrun, hres⟩ := Actions.run_msg_hash32 (bytesLe s.a0) (len := 8) h8
    exact ⟨_, u, rfl, hrun, hres⟩
  · obtain ⟨u, hrun, hres⟩ := Actions.run_msg_hash64 (bytesLe s.a0) (len := 8) h8
    exact ⟨_, u, rfl, hrun, hres⟩
  · rw [← map_bytesLe2]
    obtain ⟨u, hrun, hres⟩ := Actions.run_msg_hash32 (bytesLe2 s.a0 s.a1) (len := 16) h16
    obtain ⟨v, hrun', hres'⟩ := Actions.run_msg_hash64 (bytesLe2 s.a0 s.a1) (len := 16) h16
    exact ⟨⟨_, u, rfl, hrun, hres⟩, _, v, rfl, hrun', hres'⟩
  · intro s t u ha0 hseed ht hu
    obtain ⟨h32, h64⟩ := hash_bytesLe_example
    have ht : t.res0 = zext64 (Hash32.hash (bytesLe s.a0) 0 8 s.seed) := congrArg State.res0 (done_next_iff.1 ht)
    have hu : u.res0 = (Hash128.hash (bytesLe s.a0) 0 8 s.seed).h1 := congrArg State.res0 (done_next_iff.1 hu)
    rw [ht, hu, ha0, hseed, h32, h64]
    decide

end Sys2Proof.Machine
end

section
/-! PROOFS. PUT stores the maximum of a register and the masked rank of the hash, so that a sequence of PUTs folds a maximum into
every register (spec/44_hll.md R241, R245). -/

namespace Sys2Proof.Machine

open Sys2Proof.Spec

/-! ### The rank in plain arithmetic (R241) -/

theorem clz64_eq_clz (x : U64) : clz64 x = clz x.toNat := by
  simp only [clz64, clz, ← BitVec.toNat_inj, BitVec.ofNat_eq_ofNat, BitVec.toNat_ofNat, Nat.zero_mod]

theorem Hll.rank_eq (p w : Nat) (x : U64) : Hll.rank p w x = Spec.rank p w x.toNat := by
  rw [Hll.rank, Hll.rho, clz64_eq_clz, BitVec.toNat_shiftLeft, Nat.shiftLeft_eq, Nat.and_two_pow_sub_one_eq_mod, Spec.rank]

theorem rank_lt (p w x : Nat) : rank p w x < 2 ^ w := Nat.mod_lt _ (Nat.two_pow_pos w)

/-- The rank fits the byte that `maxField` takes, the array's width being at most 8. -/
theorem toNat_ofNat_rank {p w : Nat} (hw : w ≤ 8) (x : U64) :
    (BitVec.ofNat 8 (Hll.rank p w x)).toNat = rank p w x.toNat := by
  rw [Hll.rank_eq, BitVec.toNat_ofNat,
    Nat.mod_eq_of_lt ((rank_lt p w x.toNat).trans_le (Nat.pow_le_pow_right Nat.two_pos hw))]

/-! ### The array after one PUT -/

/-- The state that PUT of the hash `x` leaves, before STATUS is written (R241). -/
def State.putHash (s : State) (x : U64) : State :=
  s.maxField (Hll.index s.p x) (BitVec.ofNat 8 (Hll.rank s.p s.w x))

@[simp] theorem State.succeed_p (s : State) : s.succeed.p = s.p := rfl

@[simp] theorem State.succeed_w (s : State) : s.succeed.w = s.w := rfl

@[simp] theorem State.get_succeed (s : State) (i : Nat) : s.succeed.get i = s.get i := rfl

theorem exec_put {s : State} (hv : s.cfg.valid = true) (src : HashSource) :
    exec (.put src) s = done (s.putHash (s.hashOperand src)) :=
  if_neg (ne_false_of_eq_true hv)

/-- A register, of width `w` in an array of `2^p`, after PUT of the hash `x`: register `i` held `n` before it (R245). -/
def registerAfterPut (p w i n : Nat) (x : U64) : Nat :=
  if i = x.toNat / 2 ^ (64 - p) then max n (rank p w x.toNat) else n

theorem registerAfterPut_right_comm (p w i n : Nat) (x y : U64) :
    registerAfterPut p w i (registerAfterPut p w i n x) y = registerAfterPut p w i (registerAfterPut p w i n y) x := by
  unfold registerAfterPut
  split
  · split
    · exact max_right_comm ..
    · rfl
  · rfl

theorem le_registerAfterPut (p w i n : Nat) (x : U64) : n ≤ registerAfterPut p w i n x := by
  unfold registerAfterPut
  split
  · exact le_max_left ..
  · exact le_rfl

@[simp] theorem State.putHash_cfg (s : State) (x : U64) : (s.putHash x).cfg = s.cfg := State.maxField_cfg ..

@[simp] theorem State.putHash_p (s : State) (x : U64) : (s.putHash x).p = s.p :=
  congrArg (·.p.toNat) (State.putHash_cfg s x)

@[simp] theorem State.putHash_w (s : State) (x : U64) : (s.putHash x).w = s.w :=
  congrArg (·.w.toNat) (State.putHash_cfg s x)

@[simp] theorem State.putHash_status (s : State) (x : U64) : (s.putHash x).status = s.status := State.maxField_status ..

/-- What `Ready` says of the array's shape (R9, R39). -/
theorem State.Ready.shape {s : State} (h : s.Ready) : 4 ≤ s.p ∧ s.p ≤ 31 ∧ s.w ≤ 8 := by
  obtain ⟨hinv, hv⟩ := h
  obtain ⟨hp, hpm, -, hw8⟩ := hinv.configured hv
  obtain ⟨-, hpm31, -⟩ := Config.Params.wf_bounds hinv.params
  exact ⟨hp, hpm.trans hpm31, hw8⟩

section Ready

variable {s : State} (h : s.Ready)
include h

theorem State.Ready.index_eq (x : U64) :
    Hll.index s.p x = x.toNat / 2 ^ (64 - s.p) ∧ x.toNat / 2 ^ (64 - s.p) < s.m := by
  obtain ⟨-, hp31, -⟩ := h.shape
  obtain ⟨hidx, hlt⟩ := Hll.index_eq (p := s.p) (by omega) x
  exact ⟨hidx, hidx ▸ hlt⟩

theorem State.Ready.get_putHash (x : U64) (i : Nat) :
    (s.putHash x).get i = registerAfterPut s.p s.w i (s.get i) x := by
  obtain ⟨-, -, hw8⟩ := h.shape
  have hval := toNat_ofNat_rank (p := s.p) hw8 x
  rw [State.putHash, State.get_maxField s hw8 (hval ▸ rank_lt ..), hval, (h.index_eq x).1, registerAfterPut]
  split
  next hi => rw [hi]
  next => rfl

theorem State.Ready.onlyRegisterChanges_putHash (x : U64) :
    OnlyRegisterChanges s (s.putHash x) (x.toNat / 2 ^ (64 - s.p)) := by
  obtain ⟨-, -, hw8⟩ := h.shape
  have hval := toNat_ofNat_rank (p := s.p) hw8 x
  rw [← (h.index_eq x).1]
  exact onlyRegisterChanges_maxField s hw8 (hval ▸ rank_lt ..)

/-- A rank that is not greater is not stored. -/
theorem State.Ready.putHash_eq_self {x : U64} (hle : rank s.p s.w x.toNat ≤ s.get (x.toNat / 2 ^ (64 - s.p))) :
    s.putHash x = s := by
  obtain ⟨-, -, hw8⟩ := h.shape
  rw [State.putHash, (h.index_eq x).1]
  exact if_neg (Nat.not_lt.2 ((toNat_ofNat_rank hw8 x).trans_le hle))

theorem State.Ready.succeed : s.succeed.Ready := ⟨h.1.succeed, h.2⟩

theorem State.Ready.putHash (x : U64) : (s.putHash x).Ready := by
  obtain ⟨hinv, hv⟩ := h
  obtain ⟨hidx, hlt⟩ := State.Ready.index_eq ⟨hinv, hv⟩ x
  exact ⟨hinv.maxField hv (hidx ▸ hlt) _, by rw [State.putHash_cfg]; exact hv⟩

/-- After PUT the register is at least the rank. -/
theorem State.Ready.rank_le_get_putHash (x : U64) :
    rank s.p s.w x.toNat ≤ (s.putHash x).get (x.toNat / 2 ^ (64 - s.p)) := by
  rw [h.get_putHash, registerAfterPut, if_pos rfl]
  exact le_max_right ..

end Ready

theorem State.hashOperand_putHash (s : State) (x : U64) (src : HashSource) :
    (s.putHash x).hashOperand src = s.hashOperand src := by
  cases src
  · exact State.maxField_a0 ..
  · exact State.maxField_res0 ..

/-- The same PUT again finds a register that is at least the rank, and stores nothing (R245). -/
theorem State.Ready.exec_put_again {s : State} (h : s.Ready) (src : HashSource) :
    exec (.put src) (s.putHash (s.hashOperand src)).succeed = .next (s.putHash (s.hashOperand src)).succeed := by
  have ht := (h.putHash (s.hashOperand src)).succeed
  have hx : (s.putHash (s.hashOperand src)).succeed.hashOperand src = s.hashOperand src :=
    State.hashOperand_putHash s _ src
  rw [exec_put ht.2, hx, ht.putHash_eq_self]
  · rfl
  · rw [State.succeed_p, State.succeed_w, State.putHash_p, State.putHash_w, State.get_succeed]
    exact h.rank_le_get_putHash _

/-- The number the statements call `x` is the hash that PUT reads. -/
theorem eq_toNat_hashOperand {s : State} {src : HashSource} {x : Nat} (ha : src = .a0 → x = s.a0.toNat)
    (hr : src = .res0 → x = s.res0.toNat) : x = (s.hashOperand src).toNat := by
  cases src
  · exact ha rfl
  · exact hr rfl

/-- Settles O45: PUT is `putHash`, which stores a greater rank in one register or leaves the state. -/
theorem putStoresTheMaskedRank : Obligations.PutStoresTheMaskedRank := by
  refine ⟨by decide, by decide, fun s src hinv => ⟨exec_of_not_configured (by simp [mayFail]), ?_⟩⟩
  intro hv x idx v ha hr hidx hrank
  have h : s.Ready := ⟨hinv, hv⟩
  obtain rfl := eq_toNat_hashOperand ha hr
  subst hidx hrank
  refine ⟨(h.index_eq _).2, _, exec_put hv src, congrArg State.succeed (State.maxField_eq ..), ?_,
    h.onlyRegisterChanges_putHash _, fun hle => congrArg (·.succeed.raw) (h.putHash_eq_self hle)⟩
  exact (h.get_putHash _ _).trans (if_pos rfl)

/-! ### A sequence of PUTs (R245) -/

/-- The host has put the hash `x` where PUT of `src` reads it. -/
def State.withHash (s : State) (src : HashSource) (x : U64) : State :=
  match src with
  | .a0 => { s with a0 := x }
  | .res0 => { s with res0 := x }

section WithHash

variable (s : State) (src : HashSource) (x : U64)

@[simp] theorem State.withHash_cfg : (s.withHash src x).cfg = s.cfg := by cases src <;> rfl

@[simp] theorem State.withHash_p : (s.withHash src x).p = s.p := by cases src <;> rfl

@[simp] theorem State.withHash_w : (s.withHash src x).w = s.w := by cases src <;> rfl

@[simp] theorem State.withHash_status : (s.withHash src x).status = s.status := by cases src <;> rfl

@[simp] theorem State.get_withHash (i : Nat) : (s.withHash src x).get i = s.get i := by cases src <;> rfl

@[simp] theorem State.hashOperand_withHash : (s.withHash src x).hashOperand src = x := by cases src <;> rfl

end WithHash

theorem State.Ready.withHash {s : State} (h : s.Ready) (src : HashSource) (x : U64) : (s.withHash src x).Ready := by
  obtain ⟨hinv, hv⟩ := h
  cases src <;> exact ⟨hinv.congr rfl rfl rfl rfl hinv.err, hv⟩

theorem putSequence_cons_of_next {s t : State} {src : HashSource} {x : U64}
    (h : exec (.put src) (s.withHash src x) = .next t) (rest : List (HashSource × U64)) :
    putSequence ((src, x) :: rest) s = putSequence rest t := by
  cases src <;>
    rw [State.withHash] at h <;>
    simp only [putSequence, h]

/-- The first PUT of a sequence is one `putHash` of its hash. -/
theorem State.Ready.putSequence_cons {s : State} (h : s.Ready) (src : HashSource) (x : U64)
    (rest : List (HashSource × U64)) :
    putSequence ((src, x) :: rest) s = putSequence rest ((s.withHash src x).putHash x).succeed := by
  refine putSequence_cons_of_next ?_ rest
  rw [exec_put (h.withHash src x).2, State.hashOperand_withHash]
  rfl

/-- A sequence of PUTs completes and folds the maxima of its hashes into every register. -/
theorem putSequence_next (l : List (HashSource × U64)) {s : State} (h : s.Ready) :
    ∃ t, putSequence l s = .next t ∧ t.Ready ∧ t.cfg = s.cfg ∧ t.status.esticky = s.status.esticky ∧
      ∀ i, t.get i = (l.map Prod.snd).foldl (registerAfterPut s.p s.w i) (s.get i) := by
  induction l generalizing s with
  | nil => exact ⟨s, rfl, h, rfl, rfl, fun _ => rfl⟩
  | cons a rest ih =>
    obtain ⟨src, x⟩ := a
    have hu := h.withHash src x
    obtain ⟨t, hrun, ht, hcfg, hesticky, hget⟩ := ih (hu.putHash x).succeed
    refine ⟨t, (h.putSequence_cons src x rest).trans hrun, ht, hcfg.trans (by simp), hesticky.trans ?_, fun i => ?_⟩
    · simp [Status.succeed]
    · rw [hget, List.map_cons, List.foldl_cons]
      simp [hu.get_putHash]

/-- Settles O47: one PUT is `putHash`, and the maxima that a sequence folds into a register can be taken in any order. -/
theorem putIsAMonotonicMaximumInEveryOrder : Obligations.PutIsAMonotonicMaximumInEveryOrder := by
  refine ⟨fun s t src h hexec => ?_, fun s l l' h hperm => ?_⟩
  · rw [exec_put h.2, done_next_iff] at hexec
    subst hexec
    have hget := h.get_putHash (s.hashOperand src)
    refine ⟨h.exec_put_again src, fun i _ => (le_registerAfterPut ..).trans_eq (hget i).symm, _, _, ?_, ?_, rfl,
      (hget _).trans (if_pos rfl), fun i _ hi => (hget i).trans (if_neg hi)⟩
    · rintro rfl; rfl
    · rintro rfl; rfl
  · obtain ⟨t, hrun, ht, hcfg, hesticky, hget⟩ := putSequence_next l h
    obtain ⟨t', hrun', ht', hcfg', -, hget'⟩ := putSequence_next l' h
    have htt : t'.cfg = t.cfg := hcfg'.trans hcfg.symm
    have hsame (i : Nat) : t'.get i = t.get i := by
      rw [hget, hget']
      exact ((hperm.map Prod.snd).foldl_eq' (fun x _ y _ n => registerAfterPut_right_comm _ _ i n x y) _).symm
    exact ⟨t, t', hrun, hrun', raw_eq_of_get ht.1 ht'.1 ht.2 htt fun i _ => hsame i, htt, hcfg, hesticky⟩

end Sys2Proof.Machine
end

section
/-! PROOFS. RELERR's table entries are the nearest binary64 numbers (spec/44_hll.md R258, R259). -/

namespace Sys2Proof.Machine

open Sys2Proof.Spec

theorem exec_relerr {s : State} (hv : s.cfg.valid = true) : exec .relerr s = done (s.setRes0 (Hll.relErr s.p)) :=
  if_neg (ne_false_of_eq_true hv)

/-! ### The table: one significand for each parity of `p`, the exponent one less for every step of 2 (R259) -/

theorem Hll.relErr_even {k : Nat} (hk : k < 14) :
    (Hll.relErr (4 + 2 * k)).toNat = (1021 - k) * 2 ^ 52 + 0x0A3D70A3D70A4 := by
  revert k
  decide

theorem Hll.relErr_odd {k : Nat} (hk : k < 14) :
    (Hll.relErr (5 + 2 * k)).toNat = (1020 - k) * 2 ^ 52 + 0x78852D0FF33F3 := by
  revert k
  decide

/-! ### What it is to be the nearest binary64 number -/

/-- The word `n` is a positive normal binary64 number, no power of 2, within half a unit in the last place of `x` (R258). -/
def NearestBinary64 (n : Nat) (x : ℝ) : Prop :=
  1 ≤ n / 2 ^ 52 ∧ n / 2 ^ 52 < 2047 ∧ 2 ^ 52 < 2 ^ 52 + n % 2 ^ 52 ∧
    |((2 ^ 52 + n % 2 ^ 52 : Nat) : ℝ) * 2 ^ (n / 2 ^ 52) / 2 ^ 1075 - x| ≤ 2 ^ (n / 2 ^ 52) / 2 ^ 1076

/-- Half a unit in the last place is 1/2 in the scale of the significand. -/
theorem abs_sub_le_half_ulp {f x : ℝ} {e d : Nat} (hd : e + d = 1075) (h : |f - x * 2 ^ d| ≤ 1 / 2) :
    |f * 2 ^ e / 2 ^ 1075 - x| ≤ 2 ^ e / 2 ^ 1076 := by
  have hd0 : (0 : ℝ) < 2 ^ d := by positivity
  have he0 : (2 : ℝ) ^ e ≠ 0 := by positivity
  have hdiff : f * 2 ^ e / 2 ^ 1075 - x = (f - x * 2 ^ d) / 2 ^ d := by
    rw [← hd, pow_add]; field_simp
  have hulp : (2 : ℝ) ^ e / 2 ^ 1076 = 1 / 2 / 2 ^ d := by
    rw [show 1076 = e + d + 1 by omega, pow_succ, pow_add]; field_simp
  rw [hdiff, hulp, abs_div, abs_of_pos hd0]
  gcongr

theorem nearestBinary64_of_fields {n e r d : Nat} {x : ℝ} (hn : n = e * 2 ^ 52 + r) (hr0 : 0 < r) (hr : r < 2 ^ 52)
    (he : 1 ≤ e) (hd : e + d = 1075) (h : |((2 ^ 52 + r : Nat) : ℝ) - x * 2 ^ d| ≤ 1 / 2) : NearestBinary64 n x := by
  have hexp : n / 2 ^ 52 = e := by omega
  have hsig : n % 2 ^ 52 = r := by omega
  rw [NearestBinary64, hexp, hsig]
  exact ⟨he, by omega, by omega, abs_sub_le_half_ulp hd h⟩

/-! ### The real number `1.04 / sqrt(2^p)` in the scale of the significand -/

theorem relErr_real_even (k : Nat) : 1.04 / Real.sqrt (2 ^ (4 + 2 * k)) * 2 ^ (54 + k) = 1.04 * (2 : ℝ) ^ 52 := by
  have hsqrt : Real.sqrt (2 ^ (4 + 2 * k)) = 2 ^ (2 + k) := by
    rw [show 4 + 2 * k = (2 + k) * 2 by ring, pow_mul, Real.sqrt_sq (by positivity)]
  rw [hsqrt, show 54 + k = 52 + (2 + k) by ring, pow_add _ 52]
  field_simp

theorem relErr_real_odd (k : Nat) :
    1.04 / Real.sqrt (2 ^ (5 + 2 * k)) * 2 ^ (55 + k) = 1.04 * (2 : ℝ) ^ 52 * Real.sqrt 2 := by
  have hsqrt : Real.sqrt (2 ^ (5 + 2 * k)) = 2 ^ (2 + k) * Real.sqrt 2 := by
    rw [show 5 + 2 * k = (2 + k) * 2 + 1 by ring, pow_succ, pow_mul, Real.sqrt_mul (by positivity),
      Real.sqrt_sq (by positivity)]
  have htwo : Real.sqrt 2 * Real.sqrt 2 = 2 := Real.mul_self_sqrt zero_le_two
  rw [hsqrt, show 55 + k = 52 + (2 + k) + 1 by ring, pow_succ, pow_add _ 52]
  field_simp
  linarith

/-- The significand of the odd entries, against the square of `1.04 * 2^52 * sqrt 2`. -/
theorem relErr_significand_odd :
    |((2 ^ 52 + 0x78852D0FF33F3 : Nat) : ℝ) - 1.04 * (2 : ℝ) ^ 52 * Real.sqrt 2| ≤ 1 / 2 := by
  have hlow : ((2 ^ 52 + 0x78852D0FF33F3 - 1 / 2) / (1.04 * 2 ^ 52) : ℝ) ≤ Real.sqrt 2 :=
    Real.le_sqrt_of_sq_le (by norm_num)
  have hhigh : Real.sqrt 2 ≤ ((2 ^ 52 + 0x78852D0FF33F3 + 1 / 2) / (1.04 * 2 ^ 52) : ℝ) :=
    Real.sqrt_le_iff.2 ⟨by norm_num, by norm_num⟩
  rw [div_le_iff₀ (by norm_num)] at hlow
  rw [le_div_iff₀ (by norm_num)] at hhigh
  rw [abs_le]
  push_cast
  constructor <;> linarith

/-- Every entry of the table, by the parity of `p`. -/
theorem Hll.relErr_nearest {p : Nat} (hp : 4 ≤ p) (hp31 : p ≤ 31) :
    NearestBinary64 (Hll.relErr p).toNat (1.04 / Real.sqrt (2 ^ p)) := by
  obtain ⟨k, rfl | rfl⟩ : ∃ k, p = 4 + 2 * k ∨ p = 5 + 2 * k := ⟨(p - 4) / 2, by omega⟩
  · refine nearestBinary64_of_fields (d := 54 + k) (Hll.relErr_even (by omega)) (by norm_num) (by norm_num) (by omega)
      (by omega) ?_
    rw [relErr_real_even, abs_le]
    norm_num
  · refine nearestBinary64_of_fields (d := 55 + k) (Hll.relErr_odd (by omega)) (by norm_num) (by norm_num) (by omega)
      (by omega) ?_
    rw [relErr_real_odd]
    exact relErr_significand_odd

/-- Settles O52: RELERR's result is the entry of `p`, and `Ready` bounds `p` to the table. -/
theorem relerrIsTheNearestBinary64 : Obligations.RelerrIsTheNearestBinary64 := by
  refine ⟨by decide, fun s hinv => ⟨exec_of_not_configured (by decide), fun hv => ?_⟩⟩
  obtain ⟨hp, hp31, -⟩ := State.Ready.shape ⟨hinv, hv⟩
  exact ⟨_, exec_relerr hv, rfl, Hll.relErr_nearest hp hp31⟩

end Sys2Proof.Machine
end

section
/-! PROOFS. Which error a command reports and what it leaves (spec/60_exceptions.md R281, R282, R284, R286). -/

namespace Sys2Proof.Machine

open Sys2Proof.Spec

/-! ### The statements' error words and the model's -/

@[simp] theorem errorNumber_eq_code (e : ErrorCode) : errorNumber e = e.code := by
  cases e <;> rfl

/-- The matrix of R282 lists, command by command, the errors that the command can raise. -/
theorem mem_raisable_iff {i : Instr} {e : ErrorCode} : e ∈ raisable i ↔ e ∈ mayFail i := by
  have hperm : (raisable i).Perm (mayFail i) := by
    cases i
    case put => exact .rfl
    all_goals decide
  exact hperm.mem_iff

/-- A command that needs the array is one that can raise NOT_CONFIGURED. -/
theorem needsArray_iff {i : Instr} : needsArray i = true ↔ .notConfigured ∈ mayFail i := by
  cases i
  case put => exact iff_of_true rfl List.mem_cons_self
  all_goals decide

/-- Settles O18: of the two ways a command ends, only the error entry leaves ERR other than 0. -/
theorem failingCommandChangesStatusOnly : Obligations.FailingCommandChangesStatusOnly := by
  refine ⟨fun i s t h herr => ?_, fun c r s hd => runCommand_of_error hd s⟩
  obtain ⟨e, he, rfl⟩ | ⟨u, rfl, -⟩ := exec_next h
  · exact ⟨e, mem_raisable_iff.2 he, by rw [errorNumber_eq_code]; rfl⟩
  · exact absurd rfl herr

end Sys2Proof.Machine
end

section
/-! PROOFS. The estimate that EST checks is that of the spec in plain arithmetic (spec/44_hll.md R249 to R255). -/

namespace Sys2Proof.Machine

open Sys2Proof.Spec

/-- `Z` over a common denominator is the sum of the powers of 1/2, a register being at most 255 (R249). -/
theorem Hll.z_eq_zSum {s : State} (hw : s.w ≤ 8) : Hll.z s = zSum s := by
  have hterm (i : Nat) : (2 : ℚ) ^ (255 - s.get i) / 2 ^ 255 = (1 / 2) ^ s.get i := by
    have hget : s.get i < 2 ^ 8 := (s.get_lt hw i).trans_le (Nat.pow_le_pow_right Nat.two_pos hw)
    rw [pow_sub₀ _ two_ne_zero (by omega), mul_div_right_comm, div_self (by positivity), one_mul, one_div, inv_pow]
  simp only [Hll.z, Hll.zScaled, Hll.sumOver_eq, Nat.zero_add, Nat.cast_sum, Nat.cast_pow, Nat.cast_ofNat,
    Finset.sum_div, hterm, zSum, State.m]

/-- The model selects `alpha` by `m`, the statements by `p` (R251). -/
theorem Hll.alpha_eq_alphaOf (s : State) : Hll.alpha s.params.alpha64 s.m = alphaOf s := by
  have hm (k : Nat) : s.m = 2 ^ k ↔ s.p = k := Nat.pow_right_inj (le_refl 2)
  have hm0 : (s.m : ℚ) ≠ 0 := Nat.cast_ne_zero.2 (Nat.two_pow_pos s.p).ne'
  have hlarge : 7213 * (s.m : ℚ) / (10000 * s.m + 10790) = (7213 / 10000) / (1 + (1079 / 1000) / s.m) := by
    field_simp
    ring
  simp only [Hll.alpha, alphaOf, hlarge, ← hm, Nat.reducePow]

/-- `E` (R250). -/
theorem Hll.rawEstimate_eq_estimateE {s : State} (hw : s.w ≤ 8) : Hll.rawEstimate s = estimateE s := by
  rw [Hll.rawEstimate, Hll.alpha_eq_alphaOf, Hll.z_eq_zSum hw, estimateE]

/-- There is no estimate exactly in the large range from 2^32 on (R252, R255). -/
theorem Hll.estimate_eq_none_iff {m v : Nat} {e : ℚ} :
    Hll.estimate m v e = none ↔ 5 / 2 * (m : ℚ) < e ∧ 2 ^ 32 ≤ e := by
  unfold Hll.estimate
  split_ifs with hsmall _ hmiddle hlarge
  · simp [hsmall.not_gt]
  · simp [hsmall.not_gt]
  · simp only [false_iff, not_and, not_le]
    intro _
    linarith
  · simp [not_le.1 hsmall, hlarge]
  · simp [hlarge]

/-- EST of a configured array without an estimate reports EST_RANGE (R255). -/
theorem exec_est_of_range {s : State} (hw : s.w ≤ 8) (hv : s.cfg.valid = true) (hm : 5 / 2 * (s.m : ℚ) < estimateE s)
    (he : 2 ^ 32 ≤ estimateE s) : exec .est s = fail .estRange s := by
  have hnone : Hll.estimate s.m (Hll.v s) (Hll.rawEstimate s) = none :=
    Hll.estimate_eq_none_iff.2 (Hll.rawEstimate_eq_estimateE hw ▸ ⟨hm, he⟩)
  rw [exec, execEst, if_neg (ne_false_of_eq_true hv), hnone]

end Sys2Proof.Machine
end

section
/-! PROOFS. The order of the error checks (spec/60_exceptions.md R286), from the equation of each check. -/

namespace Sys2Proof.Machine

open Sys2Proof.Spec

/-- The message range is the one check of H32 and H128. -/
theorem exec_of_range_beyond_msg {i : Instr} {s : State} (hi : i = .h32 ∨ i = .h128)
    (h : s.params.msgSize < s.a0.toNat + s.a1.toNat) : exec i s = fail .addressRange s := by
  obtain rfl | rfl := hi <;> exact if_pos h

/-- Settles O21: each clause is the equation of its check, whose premises say that the checks before it pass. -/
theorem errorsAreCheckedInTheOrderOfThePriorities : Obligations.ErrorsAreCheckedInTheOrderOfThePriorities := by
  intro s hinv
  refine ⟨fun c r hd => ?illegalCommand, fun i hi => ?notConfigured, fun i hi => ?index, fun i hi hv ha => ?address,
    fun i hi => ?value, fun hv ha => ?rawwrValue, fun i hi => ?message, fun h => ?config, fun hv => ?est⟩
  case illegalCommand => exact runCommand_of_error hd s
  case notConfigured => exact exec_of_not_configured (needsArray_iff.1 hi)
  case index => exact exec_of_index_ge (by fin_cases hi <;> decide)
  case address => exact exec_of_address_ge (by simpa using hi) hv (hinv.nbytes_eq hv ▸ ha)
  case value => exact exec_of_value_ge (by simpa using hi)
  case rawwrValue => exact exec_rawwr_of_value_ge hv (hinv.nbytes_eq hv ▸ ha)
  case message => exact exec_of_range_beyond_msg (by simpa using hi)
  case config => exact exec_config_of_out_of_range (by omega)
  case est =>
    obtain ⟨-, -, -, hw8⟩ := hinv.configured hv
    exact exec_est_of_range hw8 hv

end Sys2Proof.Machine
end

section
/-! PROOFS. A command word decodes to an instruction exactly when it is the instruction's encoding, and which words belong to one
row of the opcode table (spec/30_encoding.md R91 to R93). -/

namespace Sys2Proof

open Sys2Proof.Spec

/-- The encoding puts OPC in bits 7:0, SRC in bit 8 and zeros above (R91). -/
theorem toNat_encode (i : Instr) : (encode i).toNat = 256 * srcOf i + opcodeOf i := by
  cases i
  case put src => cases src <;> rfl
  all_goals rfl

theorem decode_encode (i : Instr) : decode (encode i) = .ok i := by
  cases i
  case put src => cases src <;> decide
  all_goals decide

/-- The three fields of a word that decodes are those of the encoding, and they are the whole word. -/
theorem decode_eq_ok_iff_eq_encode (c : U32) (i : Instr) : decode c = .ok i ↔ c = encode i := by
  refine ⟨fun h => BitVec.eq_of_toNat_eq ?_, fun h => h ▸ decode_encode i⟩
  obtain ⟨hreserved, -, -⟩ := (decode_eq_ok_iff c i).1 h
  obtain ⟨hopc, hsrc⟩ := fields_of_decode_eq_ok h
  rw [CommandWord.reservedOk_iff] at hreserved
  rw [toNat_encode]
  omega

/-- Settles O1: decoding keeps every field of the word, and the encoding has those fields. -/
theorem decodeInvertsEncodeBothWays : Obligations.DecodeInvertsEncodeBothWays :=
  decode_eq_ok_iff_eq_encode

/-! ### The rows of the opcode table (R93) -/

/-- PUT is the one command that reads SRC. -/
theorem eq_put_or_srcOf_eq_zero (i : Instr) : (∃ src, i = .put src) ∨ opcodeOf i ≠ 0x30 ∧ srcOf i = 0 := by
  cases i
  case put src => exact .inl ⟨src, rfl⟩
  all_goals exact .inr (by decide)

theorem exists_decode_opcodeOf_iff (c : U32) (i : Instr) :
    (∃ j, decode c = .ok j ∧ opcodeOf j = opcodeOf i) ↔ ∃ j, c = encode j ∧ opcodeOf j = opcodeOf i := by
  simp only [decode_eq_ok_iff_eq_encode]

/-- A row without SRC is one word, its OPC. -/
theorem exists_encode_iff_of_srcOf {c : U32} {i : Instr} (hopc : opcodeOf i ≠ 0x30) (hsrc : srcOf i = 0) :
    (∃ j, c = encode j ∧ opcodeOf j = opcodeOf i) ↔ c = BitVec.ofNat 32 (opcodeOf i) := by
  have hword {j : Instr} (hj : opcodeOf j = opcodeOf i) (hj0 : srcOf j = 0) :
      encode j = BitVec.ofNat 32 (opcodeOf i) := by
    rw [← BitVec.setWidth_eq (encode j), ← BitVec.ofNat_toNat, toNat_encode, hj0, hj, Nat.mul_zero, Nat.zero_add]
  constructor
  · rintro ⟨j, rfl, hj⟩
    obtain ⟨src, rfl⟩ | ⟨-, hj0⟩ := eq_put_or_srcOf_eq_zero j
    · exact absurd hj.symm hopc
    · exact hword hj hj0
  · rintro rfl
    exact ⟨i, (hword rfl hsrc).symm, rfl⟩

/-- PUT's row is the two words that agree off bit 8. -/
theorem exists_encode_put_iff (c : U32) :
    (∃ j, c = encode j ∧ opcodeOf j = 0x30) ↔ c &&& 0xFFFFFEFF = 0x30 := by
  constructor
  · rintro ⟨j, rfl, hj⟩
    obtain ⟨src, rfl⟩ | ⟨hne, -⟩ := eq_put_or_srcOf_eq_zero j
    · cases src <;> decide
    · exact absurd hj hne
  · intro hmatch
    have hsplit : c = (c &&& 0xFFFFFEFF) ||| (c &&& BitVec.twoPow 32 8) := by
      rw [← BitVec.and_or_distrib_left, show (0xFFFFFEFF : U32) ||| BitVec.twoPow 32 8 = BitVec.allOnes 32 by decide,
        BitVec.and_allOnes]
    rw [hmatch, BitVec.and_twoPow] at hsplit
    cases hbit : c.getLsbD 8 <;> rw [hbit] at hsplit
    · exact ⟨.put .a0, hsplit, rfl⟩
    · exact ⟨.put .res0, hsplit, rfl⟩

/-- Settles O2: off PUT's row the mask keeps the whole word; on it the mask drops SRC. -/
theorem commandIsItsMatchUnderItsMask : Obligations.CommandIsItsMatchUnderItsMask := by
  intro c i
  rw [exists_decode_opcodeOf_iff]
  obtain ⟨src, rfl⟩ | ⟨hopc, hsrc⟩ := eq_put_or_srcOf_eq_zero i
  · exact exists_encode_put_iff c
  · have hmask : maskOf i = BitVec.allOnes 32 := by
      cases i
      case put => exact absurd rfl hopc
      all_goals rfl
    rw [hmask, BitVec.and_allOnes, exists_encode_iff_of_srcOf hopc hsrc]

/-- Settles O4: each word is the encoding of its instruction. -/
theorem wordsWrittenOutFromTheTableDecode : Obligations.WordsWrittenOutFromTheTableDecode :=
  ⟨decode_encode .config, decode_encode .rawwr, decode_encode .h32, decode_encode .h128, decode_encode .h64w2,
    decode_encode (.put .a0), decode_encode (.put .res0), decode_encode .est⟩

end Sys2Proof
end

section
/-! PROOFS. What every step keeps: the invariant, CFG.VALID and ESTICKY but for the host's clears (spec/10_state.md R39,
spec/70_reset_and_hazards.md R310), and that every step is answered (spec/60_exceptions.md R287). -/

namespace Sys2Proof.Machine

open Sys2Proof.Spec

/-! ### A step is nothing or one action -/

/-- With nothing pending a step changes nothing; otherwise it is the first pending action. -/
theorem step_cases {s t : State} (h : step s = .next t) :
    (s.pending = [] ∧ t = s) ∨ ∃ a rest, s.pending = a :: rest ∧ act a { s with pending := rest } = .next t := by
  cases hp : s.pending with
  | nil =>
    rw [step_of_idle hp] at h
    cases h
    exact .inl ⟨rfl, rfl⟩
  | cons a rest => exact .inr ⟨a, rest, rfl, step_of_pending hp ▸ h⟩

/-- An action runs a command word, or it is one of the state's own updates. -/
theorem act_cases {a : HostAction} {s t : State} (h : act a s = .next t) :
    (∃ v, a = .writeReg 0 v ∧ runCommand (low32 v) s = .next t) ∨
    (∃ n v, n ≠ 0 ∧ a = .writeReg n v ∧ t = s.storeReg n v) ∨
    (∃ r, a ≠ .reset ∧ t = s.reply r) ∨
    (∃ n b, a = .writeMsg n b ∧ t = s.writeMsg n b) ∨
    (a = .reset ∧ t = s.hostReset) := by
  cases a with
  | writeReg n v =>
    by_cases hn : n = 0
    · subst hn
      exact .inl ⟨v, rfl, h⟩
    · rw [act_writeReg_of_ne_cmd hn] at h
      cases h
      exact .inr (.inl ⟨n, v, hn, rfl, rfl⟩)
  | readReg n => cases h; exact .inr (.inr (.inl ⟨_, nofun, rfl⟩))
  | writeMsg n b => cases h; exact .inr (.inr (.inr (.inl ⟨n, b, rfl, rfl⟩)))
  | readMsg n => cases h; exact .inr (.inr (.inl ⟨_, nofun, rfl⟩))
  | reset => cases h; exact .inr (.inr (.inr (.inr ⟨rfl, rfl⟩)))

/-- A command word ends in an error that a word can raise, or with a command's effect. -/
theorem runCommand_next {c : U32} {s t : State} (h : runCommand c s = .next t) :
    (∃ e, e ≠ .corruptData ∧ t = s.raiseError e) ∨ ∃ i u, t = u.succeed ∧ Effect i s u := by
  obtain ⟨i, -, hrun⟩ | ⟨r, -, hrun⟩ := runCommand_cases c s <;> rw [hrun] at h
  · obtain ⟨e, he, rfl⟩ | ⟨u, rfl, hu⟩ := exec_next h
    · refine .inl ⟨e, ?_, rfl⟩
      rintro rfl
      cases i <;> simp [mayFail] at he
    · exact .inr ⟨i, u, rfl, hu⟩
  · exact .inl ⟨.illegalCommand, nofun, fail_next_iff.1 h⟩

/-! ### The invariant -/

theorem Effect.inv {i : Instr} {s u : State} (h : Effect i s u) (hinv : s.Inv) : u.Inv := by
  cases i <;> simp only [Effect] at h
  case config => obtain ⟨hp, hp31, hpm, hw, hw8, rfl⟩ := h; exact hinv.construct hp hp31 hpm hw hw8
  case rset => obtain ⟨hv, ha, -, rfl⟩ := h; exact hinv.setField hv ha _
  case rclr => obtain ⟨-, rfl⟩ := h; exact hinv.zeroFill
  case rawwr => obtain ⟨-, ha, -, rfl⟩ := h; exact hinv.setRawByte ha _
  case rmax => obtain ⟨hv, ha, -, rfl⟩ := h; exact hinv.maxField hv ha _
  case put src => obtain ⟨hv, rfl⟩ := h; exact (State.Ready.putHash ⟨hinv, hv⟩ _).1
  case h128 => obtain ⟨_, _, rfl⟩ := h; exact hinv.setRes _ _
  all_goals obtain ⟨_, rfl⟩ := h; exact hinv.setRes0 _

theorem State.Inv.act {a : HostAction} {s t : State} (hinv : s.Inv) (h : act a s = .next t) : t.Inv := by
  obtain ⟨v, -, hrun⟩ | ⟨n, v, -, -, rfl⟩ | ⟨r, -, rfl⟩ | ⟨n, b, -, rfl⟩ | ⟨-, rfl⟩ := act_cases h
  · obtain ⟨e, he, rfl⟩ | ⟨i, u, rfl, hu⟩ := runCommand_next hrun
    · exact hinv.raiseError he
    · exact (hu.inv hinv).succeed
  · exact hinv.storeReg n v
  · exact hinv.reply r
  · exact hinv.writeMsg n b
  · exact hinv.hostReset

/-- Settles O26: every action keeps the invariant, and the list of pending actions is no part of it. -/
theorem everyStepKeepsTheInvariant : Obligations.EveryStepKeepsTheInvariant := by
  intro s t hinv h
  obtain ⟨-, rfl⟩ | ⟨a, rest, -, ha⟩ := step_cases h
  · exact hinv
  · exact State.Inv.act (s := { s with pending := rest }) (hinv.congr rfl rfl rfl rfl hinv.err) ha

/-- Settles O27: every field of the reset state is empty or 0. -/
theorem theInvariantHoldsAfterReset : Obligations.TheInvariantHoldsAfterReset := fun _ hwf =>
  ⟨hwf, nofun, fun _ => ⟨rfl, rfl⟩, List.mem_cons_self, Memory.wf_nil _, Memory.below_nil _, Memory.wf_nil _,
    Memory.below_nil _⟩

/-! ### VALID and ESTICKY -/

/-- No command clears VALID: CONFIG sets it, every other command leaves CFG. -/
theorem Effect.valid {i : Instr} {s u : State} (h : Effect i s u) (hv : s.cfg.valid = true) : u.cfg.valid = true := by
  by_cases hi : i = .config
  · subst hi
    obtain ⟨-, -, -, -, -, rfl⟩ := h
    rfl
  · rw [h.cfg hi, hv]

theorem act_valid {a : HostAction} {s t : State} (h : act a s = .next t) (ha : a ≠ .reset) (hv : s.cfg.valid = true) :
    t.cfg.valid = true := by
  obtain ⟨v, -, hrun⟩ | ⟨n, v, -, -, rfl⟩ | ⟨r, -, rfl⟩ | ⟨n, b, -, rfl⟩ | ⟨hreset, -⟩ := act_cases h
  · obtain ⟨e, -, rfl⟩ | ⟨i, u, rfl, hu⟩ := runCommand_next hrun
    · exact hv
    · exact hu.valid hv
  · rw [State.storeReg_cfg, hv]
  · exact hv
  · rw [State.writeMsg_cfg, hv]
  · exact absurd hreset ha

/-- Settles O13: every action but Reset keeps VALID. -/
theorem onlyResetUnconfiguresTheBlock : Obligations.OnlyResetUnconfiguresTheBlock := by
  intro s t h hv ht
  obtain ⟨-, rfl⟩ | ⟨a, rest, hp, ha⟩ := step_cases h
  · exact absurd ht (ne_false_of_eq_true hv)
  · by_cases hreset : a = .reset
    · exact ⟨rest, hreset ▸ hp⟩
    · exact absurd ht (ne_false_of_eq_true (act_valid ha hreset hv))

/-- Bit 8 of a host write, as a number (R29). -/
theorem getLsbD_eight (v : U64) : v.getLsbD 8 = decide (v.toNat / 2 ^ 8 % 2 = 1) := by
  rw [BitVec.getLsbD, Nat.testBit_eq_decide_div_mod_eq]

theorem Actions.clearsEsticky_iff {h : HostAction} :
    clearsEsticky h = true ↔ ∃ v : U64, h = .writeReg 1 v ∧ v.toNat / 2 ^ 8 % 2 = 1 := by
  cases h with
  | writeReg n v =>
    simp only [clearsEsticky, getLsbD_eight, Bool.and_eq_true, beq_iff_eq, decide_eq_true_eq, HostAction.writeReg.injEq]
    exact ⟨fun ⟨hn, hv⟩ => ⟨v, ⟨hn, rfl⟩, hv⟩, fun ⟨_, ⟨hn, hv⟩, hbit⟩ => ⟨hn, hv ▸ hbit⟩⟩
  | readReg _ | writeMsg _ _ | readMsg _ | reset => exact iff_of_false nofun nofun

/-- Settles O14: of what an action can do to ESTICKY, only the host's clear and Reset clear it. -/
theorem onlyTheHostClearsEsticky : Obligations.OnlyTheHostClearsEsticky := by
  intro s t h hs ht
  obtain ⟨-, rfl⟩ | ⟨a, rest, hp, ha⟩ := step_cases h
  · exact absurd ht (ne_false_of_eq_true hs)
  · obtain ⟨v, -, -, hset⟩ | ⟨hkeep, -⟩ | ⟨-, hclear | rfl⟩ := Actions.act_esticky ha
    · exact absurd ht (ne_false_of_eq_true hset)
    · exact absurd ht (ne_false_of_eq_true (hkeep.trans hs))
    · obtain ⟨v, rfl, hbit⟩ := Actions.clearsEsticky_iff.1 hclear
      exact .inr ⟨v, rest, hp, hbit⟩
    · exact .inl ⟨rest, hp⟩

/-! ### Every command and every action is answered -/

theorem act_answers (a : HostAction) (s : State) : ∃ t, act a s = .next t := by
  unfold act
  split
  · exact runCommand_answers _ s
  all_goals exact ⟨_, rfl⟩

/-- Settles O17: a step is no action, or one action, and a command word fails or runs its command. -/
theorem everyCommandAndEveryActionCompletes : Obligations.EveryCommandAndEveryActionCompletes := by
  refine ⟨exec_answers, fun s => ?_⟩
  cases hp : s.pending with
  | nil => exact ⟨s, step_of_idle hp⟩
  | cons a rest => exact step_of_pending hp ▸ act_answers a _

/-- Settles O6: the empty list is the idle case of a step. -/
theorem idleHostLeavesTheBlockAsItIs : Obligations.IdleHostLeavesTheBlockAsItIs :=
  fun _ => step_of_idle

/-- Settles O12: the step is `hostReset`. -/
theorem resetPutsTheBlockInTheResetState : Obligations.ResetPutsTheBlockInTheResetState := fun _ _ hp =>
  ⟨_, step_of_pending hp, rfl, rfl, rfl, rfl, rfl, rfl, rfl, rfl, rfl, rfl, fun _ => rfl⟩

end Sys2Proof.Machine
end

section
/-! PROOFS. The host's side: the values of the register map, the writable registers, MSG, the bus windows, and runs of the host's
list (spec/10_state.md R25 to R35, spec/20_memory.md R63, R72, spec/70_reset_and_hazards.md R315). -/

namespace Sys2Proof.Machine

open Sys2Proof.Spec

/-! ### Reads of the register map (R29, R30, R32) -/

/-- A field above another one is added to it. -/
theorem toNat_or_shiftLeft {x y : U64} {k : Nat} (hx : x.toNat < 2 ^ k) (hy : y.toNat * 2 ^ k < 2 ^ 64) :
    (x ||| (y <<< k)).toNat = x.toNat + 2 ^ k * y.toNat := by
  rw [BitVec.toNat_or, BitVec.toNat_shiftLeft, Nat.shiftLeft_eq, Nat.mod_eq_of_lt hy, Nat.or_comm, Nat.mul_comm,
    ← Nat.two_pow_add_eq_or_of_lt hx, Nat.add_comm]

theorem toNat_zext64 {n : Nat} (hn : n ≤ 64) (x : BitVec n) : (zext64 x).toNat = x.toNat :=
  BitVec.toNat_setWidth_of_le hn

theorem Status.toNat_word (st : Status) : st.word.toNat = st.err.toNat + 2 ^ 8 * st.esticky.toNat := by
  have herr := toNat_zext64 (by decide) st.err
  have hsticky := toNat_zext64 (by decide) (BitVec.ofBool st.esticky)
  rw [BitVec.toNat_ofBool] at hsticky
  have := st.err.isLt
  have := st.esticky.toNat_lt
  rw [Status.word, toNat_or_shiftLeft (by omega) (by omega), herr, hsticky]

theorem Cfg.toNat_word (c : Cfg) : c.word.toNat = c.w.toNat + 2 ^ 8 * c.p.toNat + 2 ^ 31 * c.valid.toNat := by
  have hw := toNat_zext64 (by decide) c.w
  have hp := toNat_zext64 (by decide) c.p
  have hvalid := toNat_zext64 (by decide) (BitVec.ofBool c.valid)
  rw [BitVec.toNat_ofBool] at hvalid
  have := c.w.isLt
  have := c.p.isLt
  have := c.valid.toNat_lt
  have hlow := toNat_or_shiftLeft (x := zext64 c.w) (y := zext64 c.p) (k := 8) (by omega) (by omega)
  rw [Cfg.word, toNat_or_shiftLeft (by omega) (by omega), hlow, hw, hp, hvalid]

/-- Settles O8: the reply is `readReg`, whose words are the sums of their fields. -/
theorem hostReadsReturnTheRegisterMap : Obligations.HostReadsReturnTheRegisterMap := by
  intro s n rest hwf hp
  obtain ⟨-, hpm, -, hmsg⟩ := Config.Params.wf_bounds hwf
  refine ⟨s.readReg n, by rw [step_of_pending hp]; rfl, ?cmd, ?status, ?cfg, ?seed, ?a0, ?a1, ?res0, ?res1, ?cap,
    s.readReg_of_absent⟩ <;>
    rintro rfl
  case status => exact s.status.toNat_word
  case cfg => exact s.cfg.toNat_word
  case seed => exact toNat_zext64 (by decide) s.seed
  case cap =>
    show s.params.capWord.toNat = _
    rw [Config.Params.capWord_toNat (by omega) (by omega)]
    omega
  all_goals rfl

/-! ### Writes to the register map (R25, R29) -/

theorem step_of_writeReg {s : State} {n : Nat} {v : U64} {rest : List HostAction} (hn : n ≠ 0)
    (hp : s.pending = .writeReg n v :: rest) : step s = .next (State.storeReg { s with pending := rest } n v) := by
  rw [step_of_pending hp, act_writeReg_of_ne_cmd hn]

/-- Settles O9: the step is `storeReg`, and STATUS looks at bit 8 of the value. -/
theorem hostWritesStoreInTheRegisterMap : Obligations.HostWritesStoreInTheRegisterMap := by
  intro s n v rest hp
  refine ⟨?_, ?_, ?_, ?_, ?_⟩ <;> rintro rfl <;> rw [step_of_writeReg (by decide) hp]
  · exact ⟨low32 v, BitVec.toNat_setWidth 32 v, rfl⟩
  · rfl
  · rfl
  all_goals
    intro hbit
    simp only [State.storeReg, Status.hostWrite, getLsbD_eight, hbit, decide_true, zero_ne_one, decide_false, if_true,
      Bool.false_eq_true, if_false]

/-! ### MSG (R35) -/

theorem State.readMsg_of_lt {s : State} {a : Nat} (ha : a < s.params.msgSize) : s.readMsg a = s.msgByte a := if_pos ha

section Msg

variable {s : State} {a : Nat} {b : Byte}

theorem act_writeMsg_of_ge (ha : s.params.msgSize ≤ a) : act (.writeMsg a b) s = .next s :=
  congrArg _ (if_neg (Nat.not_lt.2 ha))

theorem act_readMsg_of_lt (ha : a < s.params.msgSize) : act (.readMsg a) s = .next (s.reply (.msg a (s.msgByte a))) :=
  congrArg (Host.Outcome.next ∘ s.reply ∘ .msg a) (State.readMsg_of_lt ha)

theorem act_readMsg_of_ge (ha : s.params.msgSize ≤ a) : act (.readMsg a) s = .next (s.reply (.msg a 0)) :=
  congrArg (Host.Outcome.next ∘ s.reply ∘ .msg a) (if_neg (Nat.not_lt.2 ha))

end Msg

/-- Settles O11: a step is `writeMsg` or a reply, below MSG_SIZE and from there on. -/
theorem hostReachesEveryByteOfMsg : Obligations.HostReachesEveryByteOfMsg := by
  intro s a b rest
  refine ⟨fun hp ha => ?_, fun hp ha => (step_of_pending hp).trans (act_writeMsg_of_ge ha),
    fun hp ha => (step_of_pending hp).trans (act_readMsg_of_lt ha),
    fun hp ha => (step_of_pending hp).trans (act_readMsg_of_ge ha)⟩
  have hbyte := State.msgByte_writeMsg (s := { s with pending := rest }) ha b
  exact ⟨_, step_of_pending hp, State.writeMsg_eq .., (hbyte a).trans (if_pos rfl),
    fun x hx => (hbyte x).trans (if_neg hx)⟩

/-! ### The bus windows (R63, R72) -/

namespace Bus

section Target

variable (c : Config.Params) {off : Nat}

theorem target_reg (h : off < 0x48) : target c (c.base + off) = .reg (off / 8) (off % 8) := by
  simp only [target, Nat.not_lt.2 (Nat.le_add_right _ _), Nat.add_sub_cancel_left, h, if_true, if_false]

theorem target_reserved (h : 0x48 ≤ off) (h' : off < 0x1000) : target c (c.base + off) = .reserved := by
  simp only [target, Nat.not_lt.2 (Nat.le_add_right _ _), Nat.add_sub_cancel_left, Nat.not_lt.2 h, h', if_true, if_false]

theorem target_msg {a : Nat} (h : a < c.msgSize) : target c (c.base + 0x1000 + a) = .msg a := by
  have hoff : c.base + 0x1000 + a - c.base = 0x1000 + a := by omega
  rw [target, if_neg (by omega), hoff]
  dsimp only
  rw [if_neg (by omega), if_neg (by omega), if_pos (by omega), Nat.add_sub_cancel_left]

theorem target_outside {addr : Nat} (h : addr < c.base ∨ c.base + 0x1000 + c.msgSize ≤ addr) :
    target c addr = .outside := by
  unfold target
  split
  · rfl
  · dsimp only
    rw [if_neg (by omega), if_neg (by omega), if_neg (by omega)]

end Target

variable {s : State}

theorem readByte_reg {n k : Nat} (hn : n ≤ 8) (hk : k < 8) :
    readByte s (s.params.base + 8 * n + k) = some (bytesLe (s.readReg n) (0 + k)) := by
  have hdiv : (8 * n + k) / 8 = n := by omega
  have hmod : (8 * n + k) % 8 = k := by omega
  rw [readByte, Nat.add_assoc, target_reg _ (by omega), hdiv, hmod, Nat.zero_add]
  rfl

theorem readByte_msg {a : Nat} (h : a < s.params.msgSize) :
    readByte s (s.params.base + 0x1000 + a) = some (s.msgByte a) := by
  rw [readByte, target_msg _ h]
  exact congrArg some (State.readMsg_of_lt h)

theorem read_succ {addr n v : Nat} {b : Byte} (hv : read s addr n = some v) (hb : readByte s (addr + n) = some b) :
    read s addr (n + 1) = some (v + b.toNat * 2 ^ (8 * n)) := by
  rw [read, hv, hb]

/-- Bytes read one by one make the little-endian number of the bytes (R61, R63). -/
theorem read_eq_memRead {addr a n : Nat} (rd : Nat → Byte) (h : ∀ k, k < n → readByte s (addr + k) = some (rd (a + k))) :
    read s addr n = some (memRead rd a n) := by
  induction n with
  | zero => rfl
  | succ n ih => exact read_succ (ih fun k hk => h k (by omega)) (h n (by omega))

theorem read_reg {n : Nat} (hn : n ≤ 8) : read s (s.params.base + 8 * n) 8 = some (s.readReg n).toNat := by
  rw [read_eq_memRead (bytesLe (s.readReg n)) fun k hk => readByte_reg hn hk, memRead_bytesLe]

/-- One byte of MSG, or several, little-endian. -/
theorem read_msg {a n : Nat} (h : a + n ≤ s.params.msgSize) :
    read s (s.params.base + 0x1000 + a) n = some (memRead s.msgByte a n) :=
  read_eq_memRead s.msgByte fun k hk => by rw [Nat.add_assoc]; exact readByte_msg (by omega)

theorem read_one_of_readByte {addr : Nat} : read s addr 1 = (readByte s addr).map BitVec.toNat := by
  rw [read, read, Nat.add_zero]
  cases readByte s addr with
  | none => rfl
  | some b => exact congrArg some (by simp)

end Bus

/-- Settles O16: every address of a window has its target, and the bytes there are those of a register or of MSG. -/
theorem busWindowsAreThoseOfTheMap : Obligations.BusWindowsAreThoseOfTheMap := by
  intro s
  refine ⟨fun n hn => Bus.read_reg hn, fun n v hn => ?regWrite, fun off h h' => ⟨?reservedRead, fun v => ?reservedWrite⟩,
    fun a ha => ⟨?msgRead, fun v => ?msgWrite⟩, fun a ha => ?msgReadTwo, fun addr h => ?outside⟩
  case regWrite =>
    rw [Bus.write, Bus.target_reg _ (by omega), Nat.mul_div_cancel_left n (by decide), Nat.mul_mod_right]
    rfl
  case reservedRead =>
    rw [Bus.read_one_of_readByte, Bus.readByte, Bus.target_reserved _ h h']
    rfl
  case reservedWrite => simp only [Bus.write, Bus.writeBytes, Nat.add_zero, Bus.target_reserved _ h h']
  case msgRead =>
    rw [Bus.read_one_of_readByte, Bus.readByte_msg ha]
    rfl
  case msgWrite =>
    simp only [Bus.write, Bus.writeBytes, Nat.add_zero, Bus.target_msg _ ha, Nat.mul_zero, Nat.pow_zero, Nat.div_one,
      List.nil_append]
  case msgReadTwo =>
    rw [Bus.read_msg ha, memRead_cons, memRead_cons]
    rfl
  case outside =>
    rw [Bus.read_one_of_readByte, Bus.readByte, Bus.target_outside _ h]
    rfl

end Sys2Proof.Machine
end

section
/-! PROOFS. Runs of the host's list (spec/70_reset_and_hazards.md R315): the list that stands in the state is taken in order, and a
run has gone wrong when a command of it failed. -/

namespace Sys2Proof.Machine

open Sys2Proof.Spec

/-! ### The list of pending actions is no input of an action -/

theorem exec_sameBut {i : Instr} {s t : State} (h : exec i s = .next t) : SameBut { s with status := t.status } t := by
  obtain ⟨e, -, rfl⟩ | ⟨u, rfl, hu⟩ := exec_next h
  · rfl
  · rw [hu.sameBut]
    rfl

theorem runCommand_host {c : U32} {s t : State} (h : runCommand c s = .next t) :
    t.pending = s.pending ∧ t.replies = s.replies := by
  obtain ⟨i, -, hrun⟩ | ⟨r, -, hrun⟩ := runCommand_cases c s <;> rw [hrun] at h
  · rw [exec_sameBut h]
    exact ⟨rfl, rfl⟩
  · rw [fail_next_iff.1 h]
    exact ⟨rfl, rfl⟩

/-- The state with another list of pending actions. -/
def State.withPending (p : List HostAction) (s : State) : State := { s with pending := p }

theorem runCommand_withPending (p : List HostAction) {c : U32} {s t : State} (h : runCommand c s = .next t) :
    runCommand c (s.withPending p) = .next (t.withPending p) := by
  have hreside := runCommand_reside p s.replies s c
  rw [h, mapNext, ← (runCommand_host h).2] at hreside
  rw [State.withPending, ← (runCommand_host h).2]
  exact hreside

/-- An action does the same whatever the host has pending, and leaves that. -/
theorem act_withPending (p : List HostAction) {a : HostAction} {s t : State} (h : act a s = .next t) :
    act a (s.withPending p) = .next (t.withPending p) ∧ t.pending = s.pending := by
  cases a with
  | writeReg n v =>
    by_cases hn : n = 0
    · subst hn
      exact ⟨runCommand_withPending p h, (runCommand_host h).1⟩
    · rw [act_writeReg_of_ne_cmd hn] at h ⊢
      cases h
      refine ⟨congrArg Host.Outcome.next ?_, by simp⟩
      unfold State.storeReg
      split <;> rfl
  | writeMsg n b =>
    cases h
    refine ⟨congrArg Host.Outcome.next (Eq.symm ?_), by simp⟩
    exact apply_ite (State.withPending p) (n < s.params.msgSize) _ _
  | readReg _ | readMsg _ | reset => cases h; exact ⟨rfl, rfl⟩

theorem core_run_succ (k : Nat) {s t : State} (h : step s = .next t) :
    Host.Core.run core (k + 1) s = Host.Core.run core k t := by
  have hstep : core.step s = .next t := h
  simp only [Host.Core.run, hstep]

/-- Settles O7: the first step is the first action, on which what is still pending has no influence. -/
theorem runTakesTheListedActionsInOrder : Obligations.RunTakesTheListedActionsInOrder := by
  intro l rest s hp
  show _ = Actions.run l (s.withPending rest)
  induction l generalizing s with
  | nil =>
    obtain rfl : s.pending = rest := hp
    rfl
  | cons a l ih =>
    obtain ⟨t, ha⟩ := act_answers a (s.withPending (l ++ rest))
    obtain ⟨harest, hpending⟩ := act_withPending rest ha
    rw [List.length_cons, core_run_succ _ ((step_of_pending hp).trans ha), ih t hpending]
    exact (Actions.run_cons l harest).symm

/-! ### When a run has gone wrong (R315) -/

namespace Actions

theorem any_clearsEsticky_eq_false_iff {l : List HostAction} :
    l.any clearsEsticky = false ↔ ∀ v : U64, .writeReg 1 v ∈ l → v.toNat / 2 ^ 8 % 2 = 0 := by
  simp only [List.any_eq_false, clearsEsticky_iff, not_exists, not_and, Nat.mod_two_ne_one]
  exact ⟨fun h v hv => h _ hv v rfl, fun h a ha v hav => h v (hav ▸ ha)⟩

theorem goneWrong_iff {l : List HostAction} {t : State} :
    goneWrong l t = true ↔ t.status.esticky = true ∧ l.any clearsEsticky = false := by
  rw [goneWrong, Bool.and_eq_true, Bool.not_eq_true']

theorem run_cons_cases {a : HostAction} {l : List HostAction} {s t : State} (h : run (a :: l) s = .next t) :
    ∃ u, act a s = .next u ∧ run l u = .next t := by
  obtain ⟨u, ha⟩ := act_answers a s
  exact ⟨u, ha, run_cons l ha ▸ h⟩

/-- A command that fails after an action fails in the longer list. -/
theorem commandFails_cons {a : HostAction} {l : List HostAction} {s u : State} (ha : act a s = .next u)
    (h : CommandFails l u) : CommandFails (a :: l) s := by
  obtain ⟨before, after, v, x, y, rfl, hbefore, hv, herr⟩ := h
  exact ⟨a :: before, after, v, x, y, rfl, (run_cons before ha).trans hbefore, hv, herr⟩

/-- ESTICKY is set by a failing command only. -/
theorem commandFails_of_esticky {l : List HostAction} {s t : State} (h : run l s = .next t)
    (hs : s.status.esticky = false) (ht : t.status.esticky = true) : CommandFails l s := by
  induction l generalizing s with
  | nil =>
    cases h
    exact absurd hs (ne_false_of_eq_true ht)
  | cons a l ih =>
    obtain ⟨u, ha, hl⟩ := run_cons_cases h
    obtain ⟨v, rfl, herr, -⟩ | ⟨hkeep, -⟩ | ⟨hclear, -⟩ := act_esticky ha
    · exact ⟨[], l, v, s, u, rfl, rfl, ha, herr⟩
    · exact commandFails_cons ha (ih hl (hkeep.trans hs))
    · exact commandFails_cons ha (ih hl hclear)

/-- Without Reset and a host clear ESTICKY stays set. -/
theorem esticky_of_run {l : List HostAction} {s t : State} (h : run l s = .next t) (hreset : .reset ∉ l)
    (hclear : l.any clearsEsticky = false) (hs : s.status.esticky = true) : t.status.esticky = true := by
  induction l generalizing s with
  | nil =>
    cases h
    exact hs
  | cons a l ih =>
    obtain ⟨u, ha, hl⟩ := run_cons_cases h
    rw [List.mem_cons, not_or] at hreset
    rw [List.any_cons, Bool.or_eq_false_iff] at hclear
    refine ih hl hreset.2 hclear.2 ?_
    obtain ⟨-, -, -, hset⟩ | ⟨hkeep, -⟩ | ⟨-, hcl | hr⟩ := act_esticky ha
    · exact hset
    · exact hkeep.trans hs
    · exact absurd hclear.1 (ne_false_of_eq_true hcl)
    · exact absurd hr.symm hreset.1

/-- A write to CMD that leaves a code in ERR has set ESTICKY. -/
theorem esticky_of_err_ne_zero {v : U64} {s t : State} (h : act (.writeReg 0 v) s = .next t) (herr : t.status.err ≠ 0) :
    t.status.esticky = true := by
  obtain ⟨-, -, -, hset⟩ | ⟨-, -, -, hok⟩ | ⟨-, hcl | hr⟩ := act_esticky h
  · exact hset
  · exact absurd (hok v rfl) herr
  · exact absurd hcl Bool.false_ne_true
  · exact absurd hr nofun

theorem run_append_cases {l l' : List HostAction} {s t u : State} (h : run (l ++ l') s = .next t)
    (hl : run l s = .next u) : run l' u = .next t := run_append l' hl ▸ h

end Actions

/-- Settles O54: a failing command sets ESTICKY, nothing else sets it, and only the host's clear and Reset clear it. -/
theorem runHasGoneWrongWhenACommandFailed : Obligations.RunHasGoneWrongWhenACommandFailed := by
  refine ⟨fun l t => by rw [Actions.goneWrong_iff, Actions.any_clearsEsticky_eq_false_iff], ?_⟩
  intro l s t hclearStart hrun
  refine ⟨fun hwrong => ?_, fun hfails hreset hclear => ?_⟩
  · exact Actions.commandFails_of_esticky hrun (Bool.not_eq_true' _ ▸ hclearStart) (Actions.goneWrong_iff.1 hwrong).1
  · rw [← Actions.any_clearsEsticky_eq_false_iff] at hclear
    refine Actions.goneWrong_iff.2 ⟨?_, hclear⟩
    obtain ⟨before, after, v, x, y, rfl, hbefore, hv, herr⟩ := hfails
    obtain ⟨y', hv', hafter⟩ := Actions.run_cons_cases (Actions.run_append_cases hrun hbefore)
    cases hv.symm.trans hv'
    rw [List.mem_append, List.mem_cons, not_or, not_or] at hreset
    rw [List.any_append, List.any_cons, Bool.or_eq_false_iff, Bool.or_eq_false_iff] at hclear
    obtain ⟨-, -, hresetAfter⟩ := hreset
    obtain ⟨-, -, hclearAfter⟩ := hclear
    exact Actions.esticky_of_run hafter hresetAfter hclearAfter (Actions.esticky_of_err_ne_zero hv herr)

end Sys2Proof.Machine
end

section
/-! PROOFS. What a command can write, what its STATUS says, which errors it can raise, and that it does not look at STATUS
(spec/10_state.md R21 to R36, spec/60_exceptions.md R282, R285). -/

namespace Sys2Proof.Machine

open Sys2Proof.Spec

/-! ### What a command leaves -/

/-- Settles O22: a command writes CFG, RAW, the results and STATUS only. -/
theorem noCommandWritesOperandsSeedOrMessage : Obligations.NoCommandWritesOperandsSeedOrMessage := by
  intro i s t h
  rw [exec_sameBut h]
  exact ⟨rfl, rfl, rfl, rfl, rfl, rfl, rfl, rfl⟩

/-- RES1 is H128's, RES0 that of the commands with a result (R22). -/
theorem Effect.results {i : Instr} {s u : State} (h : Effect i s u) :
    (i ≠ .h128 → u.res1 = s.res1) ∧
    (i ∉ [Instr.rget, .rawrd, .h32, .h128, .h32w1, .h32w2, .h64w1, .h64w2, .est, .relerr] → u.res0 = s.res0) := by
  cases i <;> simp only [Effect] at h
  case config => obtain ⟨-, -, -, -, -, rfl⟩ := h; exact ⟨fun _ => rfl, fun _ => rfl⟩
  case rset => obtain ⟨-, -, -, rfl⟩ := h; exact ⟨fun _ => rfl, fun _ => rfl⟩
  case rclr => obtain ⟨-, rfl⟩ := h; exact ⟨fun _ => rfl, fun _ => rfl⟩
  case rawwr => obtain ⟨-, -, -, rfl⟩ := h; exact ⟨fun _ => rfl, fun _ => rfl⟩
  case rmax => obtain ⟨-, -, -, rfl⟩ := h; exact ⟨fun _ => State.maxField_res1 .., fun _ => State.maxField_res0 ..⟩
  case put => obtain ⟨-, rfl⟩ := h; exact ⟨fun _ => State.maxField_res1 .., fun _ => State.maxField_res0 ..⟩
  case h128 => exact ⟨fun hi => absurd rfl hi, fun hi => absurd (by decide) hi⟩
  all_goals obtain ⟨_, rfl⟩ := h; exact ⟨fun _ => rfl, fun hi => absurd (by decide) hi⟩

/-- Settles O23: an error leaves both results, and a success writes those of its effect. -/
theorem resultRegistersAreWrittenByTheirCommandsOnly : Obligations.ResultRegistersAreWrittenByTheirCommandsOnly := by
  intro i s t h
  obtain ⟨e, -, rfl⟩ | ⟨u, rfl, hu⟩ := exec_next h
  · exact ⟨fun _ => rfl, fun _ => rfl⟩
  · exact hu.results

/-- RAW is left by the commands that only read (R23). -/
theorem Effect.raw {i : Instr} {s u : State} (h : Effect i s u)
    (hi : i ∉ [Instr.config, .rset, .rclr, .rawwr, .rmax, .put .a0, .put .res0]) : u.raw = s.raw := by
  cases i <;> simp only [Effect] at h
  case put src => cases src <;> exact absurd (by decide) hi
  case config | rset | rclr | rawwr | rmax => exact absurd (by decide) hi
  case h128 => obtain ⟨_, _, rfl⟩ := h; rfl
  all_goals obtain ⟨_, rfl⟩ := h; rfl

/-- Settles O24: an error leaves CFG and RAW, and a success writes those of its effect. -/
theorem configurationAndArrayAreWrittenByTheirCommandsOnly :
    Obligations.ConfigurationAndArrayAreWrittenByTheirCommandsOnly := by
  intro i s t h
  obtain ⟨e, -, rfl⟩ | ⟨u, rfl, hu⟩ := exec_next h
  · exact ⟨fun _ => rfl, fun _ => ⟨rfl, fun _ => rfl⟩⟩
  · exact ⟨hu.cfg, fun hi => ⟨hu.raw hi, fun a => congrArg (Memory.rawRead · a) (hu.raw hi)⟩⟩

/-! ### STATUS (R285) -/

/-- Settles O19: a command raises one of its errors, or succeeds with the STATUS of its start. -/
theorem statusReportsTheLastCommand : Obligations.StatusReportsTheLastCommand := by
  intro i s t h
  obtain ⟨e, he, rfl⟩ | ⟨u, rfl, hu⟩ := exec_next h
  · exact .inr ⟨e, mem_raisable_iff.2 he, by rw [errorNumber_eq_code]; rfl⟩
  · rw [hu.sameBut]
    exact .inl rfl

/-- The state with another STATUS. -/
def State.withStatus (st : Status) (s : State) : State := { s with status := st }

/-- The state a command leaves in `t`, had it started from the STATUS `st`. -/
def State.statusFrom (st : Status) (t : State) : State :=
  t.withStatus { err := t.status.err, esticky := if t.status.err = 0 then st.esticky else true }

section WithStatus

variable (st : Status) (s : State)

theorem mapNext_statusFrom_fail (e : ErrorCode) :
    mapNext (State.statusFrom st) (fail e s) = fail e (s.withStatus st) := by
  cases e <;> rfl

theorem mapNext_statusFrom_done : mapNext (State.statusFrom st) (done s) = done (s.withStatus st) := rfl

theorem withStatus_setRes0 (v : U64) : (s.setRes0 v).withStatus st = (s.withStatus st).setRes0 v := rfl

theorem withStatus_setRes (v w : U64) : (s.setRes v w).withStatus st = (s.withStatus st).setRes v w := rfl

theorem withStatus_setField (i : Nat) (v : Byte) : (s.setField i v).withStatus st = (s.withStatus st).setField i v := rfl

theorem withStatus_setRawByte (a : Nat) (b : Byte) :
    (s.setRawByte a b).withStatus st = (s.withStatus st).setRawByte a b := rfl

theorem withStatus_zeroFill : s.zeroFill.withStatus st = (s.withStatus st).zeroFill := rfl

theorem withStatus_setCfg (v w : U64) : (s.setCfg v w).withStatus st = (s.withStatus st).setCfg v w := rfl

theorem withStatus_maxField (i : Nat) (v : Byte) :
    (s.maxField i v).withStatus st = (s.withStatus st).maxField i v :=
  apply_ite (State.withStatus st) (s.get i < v.toNat) _ _

/-- What EST estimates is a matter of the array and the parameters. -/
theorem estimate_withStatus :
    Hll.estimate (s.withStatus st).m (Hll.v (s.withStatus st)) (Hll.rawEstimate (s.withStatus st)) =
      Hll.estimate s.m (Hll.v s) (Hll.rawEstimate s) := rfl

/-- A command does the same from any other STATUS, but for ESTICKY, which a success keeps. -/
theorem exec_withStatus (i : Instr) : exec i (s.withStatus st) = mapNext (State.statusFrom st) (exec i s) := by
  cases i
  case est =>
    simp only [exec, execEst, estimate_withStatus, mapNext_ite, mapNext_statusFrom_fail]
    cases Hll.estimate s.m (Hll.v s) (Hll.rawEstimate s)
    · rw [mapNext_statusFrom_fail]
      rfl
    · rw [mapNext_statusFrom_done]
      rfl
  all_goals
    simp only [exec, execConfig, execRget, execRset, execRclr, execRawrd, execRawwr, execRmax, execH32, execH128,
      execH32w1, execH32w2, execH64w1, execH64w2, execPut, execRelerr, mapNext_ite, mapNext_statusFrom_fail,
      mapNext_statusFrom_done, withStatus_setRes0, withStatus_setRes, withStatus_setField, withStatus_setRawByte,
      withStatus_zeroFill, withStatus_setCfg, withStatus_maxField]
    rfl

end WithStatus

/-- Settles O25: the outcome from another STATUS is the outcome with its STATUS replaced. -/
theorem noCommandDependsOnStatus : Obligations.NoCommandDependsOnStatus := fun i s _ st h =>
  (exec_withStatus st s i).trans (congrArg (mapNext (State.statusFrom st)) h)

end Sys2Proof.Machine
end

section
/-! PROOFS. Every error of the matrix happens (spec/60_exceptions.md R282): a block and operands for each. -/

namespace Sys2Proof.Machine

open Sys2Proof.Spec

/-- A block with sixteen registers of eight bits, RAW holding these cells, and operands. -/
def sampleArray (raw : List Host.Cell) (a0 a1 : U64) : State :=
  { ((State.resetWith Config.Params.default).setCfg 4 8).zeroFill with raw := raw, a0 := a0, a1 := a1 }

theorem resetWith_default_inv : (State.resetWith Config.Params.default).Inv :=
  theInvariantHoldsAfterReset _ (by decide +kernel)

theorem sampleArray_inv {raw : List Host.Cell} (a0 a1 : U64) (hform : Memory.wf Memory.rawBlank raw = true)
    (hsize : Memory.below 16 raw = true) : (sampleArray raw a0 a1).Inv := by
  have harray := resetWith_default_inv.construct (p := 4) (w := 8) (by decide) (by decide) (by decide) (by decide)
    (by decide)
  exact (harray.withRaw hform hsize).congr rfl rfl rfl rfl harray.err

/-- Sixteen cells with the value 29, whose estimate is above 2^32. -/
def highRanks : List Host.Cell := (List.range 16).map fun a => (a, 29)

theorem highRanks_estimate :
    5 / 2 * ((sampleArray highRanks 0 0).m : ℚ) < estimateE (sampleArray highRanks 0 0) ∧
    2 ^ 32 ≤ estimateE (sampleArray highRanks 0 0) := by decide +kernel

/-- For every error of a command some block and operands raise it. -/
theorem exists_exec_eq_fail {i : Instr} {e : ErrorCode} (he : e ∈ mayFail i) : ∃ s : State, s.Inv ∧ exec i s = fail e s := by
  have hsample (a0 a1 : U64) : (sampleArray [] a0 a1).Inv := sampleArray_inv a0 a1 rfl rfl
  cases e with
  | invalidArgument =>
    obtain rfl : i = .config := by cases i <;> simp_all [mayFail]
    exact ⟨_, hsample 3 8, exec_config_of_out_of_range (by decide)⟩
  | notConfigured => exact ⟨_, resetWith_default_inv, exec_of_not_configured he rfl⟩
  | indexOutOfRange => exact ⟨_, hsample 16 0, exec_of_index_ge he rfl (by decide)⟩
  | valueOverflow =>
    obtain hi | rfl : (i = .rset ∨ i = .rmax) ∨ i = .rawwr := by cases i <;> simp_all [mayFail]
    · exact ⟨_, hsample 0 256, exec_of_value_ge hi rfl (by decide) (by decide)⟩
    · exact ⟨_, hsample 0 256, exec_rawwr_of_value_ge rfl (by decide) (by decide)⟩
  | addressRange =>
    obtain hi | hi : (i = .rawrd ∨ i = .rawwr) ∨ (i = .h32 ∨ i = .h128) := by cases i <;> simp_all [mayFail]
    · exact ⟨_, hsample 16 0, exec_of_address_ge hi rfl (by decide)⟩
    · exact ⟨_, hsample 4096 1, exec_of_range_beyond_msg hi (by decide)⟩
  | estRange =>
    obtain rfl : i = .est := by cases i <;> simp_all [mayFail]
    obtain ⟨hlarge, hrange⟩ := highRanks_estimate
    exact ⟨_, sampleArray_inv 0 0 (by decide) (by decide), exec_est_of_range (by decide) rfl hlarge hrange⟩
  | corruptData | illegalCommand => cases i <;> simp [mayFail] at he

theorem ErrorCode.code_injective {e e' : ErrorCode} (h : e.code = e'.code) : e = e' := by
  cases e <;> cases e' <;> simp_all [ErrorCode.code]

/-- Settles O20: each code has its state, and a command that ends with a code has raised it. -/
theorem raisableErrorsAreThoseOfTheMatrix : Obligations.RaisableErrorsAreThoseOfTheMatrix := by
  refine ⟨fun i e => ?_, fun c r s hd => runCommand_of_error hd s⟩
  rw [mem_raisable_iff, errorNumber_eq_code]
  constructor
  · intro he
    obtain ⟨s, hinv, hs⟩ := exists_exec_eq_fail he
    exact ⟨s, _, hinv, hs, rfl⟩
  · rintro ⟨s, t, -, h, hstatus⟩
    obtain ⟨e', he', rfl⟩ | ⟨u, rfl, -⟩ := exec_next h
    · exact ErrorCode.code_injective (congrArg Status.err hstatus) ▸ he'
    · exact absurd (congrArg Status.err hstatus).symm e.code_ne_zero

end Sys2Proof.Machine
end

section
/-! PROOFS. Registers of the packed array, RMAX in any order, and the host's union procedure over RMAX (spec/20_memory.md R67,
spec/40_packed_array.md R146, spec/44_hll.md R262). -/

namespace Sys2Proof.Machine

open Sys2Proof.Spec

/-- Settles O28: a register's bits are those of the bit string, and the `m` fields fill the live bytes. -/
theorem registerIsItsBitsOfTheBitString : Obligations.RegisterIsItsBitsOfTheBitString := by
  intro s i h hi
  obtain ⟨hp, -, hw8⟩ := h.shape
  exact ⟨s.get_eq_bitsValue hw8 i, s.get_lt hw8 i, State.field_end hp hi, State.live_bits hp⟩

/-! ### RMAX (R146) -/

/-- The same command fails again, with the same code. -/
theorem exec_again_of_fail {i : Instr} {e : ErrorCode} {s : State} (h : exec i s = fail e s) :
    exec i (s.raiseError e) = .next (s.raiseError e) := by
  have hagain := exec_withStatus (s.status.raise e) s i
  rw [h, mapNext_statusFrom_fail] at hagain
  exact hagain

theorem State.maxField_eq_self {s : State} {i : Nat} {v : Byte} (h : v.toNat ≤ s.get i) : s.maxField i v = s :=
  if_neg (Nat.not_lt.2 h)

section Rmax

variable {s : State} (h : s.Ready) (ha : s.a0.toNat < s.m) (hb : s.a1.toNat < 2 ^ s.w)
include h ha hb

/-- RMAX with its operands in range: the register becomes the maximum, and only RAW and STATUS are written. -/
theorem State.Ready.exec_rmax_next :
    ∃ t, exec .rmax s = .next t ∧ t = { s with raw := t.raw, status := okStatus s } ∧ t.Ready ∧
      ∀ j, t.get j = if j = s.a0.toNat then max (s.get j) s.a1.toNat else s.get j := by
  obtain ⟨-, -, hw8⟩ := h.shape
  have hval : (s.a1.setWidth 8).toNat = s.a1.toNat := toNat_setWidth_of_lt_two_pow hb hw8
  refine ⟨_, exec_rmax h.2 ha hb, congrArg State.succeed (State.maxField_eq ..),
    ⟨(h.1.maxField h.2 ha _).succeed, (congrArg Cfg.valid (State.maxField_cfg ..)).trans h.2⟩, fun j => ?_⟩
  rw [State.get_succeed, State.get_maxField s hw8 (hval ▸ hb), hval]
  split
  next hj => rw [hj]
  next => rfl

/-- The register is the maximum already, so that the same RMAX stores nothing. -/
theorem State.Ready.exec_rmax_again {t : State} (ht : exec .rmax s = .next t) : exec .rmax t = .next t := by
  obtain ⟨-, -, hw8⟩ := h.shape
  have hval : (s.a1.setWidth 8).toNat = s.a1.toNat := toNat_setWidth_of_lt_two_pow hb hw8
  have hmax : (s.a1.setWidth 8).toNat ≤ (s.maxField s.a0.toNat (s.a1.setWidth 8)).succeed.get s.a0.toNat := by
    rw [State.get_succeed, State.get_maxField s hw8 (hval ▸ hb), if_pos rfl]
    exact le_max_right ..
  rw [exec_rmax h.2 ha hb, done_next_iff] at ht
  subst ht
  rw [exec_rmax]
  · simp only [State.succeed_a0, State.succeed_a1, State.maxField_a0, State.maxField_a1]
    rw [State.maxField_eq_self hmax]
    rfl
  · simpa using h.2
  · simpa [State.m, State.p] using ha
  · simpa [State.w] using hb

end Rmax

theorem State.Ready.withA1 {s : State} (h : s.Ready) (x : U64) : ({ s with a1 := x } : State).Ready :=
  ⟨h.1.congr rfl rfl rfl rfl h.1.err, h.2⟩

/-- Two RMAX of one index, one after the other. -/
theorem State.Ready.exec_rmax_twice {s : State} (h : s.Ready) {x y : U64} (ha : s.a0.toNat < s.m) (hx : x.toNat < 2 ^ s.w)
    (hy : y.toNat < 2 ^ s.w) :
    ∃ t u, exec .rmax { s with a1 := x } = .next t ∧ exec .rmax { t with a1 := y } = .next u ∧ u.Ready ∧ u.cfg = s.cfg ∧
      ∀ j, u.get j = if j = s.a0.toNat then max (max (s.get j) x.toNat) y.toNat else s.get j := by
  obtain ⟨t, ht, htframe, htready, htget⟩ := (h.withA1 x).exec_rmax_next ha hx
  have hcfg : t.cfg = s.cfg := by rw [htframe]
  have ha0 : t.a0 = s.a0 := by rw [htframe]
  obtain ⟨u, hu, huframe, huready, huget⟩ := (htready.withA1 y).exec_rmax_next
    (by simpa only [State.m, State.p, hcfg, ha0] using ha) (by simpa only [State.w, hcfg] using hy)
  refine ⟨t, u, ht, hu, huready, ?_, fun j => ?_⟩
  · rw [huframe]
    exact hcfg
  · rw [huget]
    show (if j = t.a0.toNat then max (t.get j) y.toNat else t.get j) = _
    rw [htget, ha0]
    split <;> rfl

/-- Settles O37: RMAX leaves at least its operand in the register, and `max` of two operands does not depend on their order. -/
theorem rmaxIsIdempotentAndCommutative : Obligations.RmaxIsIdempotentAndCommutative := by
  refine ⟨fun s t hinv ht => ?_, fun s x y h ha hx hy => ?_⟩
  · obtain ⟨e, -, hfail⟩ | ⟨u, -, hv, ha, hb, -⟩ := exec_effect .rmax s
    · rw [hfail, fail_next_iff] at ht
      exact ht ▸ exec_again_of_fail hfail
    · exact State.Ready.exec_rmax_again ⟨hinv, hv⟩ ha hb ht
  · obtain ⟨t, t', ht, ht', htready, htcfg, htget⟩ := h.exec_rmax_twice ha hx hy
    obtain ⟨u, u', hu, hu', huready, hucfg, huget⟩ := h.exec_rmax_twice ha hy hx
    refine ⟨t, t', u, u', ht, ht', hu, hu', ?_⟩
    refine raw_eq_of_get huready.1 htready.1 huready.2 (htcfg.trans hucfg.symm) fun j _ => ?_
    rw [htget, huget, max_right_comm]

end Sys2Proof.Machine
end

section
/-! PROOFS. The host's union procedure over RMAX (spec/44_hll.md R262). -/

namespace Sys2Proof.Machine

open Sys2Proof.Spec

/-- Only A0, A1, RAW, CFG and STATUS differ, and of STATUS not ESTICKY. -/
def ArrayOnly (s t : State) : Prop :=
  t = { s with a0 := t.a0, a1 := t.a1, raw := t.raw, status := t.status, cfg := t.cfg } ∧
  t.status.esticky = s.status.esticky

theorem ArrayOnly.trans {s t u : State} (h : ArrayOnly s t) (h' : ArrayOnly t u) : ArrayOnly s u := by
  obtain ⟨hst, hs⟩ := h
  obtain ⟨htu, ht⟩ := h'
  refine ⟨?_, ht.trans hs⟩
  rw [hst] at htu
  exact htu

theorem State.Ready.withOperands {s : State} (h : s.Ready) (x y : U64) : ({ s with a0 := x, a1 := y } : State).Ready :=
  ⟨h.1.congr rfl rfl rfl rfl h.1.err, h.2⟩

theorem State.m_congr {s t : State} (h : t.cfg = s.cfg) : t.m = s.m := by rw [State.m, State.m, State.p, State.p, h]

theorem State.w_congr {s t : State} (h : t.cfg = s.cfg) : t.w = s.w := by rw [State.w, State.w, h]

/-- An index of the array is a number that A0 can hold. -/
theorem State.Ready.toNat_ofNat_index {s : State} (h : s.Ready) {i : Nat} (hi : i < s.m) :
    (BitVec.ofNat 64 i).toNat = i := by
  obtain ⟨-, hp31, -⟩ := h.shape
  have hm : s.m ≤ 2 ^ 31 := Nat.pow_le_pow_right Nat.two_pos hp31
  rw [BitVec.toNat_ofNat, Nat.mod_eq_of_lt (by omega)]

/-- So is the value of a register. -/
theorem State.Ready.toNat_ofNat_get {s : State} (h : s.Ready) (i : Nat) : (BitVec.ofNat 64 (s.get i)).toNat = s.get i := by
  obtain ⟨-, -, hw8⟩ := h.shape
  have hw : 2 ^ s.w ≤ 2 ^ 8 := Nat.pow_le_pow_right Nat.two_pos hw8
  have := s.get_lt hw8 i
  rw [BitVec.toNat_ofNat, Nat.mod_eq_of_lt (by omega)]

/-- Every byte of a zeroed array is 0, so every register is. -/
theorem State.get_eq_zero_of_raw {s : State} (h : s.raw = []) (i : Nat) : s.get i = 0 := by
  have hbyte (a : Nat) : s.rawByte a = 0 := by rw [State.rawByte, h]; rfl
  simp [State.get, fieldGet, hbyte]

namespace Actions

theorem run_singleton {a : HostAction} {s t : State} (h : act a s = .next t) : run [a] s = .next t := run_cons [] h

/-- Operands and a command (R99). -/
theorem run_operands_cmd {i : Instr} {x y : U64} {s t : State} (h : exec i { s with a0 := x, a1 := y } = .next t) :
    run [wrA0 x, wrA1 y, cmd i] s = .next t :=
  run_singleton (s := { s with a0 := x, a1 := y }) ((act_cmd (decode_encode i) _).trans h)

theorem run_rmax {s : State} (h : s.Ready) {i : Nat} {b : U64} (hi : i < s.m) (hb : b.toNat < 2 ^ s.w) :
    ∃ t, run (rmax (BitVec.ofNat 64 i) b) s = .next t ∧ ArrayOnly s t ∧ t.cfg = s.cfg ∧ t.Ready ∧
      ∀ j, t.get j = if j = i then max (s.get j) b.toNat else s.get j := by
  have hindex := h.toNat_ofNat_index hi
  obtain ⟨t, hexec, hframe, hready, hget⟩ :=
    (h.withOperands (BitVec.ofNat 64 i) b).exec_rmax_next (hindex.trans_lt hi) hb
  refine ⟨t, run_operands_cmd hexec, ⟨by rw [hframe], by rw [hframe]⟩, by rw [hframe], hready, fun j => ?_⟩
  exact hindex ▸ hget j

/-- The values of the list go into the registers from `i` on. -/
theorem run_rmaxAll {bs : List U64} {i : Nat} {s : State} (h : s.Ready) (hlen : i + bs.length ≤ s.m)
    (hbs : ∀ b ∈ bs, b.toNat < 2 ^ s.w) :
    ∃ t, run (rmaxAll i bs) s = .next t ∧ ArrayOnly s t ∧ t.cfg = s.cfg ∧ t.Ready ∧
      ∀ j, t.get j = if i ≤ j then max (s.get j) (bs.getD (j - i) 0).toNat else s.get j := by
  induction bs generalizing i s with
  | nil => exact ⟨s, rfl, ⟨rfl, rfl⟩, rfl, h, fun j => by simp⟩
  | cons b rest ih =>
    rw [List.length_cons] at hlen
    rw [List.forall_mem_cons] at hbs
    obtain ⟨t, hrun, hts, htcfg, htready, htget⟩ := run_rmax h (i := i) (by omega) hbs.1
    obtain ⟨u, hrest, hut, hucfg, huready, huget⟩ := ih (i := i + 1) htready
      (by rw [State.m_congr htcfg]; omega) (by rw [State.w_congr htcfg]; exact hbs.2)
    refine ⟨u, (run_append _ hrun).trans hrest, hts.trans hut, hucfg.trans htcfg, huready, fun j => ?_⟩
    rw [huget, htget]
    obtain hlt | rfl | hgt := Nat.lt_trichotomy j i
    · rw [if_neg (by omega), if_neg (by omega), if_neg (by omega)]
    · rw [if_neg (by omega), if_pos rfl, if_pos le_rfl, Nat.sub_self, List.getD_cons_zero]
    · rw [if_pos (by omega), if_neg (by omega), if_pos (by omega), show j - i = j - (i + 1) + 1 by omega,
        List.getD_cons_succ]

/-- CONFIG of an array of another width for the same registers, all of them 0. -/
theorem run_config_width {s : State} (h : s.Ready) {wB : Nat} (hw : 1 ≤ wB) (hw8 : wB ≤ 8) :
    ∃ t, run (config (BitVec.ofNat 64 s.p) (BitVec.ofNat 64 wB)) s = .next t ∧ ArrayOnly s t ∧ t.Ready ∧ t.p = s.p ∧
      t.w = wB ∧ ∀ j, t.get j = 0 := by
  obtain ⟨hp, hp31, -⟩ := h.shape
  obtain ⟨-, hpm, -⟩ := h.1.configured h.2
  have hpn : (BitVec.ofNat 64 s.p).toNat = s.p := by rw [BitVec.toNat_ofNat]; omega
  have hwn : (BitVec.ofNat 64 wB).toNat = wB := by rw [BitVec.toNat_ofNat]; omega
  have hinv := (h.withOperands (BitVec.ofNat 64 s.p) (BitVec.ofNat 64 wB)).1
  refine ⟨_, run_operands_cmd (exec_config ?_), ⟨rfl, rfl⟩, ⟨(hinv.construct ?_ ?_ ?_ ?_ ?_).succeed, rfl⟩, ?exponent, ?width,
    State.get_eq_zero_of_raw rfl⟩
  case exponent => exact (toNat_setWidth_of_lt_two_pow (x := BitVec.ofNat 64 s.p) (k := 5) (by omega) le_rfl).trans hpn
  case width => exact (toNat_setWidth_of_lt_two_pow (x := BitVec.ofNat 64 wB) (k := 4) (by omega) le_rfl).trans hwn
  all_goals simp only [hpn, hwn]; omega

/-- CONFIG of a wider array, the registers of the old one, and the list. -/
theorem run_widenedUnion {s : State} (h : s.Ready) {bs : List U64} (hlen : bs.length ≤ s.m) {wB : Nat} (hw : s.w < wB)
    (hw8 : wB ≤ 8) (hbs : ∀ b ∈ bs, b.toNat < 2 ^ wB) :
    ∃ t, run (widenedUnion (BitVec.ofNat 64 s.p) (BitVec.ofNat 64 wB)
        ((List.range s.m).map fun i => BitVec.ofNat 64 (s.get i)) bs) s = .next t ∧ ArrayOnly s t ∧
      t.cfg.valid = true ∧ t.p = s.p ∧ t.w = wB ∧ ∀ i, i < s.m → t.get i = max (s.get i) (bs.getD i 0).toNat := by
  obtain ⟨-, -, hsw8⟩ := h.shape
  obtain ⟨t, hconfig, hst, htready, htp, htw, htget⟩ := run_config_width h (wB := wB) (by omega) hw8
  have htm : t.m = s.m := congrArg (2 ^ ·) htp
  have hold : ∀ b ∈ (List.range s.m).map fun i => BitVec.ofNat 64 (s.get i), b.toNat < 2 ^ t.w := by
    simp only [List.forall_mem_map, h.toNat_ofNat_get, htw]
    exact fun i _ => (s.get_lt hsw8 i).trans (Nat.pow_lt_pow_right Nat.one_lt_two hw)
  obtain ⟨u, hrun, htu, hucfg, huready, huget⟩ := run_rmaxAll htready (i := 0) (by simp [htm]) hold
  have hum : u.m = s.m := (State.m_congr hucfg).trans htm
  have huw : u.w = wB := (State.w_congr hucfg).trans htw
  obtain ⟨x, hrun', hux, hxcfg, hxready, hxget⟩ :=
    run_rmaxAll huready (i := 0) (bs := bs) (by rw [hum, Nat.zero_add]; exact hlen) (huw ▸ hbs)
  refine ⟨x, ?_, hst.trans (htu.trans hux), hxready.2, ?_, (State.w_congr hxcfg).trans huw, fun j hj => ?_⟩
  · rw [widenedUnion, run_append _ hconfig, run_append _ hrun, hrun']
  · rw [State.p, hxcfg, hucfg]
    exact htp
  · have hj' : j < ((List.range s.m).map fun i => BitVec.ofNat 64 (s.get i)).length := by simpa using hj
    rw [hxget, huget, htget, if_pos (Nat.zero_le j), if_pos (Nat.zero_le j), Nat.sub_zero, Nat.zero_max,
      List.getD_eq_getElem _ _ hj', List.getElem_map, List.getElem_range, h.toNat_ofNat_get]

end Actions

/-- Settles O53: RMAX over the list is the maximum in every register, and over an array of zeros it restores the registers. -/
theorem unionByRmaxTakesTheMaximumOfEveryRegister : Obligations.UnionByRmaxTakesTheMaximumOfEveryRegister := by
  intro s bs h hlen
  refine ⟨fun hbs => ?_, fun wB hw hw8 hbs => ?_⟩
  · obtain ⟨t, hrun, ⟨hframe, hsticky⟩, hcfg, -, hget⟩ :=
      Actions.run_rmaxAll h (i := 0) (by rw [Nat.zero_add]; exact hlen) hbs
    refine ⟨t, hrun, ?_, hsticky, fun j _ => (hget j).trans (if_pos (Nat.zero_le j))⟩
    rw [hcfg] at hframe
    exact hframe
  · obtain ⟨t, hrun, ⟨hframe, hsticky⟩, hrest⟩ := Actions.run_widenedUnion h hlen hw hw8 hbs
    exact ⟨t, hrun, hframe, hsticky, hrest⟩

end Sys2Proof.Machine
end

section
/-! PROOFS. The rank is the place of the leftmost set bit, and the host's insertions in any order (spec/44_hll.md R243 to R245,
spec/30_encoding.md R99). -/

namespace Sys2Proof.Machine

open Sys2Proof.Spec

/-! ### The rank of a hash (R243, R244) -/

theorem log2_mul_two_pow {y : Nat} (hy : y ≠ 0) (p : Nat) : (y * 2 ^ p).log2 = y.log2 + p := by
  rw [Nat.log2_eq_iff (Nat.mul_ne_zero hy (Nat.two_pow_pos p).ne'), Nat.add_right_comm, Nat.pow_add, Nat.pow_add _ _ p]
  exact ⟨Nat.mul_le_mul_right _ (Nat.log2_self_le hy), Nat.mul_lt_mul_of_pos_right Nat.lt_log2_self (Nat.two_pow_pos p)⟩

/-- The leading zeros of the bits below the index count the place of the leftmost one among them. -/
theorem clz_shifted_add_one {p : Nat} (hp : p ≤ 64) (x : Nat) : clz (x * 2 ^ p % 2 ^ 64) + 1 = rho p x := by
  have hlow : x * 2 ^ p % 2 ^ 64 = x % 2 ^ (64 - p) * 2 ^ p := by
    rw [← Nat.mul_mod_mul_right, ← Nat.pow_add, Nat.sub_add_cancel hp]
  rw [hlow, clz, rho]
  by_cases hy : x % 2 ^ (64 - p) = 0
  · rw [if_pos hy, hy, Nat.zero_mul, if_pos rfl]
  · have hlog : (x % 2 ^ (64 - p)).log2 < 64 - p := (Nat.log2_lt hy).2 (Nat.mod_lt _ (Nat.two_pow_pos _))
    rw [if_neg hy, if_neg (Nat.mul_ne_zero hy (Nat.two_pow_pos p).ne'), log2_mul_two_pow hy]
    omega

theorem rank_eq_rho_mod {p : Nat} (hp : p ≤ 64) (w x : Nat) : rank p w x = rho p x % 2 ^ w := by
  rw [rank, clz_shifted_add_one hp]

theorem rho_bounds (p x : Nat) : rho p x = 65 ∨ 1 ≤ rho p x ∧ rho p x ≤ 64 - p := by
  unfold rho
  split
  · exact .inl rfl
  next hy =>
    have hlog : (x % 2 ^ (64 - p)).log2 < 64 - p := (Nat.log2_lt hy).2 (Nat.mod_lt _ (Nat.two_pow_pos _))
    exact .inr (by omega)

/-- Settles O46: an empty register takes the rank itself, and 7 bits hold every place and 65. -/
theorem putRankIsThePlaceOfTheLeftmostSetBit : Obligations.PutRankIsThePlaceOfTheLeftmostSetBit := by
  intro s x h hempty
  obtain ⟨-, hp31, -⟩ := h.shape
  have hput : ((s.withHash .a0 x).putHash x).get (x.toNat / 2 ^ (64 - s.p)) = rho s.p x.toNat % 2 ^ s.w := by
    rw [(h.withHash .a0 x).get_putHash, registerAfterPut, State.withHash_p, State.withHash_w, if_pos rfl,
      State.get_withHash, hempty, Nat.zero_max, rank_eq_rho_mod (by omega)]
  have hrho := rho_bounds s.p x.toNat
  refine ⟨_, exec_put (h.withHash .a0 x).2 .a0, hput, hrho, fun hw => hput.trans (Nat.mod_eq_of_lt ?_)⟩
  have hpow : 2 ^ 7 ≤ 2 ^ s.w := Nat.pow_le_pow_right Nat.two_pos hw
  omega

/-! ### One insertion (R99) -/

/-- The hash that an insertion puts. -/
def insertedHash (s : State) : Insertion → U64
  | .hash x => x
  | .bytes off len => (Hash128.hash s.msgByte off.toNat len.toNat s.seed).h1
  | .res0 => s.res0

/-- The state in which an insertion issues its PUT. -/
def State.beforePut (s : State) : Insertion → State
  | .hash x => { s with a0 := x }
  | .bytes off len =>
    let lanes := Hash128.hash s.msgByte off.toNat len.toNat s.seed
    (State.setRes { s with a0 := off, a1 := len } lanes.h1 lanes.h2).succeed
  | .res0 => s

/-- The state that an insertion leaves. -/
def State.afterInsertion (s : State) (ins : Insertion) : State := ((s.beforePut ins).putHash (insertedHash s ins)).succeed

/-- The range of an insertion is within MSG. -/
def InsertionFits (c : Config.Params) (ins : Insertion) : Prop :=
  ∀ off len, ins = .bytes off len → off.toNat + len.toNat ≤ c.msgSize

theorem run_insertion {s : State} (hv : s.cfg.valid = true) {ins : Insertion} (hfits : InsertionFits s.params ins) :
    Actions.run ins.actions s = .next (s.afterInsertion ins) := by
  have hput (u : State) (hu : u.cfg.valid = true) (src : HashSource) :
      Actions.run [Actions.cmd (.put src)] u = .next (u.putHash (u.hashOperand src)).succeed :=
    Actions.run_singleton ((act_cmd (decode_encode _) u).trans (exec_put hu src))
  cases ins with
  | hash x => exact hput { s with a0 := x } hv .a0
  | bytes off len =>
    have hhash := exec_h128 (s := { s with a0 := off, a1 := len }) (hfits off len rfl)
    exact (Actions.run_cons (s := { s with a0 := off, a1 := len }) _ ((act_cmd (decode_encode .h128) _).trans hhash)).trans
      (hput (s.beforePut (.bytes off len)) hv .res0)
  | res0 => exact hput s hv .res0

section AfterInsertion

variable (s : State) (ins : Insertion)

theorem State.beforePut_frame :
    (s.beforePut ins).cfg = s.cfg ∧ (s.beforePut ins).status.esticky = s.status.esticky ∧
    (s.beforePut ins).seed = s.seed ∧ (s.beforePut ins).params = s.params ∧ (s.beforePut ins).msgByte = s.msgByte := by
  cases ins <;> exact ⟨rfl, rfl, rfl, rfl, rfl⟩

theorem State.putHash_frame (x : U64) :
    (s.putHash x).seed = s.seed ∧ (s.putHash x).params = s.params ∧ (s.putHash x).msgByte = s.msgByte ∧
    (s.putHash x).res0 = s.res0 := by
  rw [State.putHash, State.maxField_eq]
  exact ⟨rfl, rfl, rfl, rfl⟩

theorem State.afterInsertion_frame :
    (s.afterInsertion ins).cfg = s.cfg ∧ (s.afterInsertion ins).status.esticky = s.status.esticky ∧
    (s.afterInsertion ins).seed = s.seed ∧ (s.afterInsertion ins).params = s.params ∧
    (s.afterInsertion ins).msgByte = s.msgByte := by
  obtain ⟨hcfg, hsticky, hseed, hparams, hmsg⟩ := s.beforePut_frame ins
  obtain ⟨hseed', hparams', hmsg', -⟩ := (s.beforePut ins).putHash_frame (insertedHash s ins)
  exact ⟨(State.putHash_cfg ..).trans hcfg, (congrArg Status.esticky (State.putHash_status ..)).trans hsticky,
    hseed'.trans hseed, hparams'.trans hparams, hmsg'.trans hmsg⟩

theorem State.afterInsertion_res0 (h : ∀ off len, ins ≠ .bytes off len) : (s.afterInsertion ins).res0 = s.res0 := by
  obtain ⟨-, -, -, hres0⟩ := (s.beforePut ins).putHash_frame (insertedHash s ins)
  refine hres0.trans ?_
  cases ins with
  | bytes off len => exact absurd rfl (h off len)
  | hash _ | res0 => rfl

/-- An insertion leaves the hash of a later one, unless it writes RES0 and the later one reads it. -/
theorem insertedHash_afterInsertion {later : Insertion} (h : later ≠ .res0 ∨ ∀ off len, ins ≠ .bytes off len) :
    insertedHash (s.afterInsertion ins) later = insertedHash s later := by
  cases later with
  | hash x => rfl
  | bytes off len =>
    obtain ⟨-, -, hseed, -, hmsg⟩ := s.afterInsertion_frame ins
    rw [insertedHash, insertedHash, hseed, hmsg]
  | res0 => exact State.afterInsertion_res0 s ins (h.resolve_left (absurd rfl))

variable {s}

theorem State.Ready.beforePut (h : s.Ready) : (s.beforePut ins).Ready := by
  cases ins with
  | hash x => exact h.withHash .a0 x
  | bytes off len => exact ⟨((h.withOperands off len).1.setRes _ _).succeed, h.2⟩
  | res0 => exact h

theorem State.Ready.afterInsertion (h : s.Ready) : (s.afterInsertion ins).Ready := ((h.beforePut ins).putHash _).succeed

theorem State.Ready.get_afterInsertion (h : s.Ready) (i : Nat) :
    (s.afterInsertion ins).get i = registerAfterPut s.p s.w i (s.get i) (insertedHash s ins) := by
  rw [State.afterInsertion, State.get_succeed, (h.beforePut ins).get_putHash]
  cases ins <;> rfl

end AfterInsertion

/-! ### A list of insertions (R245) -/

theorem run_insertions {l : List Insertion} {s : State} (hv : s.cfg.valid = true)
    (hfits : ∀ ins ∈ l, InsertionFits s.params ins) :
    Actions.run (l.flatMap Insertion.actions) s = .next (l.foldl State.afterInsertion s) := by
  induction l generalizing s with
  | nil => rfl
  | cons ins l ih =>
    rw [List.forall_mem_cons] at hfits
    rw [List.flatMap_cons, Actions.run_append _ (run_insertion hv hfits.1), List.foldl_cons]
    obtain ⟨hcfg, -, -, hparams, -⟩ := s.afterInsertion_frame ins
    exact ih (by rw [hcfg, hv]) (by rw [hparams]; exact hfits.2)

/-- Insertions fold the maxima of their hashes into every register; no hash depends on what was inserted before. -/
theorem State.Ready.foldl_afterInsertion {l : List Insertion} {s : State} (h : s.Ready)
    (hres0 : .res0 ∉ l ∨ ∀ off len, .bytes off len ∉ l) :
    (l.foldl State.afterInsertion s).Ready ∧ (l.foldl State.afterInsertion s).cfg = s.cfg ∧
    (l.foldl State.afterInsertion s).status.esticky = s.status.esticky ∧
    ∀ i, (l.foldl State.afterInsertion s).get i = (l.map (insertedHash s)).foldl (registerAfterPut s.p s.w i) (s.get i) := by
  induction l generalizing s with
  | nil => exact ⟨h, rfl, rfl, fun _ => rfl⟩
  | cons ins l ih =>
    obtain ⟨hcfg, hsticky, -⟩ := s.afterInsertion_frame ins
    have hp : (s.afterInsertion ins).p = s.p := by rw [State.p, State.p, hcfg]
    obtain ⟨hready, hcfg', hsticky', hget⟩ := ih (h.afterInsertion ins)
      (hres0.imp (List.not_mem_of_not_mem_cons ·) fun h off len => List.not_mem_of_not_mem_cons (h off len))
    have hmap : l.map (insertedHash (s.afterInsertion ins)) = l.map (insertedHash s) := by
      refine List.map_congr_left fun later hlater => insertedHash_afterInsertion s ins (hres0.imp ?_ ?_)
      · rintro hno rfl
        exact hno (List.mem_cons_of_mem _ hlater)
      · rintro hno off len rfl
        exact hno off len List.mem_cons_self
    refine ⟨hready, hcfg'.trans hcfg, hsticky'.trans hsticky, fun i => ?_⟩
    rw [List.foldl_cons, hget, hmap, hp, State.w_congr hcfg, h.get_afterInsertion]
    rfl

/-- Settles O55: both orders fold the same hashes into every register, and the maxima can be taken in any order. -/
theorem hostInsertionsGiveTheSameArrayInEveryOrder : Obligations.HostInsertionsGiveTheSameArrayInEveryOrder := by
  intro s l l' h hperm hrange hres0
  have hfits : ∀ ins ∈ l, InsertionFits s.params ins := fun _ hins off len he => hrange off len (he ▸ hins)
  have hfits' : ∀ ins ∈ l', InsertionFits s.params ins := fun ins hins => hfits ins (hperm.mem_iff.2 hins)
  have hres0' : .res0 ∉ l' ∨ ∀ off len, .bytes off len ∉ l' := by simpa only [← hperm.mem_iff] using hres0
  obtain ⟨hready, hcfg, hsticky, hget⟩ := h.foldl_afterInsertion hres0
  obtain ⟨hready', hcfg', -, hget'⟩ := h.foldl_afterInsertion hres0'
  have hsame (i : Nat) : (l'.foldl State.afterInsertion s).get i = (l.foldl State.afterInsertion s).get i := by
    rw [hget, hget']
    exact ((hperm.map _).foldl_eq' (fun x _ y _ n => registerAfterPut_right_comm _ _ i n x y) _).symm
  exact ⟨_, _, run_insertions h.2 hfits, run_insertions h.2 hfits',
    raw_eq_of_get hready.1 hready'.1 hready.2 (hcfg'.trans hcfg.symm) fun i _ => hsame i, hcfg'.trans hcfg.symm, hcfg,
    hsticky⟩

end Sys2Proof.Machine
end

section
/-! PROOFS. The hash engines are the algorithms on lists of byte values (spec/41_hash32.md R162 to R165, spec/42_hash128.md R192 to
R196). -/

namespace Sys2Proof.Machine

open Sys2Proof.Spec

/-! ### A range of bytes as a list of values -/

/-- The values of `n` bytes from `a` on. -/
def byteList (rd : Nat → Byte) (a n : Nat) : List Nat := (List.range n).map fun j => (rd (a + j)).toNat

section ByteList

variable (rd : Nat → Byte) (a : Nat)

@[simp] theorem length_byteList (n : Nat) : (byteList rd a n).length = n := by
  rw [byteList, List.length_map, List.length_range]

theorem byteList_eq_nil_iff {n : Nat} : byteList rd a n = [] ↔ n = 0 := by
  rw [← List.length_eq_zero_iff, length_byteList]

theorem byteList_add (k n : Nat) : byteList rd a (k + n) = byteList rd a k ++ byteList rd (a + k) n := by
  simp only [byteList, List.range_add, List.map_append, List.map_map, Function.comp_def, Nat.add_assoc]

theorem take_byteList (k n : Nat) : (byteList rd a n).take k = byteList rd a (min k n) := by
  obtain hle | hle := Nat.le_total k n
  · obtain ⟨r, rfl⟩ := Nat.exists_eq_add_of_le hle
    rw [byteList_add, List.take_left' (length_byteList ..), Nat.min_eq_left hle]
  · rw [List.take_of_length_le ((length_byteList ..).trans_le hle), Nat.min_eq_right hle]

theorem drop_byteList (k n : Nat) : (byteList rd a n).drop k = byteList rd (a + k) (n - k) := by
  obtain hle | hle := Nat.le_total k n
  · obtain ⟨r, rfl⟩ := Nat.exists_eq_add_of_le hle
    rw [byteList_add, List.drop_left' (length_byteList ..), Nat.add_sub_cancel_left]
  · rw [List.drop_of_length_le ((length_byteList ..).trans_le hle), Nat.sub_eq_zero_of_le hle]
    rfl

theorem byteList_succ (n : Nat) : byteList rd a (n + 1) = (rd a).toNat :: byteList rd (a + 1) n := by
  rw [Nat.add_comm, byteList_add]
  rfl

/-- The list spells what `MemRead` reads (R61). -/
theorem leValue_byteList (n : Nat) : leValue (byteList rd a n) = memRead rd a n := by
  induction n generalizing a with
  | zero => rfl
  | succ n ih => rw [byteList_succ, leValue, ih, memRead_cons]

end ByteList

/-! ### Words that the tail bytes are xored into (R163, R194) -/

theorem toNat_ofNat_memRead (rd : Nat → Byte) (a : Nat) {n w : Nat} (hw : 8 * n ≤ w) :
    (BitVec.ofNat w (memRead rd a n)).toNat = memRead rd a n := by
  rw [BitVec.toNat_ofNat, Nat.mod_eq_of_lt ((memRead_lt rd a n).trans_le (Nat.pow_le_pow_right Nat.two_pos hw))]

/-- Bytes `t`, `t + 1`, ... xored in at bits 7:0, 15:8, ... of a word of `w` bits. -/
def xorBytes (w : Nat) (rd : Nat → Byte) (t : Nat) : Nat → BitVec w
  | 0 => 0
  | j + 1 => xorBytes w rd t j ^^^ ((rd (t + j)).setWidth w <<< (8 * j))

/-- A field that is xored in above another one is added to it. -/
theorem xor_two_pow_mul {x k : Nat} (hx : x < 2 ^ k) (y : Nat) : x ^^^ y * 2 ^ k = x + y * 2 ^ k := by
  apply Nat.eq_of_testBit_eq
  intro i
  rw [Nat.add_comm, Nat.mul_comm, Nat.testBit_two_pow_mul_add _ hx, Nat.testBit_xor, Nat.testBit_two_pow_mul]
  split
  case isTrue hi => simp [Nat.not_le.2 hi]
  case isFalse hi =>
    have hi : k ≤ i := Nat.not_lt.1 hi
    simp [hi, Nat.testBit_lt_two_pow (hx.trans_le (Nat.pow_le_pow_right Nat.two_pos hi))]

/-- The bytes do not overlap, so the word is their little-endian value. -/
theorem xorBytes_eq (rd : Nat → Byte) (t : Nat) {n w : Nat} (hw : 8 * n ≤ w) :
    xorBytes w rd t n = BitVec.ofNat w (memRead rd t n) := by
  apply BitVec.eq_of_toNat_eq
  rw [toNat_ofNat_memRead rd t hw]
  induction n with
  | zero => simp [xorBytes, memRead]
  | succ n ih =>
    have hlow := memRead_lt rd t n
    have hfit : (rd (t + n)).toNat * 2 ^ (8 * n) < 2 ^ w := by
      have hbyte := Nat.mul_lt_mul_of_pos_right (rd (t + n)).isLt (Nat.two_pow_pos (8 * n))
      rw [← Nat.pow_add] at hbyte
      exact hbyte.trans_le (Nat.pow_le_pow_right Nat.two_pos (by omega))
    rw [xorBytes, memRead, BitVec.toNat_xor, ih (by omega), BitVec.toNat_shiftLeft, BitVec.toNat_setWidth_of_le (by omega),
      Nat.shiftLeft_eq, Nat.mod_eq_of_lt hfit, xor_two_pow_mul hlow]

/-! ### The 32-bit engine -/

namespace Hash32

theorem toNat_c1 : c1.toNat = 0xcc9e2d51 := rfl

theorem toNat_c2 : c2.toNat = 0x1b873593 := rfl

theorem toNat_n : n.toNat = 0xe6546b64 := rfl

theorem toNat_mix (k : U32) : (mix k).toNat = mix32 k.toNat := by
  rw [mix, mix32, BitVec.toNat_mul, rotl32_toNat _ (by decide), BitVec.toNat_mul, toNat_c1, toNat_c2, rotl]

theorem toNat_block (h k : U32) : (block h k).toNat = round32 h.toNat k.toNat := by
  have h5 : (5 : U32).toNat = 5 := rfl
  unfold round32
  rw [block, BitVec.toNat_add, BitVec.toNat_mul, toNat_n, h5, rotl32_toNat _ (by decide), BitVec.toNat_xor, toNat_mix,
    Nat.mod_add_mod, rotl]

theorem toNat_fmix (h : U32) : (fmix h).toNat = fmix32 h.toNat := by
  rw [fmix, fmix32, xorShift_toNat, BitVec.toNat_mul, xorShift_toNat, BitVec.toNat_mul, xorShift_toNat]
  rfl

/-- The body, its first block first. -/
theorem body_succ (rd : Nat → Byte) (off : Nat) (seed : U32) (n : Nat) :
    body rd off seed (n + 1) = body rd (off + 4) (block seed (BitVec.ofNat 32 (memRead rd off 4))) n := by
  induction n with
  | zero => rfl
  | succ n ih => rw [body, ih, body, Nat.mul_succ, Nat.add_comm (4 * n), Nat.add_assoc]

/-- The tail is one block more, of the bytes that are left (R163). -/
theorem tail_eq (rd : Nat → Byte) (t : Nat) {r : Nat} (hr : r < 4) (h : U32) :
    tail rd t r h = if r = 0 then h else h ^^^ mix (BitVec.ofNat 32 (memRead rd t r)) := by
  rw [← xorBytes_eq rd t (by omega)]
  obtain rfl | rfl | rfl | rfl : r = 0 ∨ r = 1 ∨ r = 2 ∨ r = 3 := by omega
  · rfl
  · simp [tail, xorBytes]
  · simp [tail, xorBytes, BitVec.xor_comm]
  · have hrev (x y z : U32) : x ^^^ y ^^^ z = z ^^^ y ^^^ x := by
      rw [BitVec.xor_comm x y, BitVec.xor_comm, ← BitVec.xor_assoc]
    simp [tail, xorBytes, hrev (BitVec.setWidth 32 (rd (t + 2)) <<< 16)]

theorem absorb32_byteList (rd : Nat → Byte) (off : Nat) (h : U32) (n : Nat) {r : Nat} (hr : r < 4) :
    absorb32 h.toNat (byteList rd off (4 * n + r)) n = (tail rd (off + 4 * n) r (body rd off h n)).toNat := by
  induction n generalizing off h with
  | zero =>
    simp only [tail_eq rd _ hr, absorb32, Nat.mul_zero, Nat.zero_add, Nat.add_zero, byteList_eq_nil_iff, leValue_byteList,
      body]
    split
    · rfl
    · rw [BitVec.toNat_xor, toNat_mix, toNat_ofNat_memRead _ _ (by omega)]
  | succ n ih =>
    have hround : round32 h.toNat (memRead rd off 4) = (block h (BitVec.ofNat 32 (memRead rd off 4))).toNat := by
      rw [toNat_block, toNat_ofNat_memRead _ _ (by decide)]
    rw [absorb32, take_byteList, drop_byteList, leValue_byteList, Nat.min_eq_left (by omega), body_succ, hround,
      show 4 * (n + 1) + r - 4 = 4 * n + r by omega, ih, show off + 4 * (n + 1) = off + 4 + 4 * n by omega]

theorem toNat_hash (rd : Nat → Byte) (off : Nat) {len : Nat} (hlen : len < 2 ^ 32) (seed : U32) :
    (hash rd off len seed).toNat = murmur32 (byteList rd off len) seed.toNat := by
  have habsorb := absorb32_byteList rd off seed (len / 4) (Nat.mod_lt len (by decide))
  rw [Nat.div_add_mod] at habsorb
  rw [hash, toNat_fmix, BitVec.toNat_xor, ← habsorb, BitVec.toNat_ofNat, Nat.mod_eq_of_lt hlen, murmur32, length_byteList]

end Hash32

end Sys2Proof.Machine
end

section
/-! PROOFS. The 128-bit hash engine is the algorithm on lists of byte values (spec/42_hash128.md R192 to R196). -/

namespace Sys2Proof.Machine.Hash128

open Sys2Proof.Spec

/-- The two lanes as numbers. -/
def Lanes.nats (l : Lanes) : Nat × Nat := (l.h1.toNat, l.h2.toNat)

/-! ### The steps of the algorithm -/

theorem toNat_c1 : c1.toNat = 0x87c37b91114253d5 := rfl

theorem toNat_c2 : c2.toNat = 0x4cf5ad432745937f := rfl

theorem toNat_n1 : n1.toNat = 0x52dce729 := rfl

theorem toNat_n2 : n2.toNat = 0x38495ab5 := rfl

theorem toNat_mix1 (k : U64) : (mix1 k).toNat = mix64a k.toNat := by
  unfold mix64a
  rw [mix1, BitVec.toNat_mul, toNat_c2, rotl64_toNat _ (by decide), BitVec.toNat_mul, toNat_c1, rotl]

theorem toNat_mix2 (k : U64) : (mix2 k).toNat = mix64b k.toNat := by
  unfold mix64b
  rw [mix2, BitVec.toNat_mul, toNat_c1, rotl64_toNat _ (by decide), BitVec.toNat_mul, toNat_c2, rotl]

/-- One lane of a block: xor in a mixed word, rotate, add the other lane, times 5, add a constant. -/
theorem toNat_lane (h m a n : U64) {r : Nat} (hr : r ≤ 64) :
    ((rotl64 (h ^^^ m) r + a) * 5 + n).toNat =
      ((rotl 64 (h.toNat ^^^ m.toNat) r + a.toNat) % 2 ^ 64 * 5 + n.toNat) % 2 ^ 64 := by
  have h5 : (5 : U64).toNat = 5 := rfl
  rw [BitVec.toNat_add, BitVec.toNat_mul, h5, BitVec.toNat_add, rotl64_toNat _ hr, BitVec.toNat_xor, Nat.mod_add_mod, rotl]

theorem nats_block (l : Lanes) (k1 k2 : U64) : (block l k1 k2).nats = round128 l.nats k1.toNat k2.toNat := by
  unfold round128
  simp only [Lanes.nats, block]
  rw [toNat_lane _ _ _ _ (by decide), toNat_lane _ _ _ _ (by decide), toNat_lane _ _ _ _ (by decide), toNat_mix1,
    toNat_mix2, toNat_n1, toNat_n2]

theorem toNat_fmix (k : U64) : (fmix k).toNat = fmix64 k.toNat := by
  unfold fmix64
  rw [fmix, xorShift_toNat, BitVec.toNat_mul, xorShift_toNat, BitVec.toNat_mul, xorShift_toNat]
  rfl

theorem nats_crossAdd (l : Lanes) : (crossAdd l).nats = cross l.nats := by
  unfold cross
  simp only [Lanes.nats, crossAdd, BitVec.toNat_add]

theorem nats_finish (l : Lanes) {len : Nat} (hlen : len < 2 ^ 64) : (finish len l).nats = finish128 l.nats len := by
  have hword : (BitVec.ofNat 64 len).toNat = len := by rw [BitVec.toNat_ofNat, Nat.mod_eq_of_lt hlen]
  have hfirst : (crossAdd ⟨l.h1 ^^^ BitVec.ofNat 64 len, l.h2 ^^^ BitVec.ofNat 64 len⟩).nats =
      cross (l.nats.1 ^^^ len, l.nats.2 ^^^ len) := by
    rw [nats_crossAdd]
    simp only [Lanes.nats, BitVec.toNat_xor, hword]
  unfold finish128
  rw [← hfirst, finish, nats_crossAdd]
  simp only [Lanes.nats, toNat_fmix]

/-! ### Body and tail -/

/-- The block at `off`, absorbed into given lanes (R193). -/
def blockAt (rd : Nat → Byte) (l : Lanes) (off : Nat) : Lanes :=
  block l (BitVec.ofNat 64 (memRead rd off 8)) (BitVec.ofNat 64 (memRead rd (off + 8) 8))

theorem nats_blockAt (rd : Nat → Byte) (l : Lanes) (off : Nat) :
    (blockAt rd l off).nats = round128 l.nats (memRead rd off 8) (memRead rd (off + 8) 8) := by
  rw [blockAt, nats_block, toNat_ofNat_memRead _ _ (by decide), toNat_ofNat_memRead _ _ (by decide)]

/-- The body from given lanes over the first `n` blocks. -/
def bodyFrom (rd : Nat → Byte) (l : Lanes) (off : Nat) : Nat → Lanes
  | 0 => l
  | n + 1 => blockAt rd (bodyFrom rd l off n) (off + 16 * n)

theorem body_eq_bodyFrom (rd : Nat → Byte) (off : Nat) (seed : U32) (n : Nat) :
    body rd off seed n = bodyFrom rd (init seed) off n := by
  induction n with
  | zero => rfl
  | succ n ih => rw [body, ih, bodyFrom, blockAt]

/-- The body, its first block first. -/
theorem bodyFrom_succ (rd : Nat → Byte) (l : Lanes) (off n : Nat) :
    bodyFrom rd l off (n + 1) = bodyFrom rd (blockAt rd l off) (off + 16) n := by
  induction n with
  | zero => rw [bodyFrom, bodyFrom, bodyFrom, Nat.mul_zero, Nat.add_zero]
  | succ n ih => rw [bodyFrom, ih, bodyFrom, show off + 16 + 16 * n = off + 16 * (n + 1) by omega]

theorem tailWord_eq (rd : Nat → Byte) (t : Nat) {n : Nat} (hn : n ≤ 8) :
    tailWord rd t n = BitVec.ofNat 64 (memRead rd t n) := by
  have hxor (n : Nat) : tailWord rd t n = xorBytes 64 rd t n := by
    induction n with
    | zero => rfl
    | succ n ih => rw [tailWord, ih, xorBytes]
  rw [hxor, xorBytes_eq rd t (by omega)]

theorem absorb128_byteList (rd : Nat → Byte) (off : Nat) (l : Lanes) (n : Nat) {r : Nat} (hr : r < 16) :
    absorb128 l.nats (byteList rd off (16 * n + r)) n = (tail rd (off + 16 * n) r (bodyFrom rd l off n)).nats := by
  induction n generalizing off l with
  | zero =>
    have hlow := toNat_ofNat_memRead rd off (n := min 8 r) (w := 64) (by omega)
    have hhigh := toNat_ofNat_memRead rd (off + 8) (n := r - 8) (w := 64) (by omega)
    simp only [absorb128, tail, bodyFrom, Nat.mul_zero, Nat.zero_add, Nat.add_zero, byteList_eq_nil_iff, length_byteList,
      take_byteList, drop_byteList, leValue_byteList, Nat.min_comm r, tailWord_eq rd off (Nat.min_le_left 8 r),
      tailWord_eq rd (off + 8) (show r - 8 ≤ 8 by omega)]
    refine Prod.ext ?_ ?_
    · by_cases h0 : r = 0
      · simp [Lanes.nats, h0]
      · simp [Lanes.nats, h0, Nat.pos_of_ne_zero h0, toNat_mix1, hlow]
    · by_cases h8 : r ≤ 8
      · simp [Lanes.nats, h8, Nat.not_lt.2 h8]
      · simp [Lanes.nats, h8, Nat.not_le.1 h8, toNat_mix2, hhigh]
  | succ n ih =>
    simp only [absorb128, take_byteList, drop_byteList, leValue_byteList]
    rw [Nat.min_eq_left (by omega), Nat.min_eq_left (by omega), ← nats_blockAt,
      show 16 * (n + 1) + r - 16 = 16 * n + r by omega, ih, bodyFrom_succ,
      show off + 16 * (n + 1) = off + 16 + 16 * n by omega]

theorem nats_hash (rd : Nat → Byte) (off : Nat) {len : Nat} (hlen : len < 2 ^ 64) (seed : U32) :
    (hash rd off len seed).nats = murmur128 (byteList rd off len) seed.toNat := by
  have hinit : (init seed).nats = (seed.toNat, seed.toNat) := by
    simp only [Lanes.nats, init, toNat_zext64 (by decide) seed]
  have habsorb := absorb128_byteList rd off (init seed) (len / 16) (Nat.mod_lt len (by decide))
  rw [Nat.div_add_mod, hinit] at habsorb
  rw [hash, body_eq_bodyFrom, nats_finish _ hlen, ← habsorb, murmur128, length_byteList]

end Sys2Proof.Machine.Hash128
end

section
/-! PROOFS. The hash commands (spec/41_hash32.md, spec/42_hash128.md, spec/43_hash_words.md): what they hash, the closed forms of the
word hashes, what they depend on, and the spec's examples. -/

namespace Sys2Proof.Machine

open Sys2Proof.Spec

/-! ### The commands hash their bytes -/

theorem zext64_hash32 (rd : Nat → Byte) (off : Nat) {len : Nat} (hlen : len < 2 ^ 32) (seed : U32) :
    zext64 (Hash32.hash rd off len seed) = BitVec.ofNat 64 (murmur32 (byteList rd off len) seed.toNat) := by
  rw [← Hash32.toNat_hash rd off hlen, BitVec.ofNat_toNat]

theorem hash128_h1 (rd : Nat → Byte) (off : Nat) {len : Nat} (hlen : len < 2 ^ 64) (seed : U32) :
    (Hash128.hash rd off len seed).h1 = BitVec.ofNat 64 (murmur128 (byteList rd off len) seed.toNat).1 := by
  rw [← Hash128.nats_hash rd off hlen, Hash128.Lanes.nats, BitVec.ofNat_toNat, BitVec.setWidth_eq]

theorem hash128_h2 (rd : Nat → Byte) (off : Nat) {len : Nat} (hlen : len < 2 ^ 64) (seed : U32) :
    (Hash128.hash rd off len seed).h2 = BitVec.ofNat 64 (murmur128 (byteList rd off len) seed.toNat).2 := by
  rw [← Hash128.nats_hash rd off hlen, Hash128.Lanes.nats, BitVec.ofNat_toNat, BitVec.setWidth_eq]

/-- Settles O38: H32 hashes the bytes of its range, and MSG_SIZE bounds the length to 32 bits. -/
theorem h32IsMurmurOfTheMessageRange : Obligations.H32IsMurmurOfTheMessageRange := by
  refine ⟨by decide, fun s hwf => ⟨fun h => ?_, exec_of_range_beyond_msg (.inl rfl)⟩⟩
  obtain ⟨-, -, -, hmsg⟩ := Config.Params.wf_bounds hwf
  have hlen : s.a1.toNat < 2 ^ 32 := by omega
  constructor
  · rw [exec_h32 h, done_setRes0, zext64_hash32 _ _ hlen]
    rfl
  · exact (Hash32.toNat_hash s.msgByte s.a0.toNat hlen s.seed).symm.trans_lt (BitVec.isLt _)

/-- Settles O39: H128 hashes the bytes of its range. -/
theorem h128IsMurmurOfTheMessageRange : Obligations.H128IsMurmurOfTheMessageRange := by
  refine ⟨by decide, fun s _ => ⟨fun h => ?_, exec_of_range_beyond_msg (.inr rfl)⟩⟩
  rw [exec_h128 h, done_setRes, hash128_h1 _ _ s.a1.isLt, hash128_h2 _ _ s.a1.isLt]
  rfl

/-! ### The word hashes (R220 to R227) -/

theorem byteList_bytesLe (x : U64) : byteList (bytesLe x) 0 8 = wordBytes x := by
  rw [← map_toNat_bytesLe, List.map_map, byteList]
  simp only [Nat.zero_add, Function.comp_def]

theorem byteList_bytesLe2 (x y : U64) : byteList (bytesLe2 x y) 0 16 = wordBytes x ++ wordBytes y := by
  rw [← map_toNat_bytesLe, ← map_toNat_bytesLe, ← List.map_append, ← map_bytesLe2, List.map_map, byteList]
  simp only [Nat.zero_add, Function.comp_def]

theorem length_wordBytes (x : U64) : (wordBytes x).length = 8 := by
  rw [wordBytes, List.length_map, List.length_range]

theorem leValue_wordBytes (x : U64) : leValue (wordBytes x) = x.toNat := by
  rw [← byteList_bytesLe, leValue_byteList, memRead_bytesLe]

/-- Some of a word's bytes spell the bits they are taken from. -/
theorem memRead_bytesLe_eq (x : U64) (a n : Nat) : memRead (bytesLe x) a n = x.toNat / 2 ^ (8 * a) % 2 ^ (8 * n) := by
  induction n with
  | zero => rw [memRead, Nat.mul_zero, Nat.pow_zero, Nat.mod_one]
  | succ n ih =>
    rw [memRead, ih, bytesLe, byteOf_toNat, Nat.mul_add 8 a, Nat.pow_add, ← Nat.div_div_eq_div_mul, Nat.mul_succ,
      Nat.pow_add, Nat.mod_mul, Nat.mul_comm (2 ^ (8 * n))]

/-- The two blocks of a word are its halves, low half first. -/
theorem absorb32_wordBytes (h : Nat) (x : U64) (l : List Nat) (n : Nat) :
    absorb32 h (wordBytes x ++ l) (n + 2) =
      absorb32 (round32 (round32 h (x.toNat % 2 ^ 32)) (x.toNat / 2 ^ 32)) l n := by
  have hsplit : wordBytes x = byteList (bytesLe x) 0 4 ++ byteList (bytesLe x) 4 4 := by
    rw [← byteList_bytesLe, byteList_add _ 0 4 4]
  have hlow : leValue (byteList (bytesLe x) 0 4) = x.toNat % 2 ^ 32 := by
    rw [leValue_byteList, memRead_bytesLe_eq, Nat.mul_zero, Nat.pow_zero, Nat.div_one]
  have hhigh : leValue (byteList (bytesLe x) 4 4) = x.toNat / 2 ^ 32 := by
    have hx := x.isLt
    rw [leValue_byteList, memRead_bytesLe_eq]
    omega
  rw [hsplit, List.append_assoc, absorb32, absorb32]
  simp only [List.take_left' (length_byteList ..), List.drop_left' (length_byteList ..), hlow, hhigh]

/-- A word is a whole lane operand of the 128-bit body. -/
theorem absorb128_wordBytes (h : Nat × Nat) (x y : U64) (l : List Nat) (n : Nat) :
    absorb128 h (wordBytes x ++ (wordBytes y ++ l)) (n + 1) = absorb128 (round128 h x.toNat y.toNat) l n := by
  have hdrop : (wordBytes x ++ (wordBytes y ++ l)).drop 16 = l := by
    rw [← List.append_assoc, List.drop_left']
    rw [List.length_append, length_wordBytes, length_wordBytes]
  rw [absorb128, List.take_left' (length_wordBytes x), List.drop_left' (length_wordBytes x),
    List.take_left' (length_wordBytes y), leValue_wordBytes, leValue_wordBytes, hdrop]

theorem absorb32_nil (h : Nat) : absorb32 h [] 0 = h := if_pos rfl

theorem absorb128_nil (h : Nat × Nat) : absorb128 h [] 0 = h := rfl

/-- One word is two blocks and no tail. -/
theorem murmur32_wordBytes (x : U64) (seed : Nat) :
    murmur32 (wordBytes x) seed = fmix32 (round32 (round32 seed (x.toNat % 2 ^ 32)) (x.toNat / 2 ^ 32) ^^^ 8) := by
  have habsorb := absorb32_wordBytes seed x [] 0
  rw [List.append_nil, absorb32_nil] at habsorb
  rw [murmur32, length_wordBytes, habsorb]

/-- Two words are four blocks and no tail. -/
theorem murmur32_two_words (x y : U64) (seed : Nat) :
    murmur32 (wordBytes x ++ wordBytes y) seed =
      fmix32 (round32 (round32 (round32 (round32 seed (x.toNat % 2 ^ 32)) (x.toNat / 2 ^ 32)) (y.toNat % 2 ^ 32))
        (y.toNat / 2 ^ 32) ^^^ 16) := by
  have habsorb := absorb32_wordBytes seed x (wordBytes y ++ []) 2
  rw [absorb32_wordBytes _ y [] 0, List.append_nil, absorb32_nil] at habsorb
  rw [murmur32, List.length_append, length_wordBytes, length_wordBytes, habsorb]

/-- One word is a tail of eight bytes. -/
theorem murmur128_wordBytes (x : U64) (seed : Nat) :
    murmur128 (wordBytes x) seed = finish128 (seed ^^^ mix64a x.toNat, seed) 8 := by
  have hlen := length_wordBytes x
  have hne : wordBytes x ≠ [] := List.ne_nil_of_length_pos (by rw [hlen]; decide)
  have habsorb : absorb128 (seed, seed) (wordBytes x) 0 = (seed ^^^ mix64a x.toNat, seed) := by
    rw [absorb128, if_neg hne, List.take_of_length_le hlen.le, leValue_wordBytes, if_pos hlen.le]
  rw [murmur128, hlen, habsorb]

/-- Two words are one block and no tail. -/
theorem murmur128_two_words (x y : U64) (seed : Nat) :
    murmur128 (wordBytes x ++ wordBytes y) seed = finish128 (round128 (seed, seed) x.toNat y.toNat) 16 := by
  have habsorb := absorb128_wordBytes (seed, seed) x y [] 0
  rw [List.append_nil, absorb128_nil] at habsorb
  rw [murmur128, List.length_append, length_wordBytes, length_wordBytes, habsorb]

/-- Settles O40: the bytes that the commands hash are those of the words, and a word is two blocks. -/
theorem wordHashes32AreMurmurOfTheirLittleEndianBytes : Obligations.WordHashes32AreMurmurOfTheirLittleEndianBytes := by
  refine ⟨by decide, by decide, fun s => ⟨?_, ?_, murmur32_wordBytes .., murmur32_two_words ..⟩⟩
  · rw [exec, execH32w1, done_setRes0, zext64_hash32 _ _ (by decide), byteList_bytesLe]
  · rw [exec, execH32w2, done_setRes0, zext64_hash32 _ _ (by decide), byteList_bytesLe2]

/-- Settles O41: the bytes that the commands hash are those of the words; one word is a tail, two are one block. -/
theorem wordHashes64AreMurmurOfTheirLittleEndianBytes : Obligations.WordHashes64AreMurmurOfTheirLittleEndianBytes := by
  refine ⟨by decide, by decide, fun s => ⟨?_, ?_, congrArg Prod.fst (murmur128_wordBytes ..),
    congrArg Prod.fst (murmur128_two_words ..)⟩⟩
  · rw [exec, execH64w1, done_setRes0, hash128_h1 _ _ (by decide), byteList_bytesLe]
  · rw [exec, execH64w2, done_setRes0, hash128_h1 _ _ (by decide), byteList_bytesLe2]

/-! ### What a hash depends on (R160, R190, R312) -/

/-- A byte that the host has written reads the same whatever the block holds where nothing was written. -/
theorem msgByte_eq_of_written {s t : State} {a : Nat} (hs : Memory.get? s.msg a ≠ none)
    (h : Memory.get? t.msg a = Memory.get? s.msg a) : t.msgByte a = s.msgByte a := by
  obtain ⟨b, hb⟩ := Option.ne_none_iff_exists'.1 hs
  simp only [State.msgByte, Memory.msgRead, h, hb, Option.getD_some]

/-- Settles O43: the two states read the same bytes in the range, and a hash is a function of those. -/
theorem hashDependsOnTheWrittenRangeAlone : Obligations.HashDependsOnTheWrittenRangeAlone := by
  intro s t s1 t1 s2 t2 hwritten ha0 ha1 hseed hsize hmsg hfits hs1 ht1 hs2 ht2
  have hfits' : t.a0.toNat + t.a1.toNat ≤ t.params.msgSize := by rw [ha0, ha1, hsize]; exact hfits
  have hbytes (j : Nat) (hj : j < s.a1.toNat) : t.msgByte (s.a0.toNat + j) = s.msgByte (s.a0.toNat + j) :=
    msgByte_eq_of_written (hwritten _ (by omega) (by omega)) (hmsg _ (by omega) (by omega))
  rw [exec_h32 hfits, done_next_iff] at hs1
  rw [exec_h32 hfits', done_next_iff, ha0, ha1, hseed, Hash32.hash_congr s.seed hbytes] at ht1
  rw [exec_h128 hfits, done_next_iff] at hs2
  rw [exec_h128 hfits', done_next_iff, ha0, ha1, hseed, Hash128.hash_congr s.seed hbytes] at ht2
  subst hs1 ht1 hs2 ht2
  exact ⟨rfl, rfl, rfl⟩

/-! ### The spec's examples (R168, R199) -/

/-- The five bytes of "hello". -/
def helloByte (a : Nat) : Byte := [0x68, 0x65, 0x6C, 0x6C, 0x6F].getD a 0

theorem hash_hello :
    Hash32.hash helloByte 0 5 0 = 0x248BFA47 ∧ Hash128.hash helloByte 0 5 0 = ⟨0xCBD8A7B341BD9B02, 0x5B1E906A48AE1D19⟩ := by
  decide +kernel

/-- The hashes of no byte at all. -/
theorem hash_empty :
    Hash32.hash helloByte 0 0 0 = 0 ∧ Hash128.hash helloByte 0 0 0 = ⟨0, 0⟩ ∧ Hash32.hash helloByte 0 0 1 = 0x514E28B7 ∧
    Hash128.hash helloByte 0 0 0xFFFFFFFF = ⟨0x6AF1DF4D9D3BC9EC, 0x857421121EE6446B⟩ := by decide +kernel

section Example

variable {s : State} (hfits : s.a0.toNat + s.a1.toNat ≤ s.params.msgSize)
include hfits

theorem exec_h32_of_hash {v : U32} (h : Hash32.hash s.msgByte s.a0.toNat s.a1.toNat s.seed = v) :
    exec .h32 s = .next { s with res0 := zext64 v, status := okStatus s } := by
  rw [exec_h32 hfits, h, done_setRes0]

theorem exec_h128_of_hash {v1 v2 : U64} (h : Hash128.hash s.msgByte s.a0.toNat s.a1.toNat s.seed = ⟨v1, v2⟩) :
    exec .h128 s = .next { s with res0 := v1, res1 := v2, status := okStatus s } := by
  rw [exec_h128 hfits, h, done_setRes]

end Example

/-- Settles O44: the range holds the bytes of an example, and the hash is computed from those. -/
theorem hashExamplesOfTheSpec : Obligations.HashExamplesOfTheSpec := by
  intro s _
  obtain ⟨hello32, hello128⟩ := hash_hello
  obtain ⟨empty32, empty128, empty32seed, empty128seed⟩ := hash_empty
  refine ⟨fun hseed ha0 ha1 hsize h0 h1 h2 h3 h4 => ?hello, fun ha1 ha0 hseed => ?empty, fun ha1 ha0 hseed => ?seedOne,
    fun ha1 ha0 hseed => ?seedOnes⟩
  case hello =>
    have hbytes (j : Nat) (hj : j < 5) : s.msgByte (0 + j) = helloByte (0 + j) := by
      rw [Nat.zero_add]
      interval_cases j
      exacts [h0, h1, h2, h3, h4]
    have hfits : s.a0.toNat + s.a1.toNat ≤ s.params.msgSize := by rw [ha0, ha1]; exact hsize
    refine ⟨exec_h32_of_hash hfits (v := 0x248BFA47) ?_, exec_h128_of_hash hfits ?_⟩ <;> rw [ha0, ha1, hseed]
    · exact (Hash32.hash_congr 0 hbytes).trans hello32
    · exact (Hash128.hash_congr 0 hbytes).trans hello128
  all_goals
    have hfits : s.a0.toNat + s.a1.toNat ≤ s.params.msgSize := by rw [ha1]; exact ha0
    have hbytes (j : Nat) (hj : j < 0) : s.msgByte (s.a0.toNat + j) = helloByte (0 + j) := absurd hj (Nat.not_lt_zero j)
  case empty =>
    refine ⟨exec_h32_of_hash hfits (v := 0) ?_, exec_h128_of_hash hfits ?_⟩ <;> rw [ha1, hseed]
    · exact (Hash32.hash_congr 0 hbytes).trans empty32
    · exact (Hash128.hash_congr 0 hbytes).trans empty128
  case seedOne =>
    refine exec_h32_of_hash hfits (v := 0x514E28B7) ?_
    rw [ha1, hseed]
    exact (Hash32.hash_congr 1 hbytes).trans empty32seed
  case seedOnes =>
    refine exec_h128_of_hash hfits ?_
    rw [ha1, hseed]
    exact (Hash128.hash_congr 0xFFFFFFFF hbytes).trans empty128seed

end Sys2Proof.Machine
end

section
/-! PROOFS. EST rounds the estimate of the spec, and how large that can be (spec/44_hll.md R248 to R256); RELERR's table in closed
form (R259). -/

namespace Sys2Proof.Machine

open Sys2Proof.Spec

/-! ### RELERR (R259) -/

theorem Hll.relErr_eq_even {p : Nat} (hp : 4 ≤ p) (hp31 : p ≤ 31) (heven : p % 2 = 0) :
    Hll.relErr p = BitVec.ofNat 64 (0x3FD0A3D70A3D70A4 - (p - 4) / 2 * 2 ^ 52) := by
  obtain ⟨k, rfl⟩ : ∃ k, p = 4 + 2 * k := ⟨(p - 4) / 2, by omega⟩
  apply BitVec.eq_of_toNat_eq
  rw [Hll.relErr_even (by omega), BitVec.toNat_ofNat]
  omega

theorem Hll.relErr_eq_odd {p : Nat} (hp : 4 ≤ p) (hp31 : p ≤ 31) (hodd : p % 2 = 1) :
    Hll.relErr p = BitVec.ofNat 64 (0x3FC78852D0FF33F3 - (p - 5) / 2 * 2 ^ 52) := by
  obtain ⟨k, rfl⟩ : ∃ k, p = 5 + 2 * k := ⟨(p - 5) / 2, by omega⟩
  apply BitVec.eq_of_toNat_eq
  rw [Hll.relErr_odd (by omega), BitVec.toNat_ofNat]
  omega

/-- Settles O51: RELERR's result is the entry of `p`, and a step of 2 in `p` is one less in the exponent field. -/
theorem relerrReturnsTheTableEntryOfP : Obligations.RelerrReturnsTheTableEntryOfP := by
  refine ⟨by decide, fun s hinv => ⟨exec_of_not_configured (by decide), fun hv heven => ?_, fun hv hodd => ?_⟩⟩ <;>
    obtain ⟨hp, hp31, -⟩ := State.Ready.shape ⟨hinv, hv⟩ <;>
    rw [exec_relerr hv, done_setRes0]
  · rw [Hll.relErr_eq_even hp hp31 heven]
  · rw [Hll.relErr_eq_odd hp hp31 hodd]

/-! ### The estimate as a function of `V` and `E` (R252) -/

theorem Hll.v_eq_zeros (s : State) : Hll.v s = zeros s := by
  simp only [Hll.v, Hll.sumOver_eq, Nat.zero_add, zeros, Finset.card_filter, State.m]

/-- EST of a configured array that has an estimate. -/
theorem exec_est_of_some {s : State} (hw : s.w ≤ 8) (hv : s.cfg.valid = true) {n : Nat}
    (h : Hll.estimate s.m (zeros s) (estimateE s) = some n) : exec .est s = done (s.setRes0 (Hll.estimateWord n)) := by
  rw [exec, execEst, if_neg (ne_false_of_eq_true hv), Hll.v_eq_zeros, Hll.rawEstimate_eq_estimateE hw, h]

section Ranges

variable {m v : Nat} {e : ℚ}

theorem Hll.estimate_of_zeros (he : e ≤ 5 / 2 * (m : ℚ)) (hv : 0 < v) :
    Hll.estimate m v e = some (Logarithm.nearestLn m ((m : ℚ) / (v : ℚ))) := by
  rw [Hll.estimate, if_pos he, if_pos hv]

theorem Hll.estimate_of_no_zeros (he : e ≤ 5 / 2 * (m : ℚ)) (hv : v = 0) :
    Hll.estimate m v e = some (Logarithm.nearest e) := by
  rw [Hll.estimate, if_pos he, if_neg (Nat.not_lt.2 hv.le)]

theorem Hll.estimate_of_middle (he : 5 / 2 * (m : ℚ) < e) (he' : e ≤ 2 ^ 32 / 30) :
    Hll.estimate m v e = some (Logarithm.nearest e) := by
  rw [Hll.estimate, if_neg (not_le.2 he), if_pos he']

theorem Hll.estimate_of_large (he : 5 / 2 * (m : ℚ) < e) (he' : 2 ^ 32 / 30 < e) (he32 : e < 2 ^ 32) :
    Hll.estimate m v e = some (Logarithm.nearestLn (2 ^ 32) (1 / (1 - e / 2 ^ 32))) := by
  rw [Hll.estimate, if_neg (not_le.2 he), if_neg (not_le.2 he'), if_neg (not_le.2 he32)]

end Ranges

/-! ### Rounding (R253) -/

/-- `n` is `floor(f + 1/2)`. -/
def ExactlyRounded (n : Nat) (f : ℝ) : Prop := (n : ℝ) ≤ f + 1 / 2 ∧ f + 1 / 2 < n + 1

theorem ExactlyRounded.isRounded {n : Nat} {f : ℝ} (h : ExactlyRounded n f) : IsRounded n f := by
  obtain ⟨hle, hlt⟩ := h
  refine ⟨abs_le.2 ⟨?_, ?_⟩, fun _ => ⟨hle, hlt⟩⟩ <;> norm_num <;> linarith

theorem exactlyRounded_nearest {e : ℚ} (he : 0 ≤ e) : ExactlyRounded (Logarithm.nearest e) e := by
  obtain ⟨hle, hlt⟩ := Logarithm.nearest_spec he
  have hle' : ((Logarithm.nearest e : ℚ) : ℝ) ≤ ((e + 1 / 2 : ℚ) : ℝ) := Rat.cast_le.2 hle
  have hlt' : ((e + 1 / 2 : ℚ) : ℝ) < ((Logarithm.nearest e + 1 : ℚ) : ℝ) := Rat.cast_lt.2 hlt
  push_cast at hle' hlt'
  exact ⟨hle', hlt'⟩

theorem isRounded_nearestLn {c : Nat} {x : ℚ} (hx : 1 ≤ x) (hc : c ≤ 2 ^ 100) :
    IsRounded (Logarithm.nearestLn c x) (c * Real.log x) := Logarithm.nearestLn_spec hx hc

theorem le_add_one_of_isRounded {n : Nat} {f : ℝ} (h : IsRounded n f) : (n : ℝ) ≤ f + 1 := by
  obtain ⟨habs, -⟩ := h
  have := (abs_le.1 habs).2
  norm_num at this
  linarith

/-! ### The size of the estimate (R256) -/

theorem zSum_pos (s : State) : 0 < zSum s :=
  Finset.sum_pos (fun _ _ => by positivity) ⟨0, Finset.mem_range.2 (Nat.two_pow_pos _)⟩

theorem zeros_le (s : State) : zeros s ≤ s.m := (Finset.card_filter_le _ _).trans_eq (Finset.card_range _)

/-- `Z` is a sum of `m` powers of 1/2, over the common denominator 2^255. -/
theorem zScaled_bounds (s : State) : 0 < Hll.zScaled s ∧ Hll.zScaled s ≤ s.m * 2 ^ 255 := by
  have hsum : Hll.zScaled s = ∑ i ∈ Finset.range s.m, 2 ^ (255 - s.get i) := by
    simp only [Hll.zScaled, Hll.sumOver_eq, Nat.zero_add, State.m]
  rw [hsum]
  constructor
  · exact Finset.sum_pos (fun _ _ => Nat.two_pow_pos _) ⟨0, Finset.mem_range.2 (Nat.two_pow_pos _)⟩
  · refine (Finset.sum_le_card_nsmul _ _ (2 ^ 255) fun i _ => ?_).trans_eq (by rw [Finset.card_range, smul_eq_mul])
    exact Nat.pow_le_pow_right Nat.two_pos (Nat.sub_le ..)

/-- The large range of the spec, with the logarithm that the model takes (assumption 10). -/
theorem neg_log_large (e : ℚ) :
    -2 ^ 32 * Real.log (1 - (e : ℝ) / 2 ^ 32) = (2 ^ 32 : ℕ) * Real.log ((1 / (1 - e / 2 ^ 32) : ℚ) : ℝ) := by
  push_cast
  rw [one_div, Real.log_inv]
  ring

theorem one_le_m_div_zeros {s : State} (hz : 0 < zeros s) : 1 ≤ (s.m : ℚ) / zeros s := by
  rw [one_le_div (Nat.cast_pos.2 hz)]
  exact_mod_cast zeros_le s

section Ready

variable {s : State} (h : s.Ready)
include h

theorem State.Ready.m_bounds : 0 < s.m ∧ s.m ≤ 2 ^ 31 := by
  obtain ⟨-, hp31, -⟩ := h.shape
  exact ⟨Nat.two_pow_pos _, Nat.pow_le_pow_right Nat.two_pos hp31⟩

theorem State.Ready.alphaOf_pos : 0 < alphaOf s := by
  have halpha : 0 < s.params.alpha64 := by
    have hwf := h.1.params
    simp only [Config.Params.wf, Bool.and_eq_true, decide_eq_true_eq] at hwf
    exact hwf.2
  unfold alphaOf
  split_ifs
  · norm_num
  · norm_num
  · exact halpha
  · positivity

theorem State.Ready.estimateE_pos : 0 < estimateE s := by
  have hm : (0 : ℚ) < s.m := Nat.cast_pos.2 h.m_bounds.1
  exact div_pos (mul_pos h.alphaOf_pos (pow_pos hm 2)) (zSum_pos s)

/-- The denominator of `alpha(m)`, for every `m`. -/
theorem State.Ready.exists_alphaOf_mul_eq (ha : SmallAlpha s) :
    ∃ b : ℕ, 0 < b ∧ b * s.m ≤ 2 ^ 76 ∧ ∃ a : ℤ, alphaOf s * b = a := by
  obtain ⟨hm0, hm31⟩ := h.m_bounds
  have hm (k : Nat) (hp : s.p = k) : s.m = 2 ^ k := congrArg (2 ^ ·) hp
  unfold alphaOf
  split_ifs with h4 h5 h6
  · exact ⟨1000, by decide, by rw [hm 4 h4]; decide, 673, by norm_num⟩
  · exact ⟨1000, by decide, by rw [hm 5 h5]; decide, 697, by norm_num⟩
  · refine ⟨s.params.alpha64.den, s.params.alpha64.den_pos, ?_, s.params.alpha64.num, Rat.mul_den_eq_num _⟩
    have hden := ha h6
    rw [hm 6 h6]
    omega
  · refine ⟨10000 * s.m + 10790, by omega, ?_, 7213 * s.m, ?_⟩
    · exact (Nat.mul_le_mul (show 10000 * s.m + 10790 ≤ 2 ^ 45 by omega) hm31).trans_eq (by norm_num)
    · have hmq : (0 : ℚ) < s.m := Nat.cast_pos.2 hm0
      push_cast
      field_simp
      ring

/-- The denominator of `E`. -/
theorem State.Ready.exists_estimateE_mul_eq (ha : SmallAlpha s) :
    ∃ d : ℕ, 0 < d ∧ d ≤ 2 ^ 76 * 2 ^ 255 ∧ ∃ k : ℤ, estimateE s * d = k := by
  obtain ⟨-, -, hw8⟩ := h.shape
  obtain ⟨b, hb, hbm, a, hab⟩ := h.exists_alphaOf_mul_eq ha
  obtain ⟨hz0, hz⟩ := zScaled_bounds s
  refine ⟨b * Hll.zScaled s, Nat.mul_pos hb hz0, ?_, a * s.m ^ 2 * 2 ^ 255, ?_⟩
  · calc b * Hll.zScaled s ≤ b * (s.m * 2 ^ 255) := Nat.mul_le_mul_left b hz
      _ = b * s.m * 2 ^ 255 := (Nat.mul_assoc ..).symm
      _ ≤ 2 ^ 76 * 2 ^ 255 := Nat.mul_le_mul_right _ hbm
  · have hzq : (Hll.zScaled s : ℚ) ≠ 0 := Nat.cast_ne_zero.2 hz0.ne'
    rw [estimateE, ← Hll.z_eq_zSum hw8, Hll.z]
    push_cast
    rw [← hab]
    field_simp
    norm_num

theorem State.Ready.one_le_largeArgument (he : estimateE s < 2 ^ 32) : 1 ≤ 1 / (1 - estimateE s / 2 ^ 32) := by
  have hE := h.estimateE_pos
  rw [one_le_div (by linarith)]
  linarith

/-- In the large range `E` stays away from 2^32 by one part of its denominator. -/
theorem State.Ready.largeArgument_le (ha : SmallAlpha s) (he : estimateE s < 2 ^ 32) :
    1 / (1 - estimateE s / 2 ^ 32) ≤ 2 ^ 32 * (2 ^ 76 * 2 ^ 255) := by
  obtain ⟨d, hd, hdle, k, hk⟩ := h.exists_estimateE_mul_eq ha
  have hgap : (1 : ℚ) ≤ (2 ^ 32 - estimateE s) * d := by
    have hpos : (0 : ℚ) < (2 ^ 32 - estimateE s) * d := mul_pos (by linarith) (Nat.cast_pos.2 hd)
    rw [sub_mul, hk] at hpos ⊢
    exact_mod_cast hpos
  have harg : 1 / (1 - estimateE s / 2 ^ 32) ≤ 2 ^ 32 * (d : ℚ) := by
    rw [div_le_iff₀ (by linarith)]
    linarith
  exact harg.trans (mul_le_mul_of_nonneg_left (by exact_mod_cast hdle) (by norm_num))

/-! ### EST (R248) -/

/-- Every estimate of the spec is below 2^40 by a margin that rounding does not use up. -/
theorem State.Ready.isEstimate_le {f : ℝ} (hf : IsEstimate s f) (ha : SmallAlpha s) : f ≤ 2 ^ 32 * 253 := by
  have hm : (s.m : ℝ) ≤ 2 ^ 31 := by exact_mod_cast h.m_bounds.2
  have hlog2 := Real.log_two_lt_d9
  obtain ⟨-, hz, rfl⟩ | ⟨he, -, rfl⟩ | ⟨-, he, rfl⟩ | ⟨-, -, he, rfl⟩ := hf
  · have hz1 : (1 : ℝ) ≤ zeros s := by exact_mod_cast hz
    have harg : (1 : ℝ) ≤ s.m / zeros s := by
      have := (Rat.cast_le (K := ℝ)).2 (one_le_m_div_zeros hz)
      push_cast at this
      exact this
    have hlog : Real.log (s.m / zeros s) ≤ 31 * Real.log 2 := by
      have hle : (s.m : ℝ) / zeros s ≤ 2 ^ 31 := (div_le_self (Nat.cast_nonneg _) hz1).trans hm
      simpa using Real.log_le_log (by linarith) hle
    calc (s.m : ℝ) * Real.log (s.m / zeros s) ≤ 2 ^ 31 * (31 * Real.log 2) :=
          mul_le_mul hm hlog (Real.log_nonneg harg) (by norm_num)
      _ ≤ 2 ^ 32 * 253 := by linarith
  · have he' : ((estimateE s : ℚ) : ℝ) ≤ ((5 / 2 * s.m : ℚ) : ℝ) := Rat.cast_le.2 he
    push_cast at he'
    linarith
  · have he' : ((estimateE s : ℚ) : ℝ) ≤ ((2 ^ 32 / 30 : ℚ) : ℝ) := Rat.cast_le.2 he
    push_cast at he'
    linarith
  · have hlog : Real.log ((1 / (1 - estimateE s / 2 ^ 32) : ℚ) : ℝ) ≤
        32 * Real.log 2 + (76 * Real.log 2 + 255 * Real.log 2) := by
      have hone : (1 : ℝ) ≤ ((1 / (1 - estimateE s / 2 ^ 32) : ℚ) : ℝ) := by exact_mod_cast h.one_le_largeArgument he
      have hle : ((1 / (1 - estimateE s / 2 ^ 32) : ℚ) : ℝ) ≤ 2 ^ 32 * (2 ^ 76 * 2 ^ 255) := by
        have := (Rat.cast_le (K := ℝ)).2 (h.largeArgument_le ha he)
        push_cast at this ⊢
        exact this
      refine (Real.log_le_log (by linarith) hle).trans_eq ?_
      rw [Real.log_mul (by positivity) (by positivity), Real.log_mul (by positivity) (by positivity), Real.log_pow,
        Real.log_pow, Real.log_pow]
      norm_num
    rw [neg_log_large]
    push_cast at hlog ⊢
    linarith

/-- The model's estimate is the spec's, rounded (R252, R253). -/
theorem State.Ready.exists_estimate {f : ℝ} (hf : IsEstimate s f) :
    ∃ n, Hll.estimate s.m (zeros s) (estimateE s) = some n ∧ IsRounded n f ∧ (NoLogarithm s → ExactlyRounded n f) := by
  have hm : s.m ≤ 2 ^ 100 := h.m_bounds.2.trans (by norm_num)
  have hexact := exactlyRounded_nearest h.estimateE_pos.le
  obtain ⟨he, hz, rfl⟩ | ⟨he, hz, rfl⟩ | ⟨he, he', rfl⟩ | ⟨he, he', he32, rfl⟩ := hf
  · refine ⟨_, Hll.estimate_of_zeros he hz, ?_, ?_⟩
    · have hround := isRounded_nearestLn (one_le_m_div_zeros hz) hm
      push_cast at hround
      exact hround
    · rintro (⟨-, h0⟩ | ⟨hlt, -⟩)
      · exact absurd h0 hz.ne'
      · exact absurd he (not_le.2 hlt)
  · exact ⟨_, Hll.estimate_of_no_zeros he hz, hexact.isRounded, fun _ => hexact⟩
  · exact ⟨_, Hll.estimate_of_middle he he', hexact.isRounded, fun _ => hexact⟩
  · refine ⟨_, Hll.estimate_of_large he he' he32, ?_, ?_⟩
    · rw [neg_log_large]
      exact isRounded_nearestLn (h.one_le_largeArgument he32) (by norm_num)
    · rintro (⟨hle, -⟩ | ⟨-, hle⟩)
      · exact absurd hle (not_le.2 he)
      · exact absurd hle (not_le.2 he')

theorem State.Ready.exec_est {f : ℝ} (hf : IsEstimate s f) :
    ∃ n, exec .est s = done (s.setRes0 (Hll.estimateWord n)) ∧ IsRounded n f ∧ (NoLogarithm s → ExactlyRounded n f) ∧
      (SmallAlpha s → n < 2 ^ 40) := by
  obtain ⟨-, -, hw8⟩ := h.shape
  obtain ⟨n, hn, hround, hexact⟩ := h.exists_estimate hf
  refine ⟨n, exec_est_of_some hw8 h.2 hn, hround, hexact, fun ha => ?_⟩
  have hle := le_add_one_of_isRounded hround
  have hbound := h.isEstimate_le hf ha
  have hreal : (n : ℝ) < (2 ^ 40 : ℕ) := by push_cast; linarith
  exact_mod_cast hreal

end Ready

/-- Outside EST_RANGE one of the four branches of R252 applies. -/
theorem exists_isEstimate {s : State} (h : ¬ (5 / 2 * (s.m : ℚ) < estimateE s ∧ 2 ^ 32 ≤ estimateE s)) :
    ∃ f, IsEstimate s f := by
  obtain hsmall | hlarge := le_or_gt (estimateE s) (5 / 2 * (s.m : ℚ))
  · obtain hz | hz := Nat.eq_zero_or_pos (zeros s)
    · exact ⟨_, .inr (.inl ⟨hsmall, hz, rfl⟩)⟩
    · exact ⟨_, .inl ⟨hsmall, hz, rfl⟩⟩
  · have he32 : estimateE s < 2 ^ 32 := not_le.1 fun he => h ⟨hlarge, he⟩
    obtain hmiddle | hbig := le_or_gt (estimateE s) (2 ^ 32 / 30)
    · exact ⟨_, .inr (.inr (.inl ⟨hlarge, hmiddle, rfl⟩))⟩
    · exact ⟨_, .inr (.inr (.inr ⟨hlarge, hbig, he32, rfl⟩))⟩

/-- Settles O48: in each branch of R252 the model rounds the branch's `F`, and below 2^64 the word holds the result whole. -/
theorem estReturnsTheRoundedEstimate : Obligations.EstReturnsTheRoundedEstimate := by
  refine ⟨by decide, fun s hinv => ⟨exec_of_not_configured (by decide), fun hv f hf => ?_, fun hv => ?_,
    fun _ => exists_isEstimate⟩⟩
  · obtain ⟨n, hexec, hround, hexact, hsize⟩ := State.Ready.exec_est ⟨hinv, hv⟩ hf
    exact ⟨n, _, hexec, hround, hexact, Hll.estimateWord_toNat, fun ha => (hsize ha).trans (by norm_num)⟩
  · obtain ⟨-, -, hw8⟩ := State.Ready.shape ⟨hinv, hv⟩
    exact exec_est_of_range hw8 hv

/-- Settles O50: a success is the rounding of an estimate, whose size is bounded. -/
theorem estResultIsBelowTwoToThe40 : Obligations.EstResultIsBelowTwoToThe40 := by
  intro s t h ha ht herr
  obtain ⟨-, -, hw8⟩ := h.shape
  by_cases hrange : 5 / 2 * (s.m : ℚ) < estimateE s ∧ 2 ^ 32 ≤ estimateE s
  · rw [exec_est_of_range hw8 h.2 hrange.1 hrange.2, fail_next_iff] at ht
    subst ht
    exact absurd herr (ErrorCode.code_ne_zero .estRange)
  · obtain ⟨f, hf⟩ := exists_isEstimate hrange
    obtain ⟨n, hexec, -, -, hsize⟩ := h.exec_est hf
    rw [hexec, done_next_iff] at ht
    subst ht
    exact (Hll.estimateWord_toNat ((hsize ha).trans (by norm_num))).trans_lt (hsize ha)

/-! ### The empty array (R257) -/

section Empty

variable {s : State} (h : s.Ready) (ha : LinearAlpha s) (hget : ∀ i, i < s.m → s.get i = 0)
include h ha

theorem State.Ready.alphaOf_le : alphaOf s ≤ 5 / 2 := by
  have hm : (0 : ℚ) < s.m := Nat.cast_pos.2 h.m_bounds.1
  unfold alphaOf
  split_ifs with h4 h5 h6
  · norm_num
  · norm_num
  · exact ha h6
  · rw [div_le_iff₀ (by positivity)]
    have : (0 : ℚ) < 1079 / 1000 / s.m := by positivity
    linarith

include hget

theorem State.Ready.isEstimate_zero : IsEstimate s 0 := by
  have hm : (s.m : ℚ) ≠ 0 := Nat.cast_ne_zero.2 h.m_bounds.1.ne'
  have hz : zeros s = s.m := by
    rw [zeros, Finset.filter_true_of_mem fun i hi => hget i (Finset.mem_range.1 hi), Finset.card_range]
  have hsum : zSum s = s.m := by
    rw [zSum, Finset.sum_congr rfl fun i hi => by rw [hget i (Finset.mem_range.1 hi), pow_zero], Finset.sum_const,
      Finset.card_range, nsmul_one]
  have hE : estimateE s = alphaOf s * s.m := by
    rw [estimateE, hsum, pow_two, ← mul_assoc, mul_div_cancel_right₀ _ hm]
  refine .inl ⟨?_, hz ▸ h.m_bounds.1, ?_⟩
  · rw [hE]
    exact mul_le_mul_of_nonneg_right (h.alphaOf_le ha) (Nat.cast_nonneg _)
  · rw [hz, div_self (by exact_mod_cast hm), Real.log_one, mul_zero]

/-- `m` zeros are counted as `m * ln 1`. -/
theorem State.Ready.exec_est_empty : exec .est s = .next { s with res0 := 0, status := okStatus s } := by
  obtain ⟨n, hexec, hround, -⟩ := h.exec_est (h.isEstimate_zero ha hget)
  have hn : n = 0 := by
    have hle := (abs_le.1 hround.1).2
    have hlt : (n : ℝ) < 1 := by norm_num at hle; linarith
    exact Nat.lt_one_iff.1 (by exact_mod_cast hlt)
  subst hn
  rw [hexec, show Hll.estimateWord 0 = 0 from BitVec.eq_of_toNat_eq (Hll.estimateWord_toNat (by decide)), done_setRes0]

end Empty

/-- Settles O49: the estimate of an array of zeros is `m * ln 1`, and RCLR leaves such an array. -/
theorem estOfAZeroArrayIsZero : Obligations.EstOfAZeroArrayIsZero := by
  intro s h ha
  refine ⟨h.exec_est_empty ha, fun t ht => ?_⟩
  rw [exec_rclr h.2, done_next_iff] at ht
  subst ht
  have hready : s.zeroFill.succeed.Ready := ⟨h.1.zeroFill.succeed, h.2⟩
  exact hready.exec_est_empty ha fun i _ => State.get_eq_zero_of_raw rfl i

end Sys2Proof.Machine
end
